-- ==== Sys2Proof/Word.lean ====
section
/-! DEFINITION. The value domains of the LCC core: bytes, the configuration word, bits, levels, polarities, bit-cells,
annotation records and the DB3 decoder's modes (spec/00_scope.md R10, R13, R14; spec/20_memory.md R55). -/

namespace Sys2Proof

/-- An 8-bit word: a command word (R70) or one element of IN or OUT (R51 to R54). -/
abbrev Byte := BitVec 8

/-- A 32-bit word: the configuration word CFG (R22) or a packed annotation (R55). -/
abbrev Word32 := BitVec 32

/-- A Bit, one of 0 and 1 (R13): `true` is 1. -/
abbrev Bit := Bool

/-- A polarity, −1 or +1: what POL, DMQ and MLT hold (R30, R31, R32), and the starting polarity sp (R24). -/
inductive Sign where
  | minus
  | plus
  deriving DecidableEq, Repr, Inhabited

/-- A Level, one of −1, 0, +1 (R13). -/
inductive Level where
  | minus
  | zero
  | plus
  deriving DecidableEq, Repr, Inhabited

/-- The other polarity: neg of R12 on a polarity. -/
def Sign.negate : Sign → Sign
  | .minus => .plus
  | .plus => .minus

/-- A polarity as the Level it is. -/
def Sign.level : Sign → Level
  | .minus => .minus
  | .plus => .plus

/-- neg(l) is −l for a level l (R12). -/
def Level.negate : Level → Level
  | .minus => .plus
  | .zero => .zero
  | .plus => .minus

/-- The integer a Level is (R13). -/
def Level.val : Level → Int
  | .minus => -1
  | .zero => 0
  | .plus => 1

/-- The polarity of a mark pulse; a zero level has none. -/
def Level.sign? : Level → Option Sign
  | .minus => some .minus
  | .zero => none
  | .plus => some .plus

/-- A cell pair (h0, h1): the levels of the two halves of one bit period (R14). -/
structure Cell where
  h0 : Level
  h1 : Level
  deriving DecidableEq, Repr, Inhabited

/-- The kind of a DB3 template pulse (R55). -/
inductive PulseKind where
  | violation
  | balancing
  deriving DecidableEq, Repr, Inhabited

/-- An annotation record: position is an OUT index and has no bound (R55). -/
structure Annotation where
  position : Nat
  kind : PulseKind
  polarity : Sign
  deriving DecidableEq, Repr, Inhabited

/-- DMODE: how many symbols of a `[B,0,0,V]` template the DB3 decoder has consumed (R35). -/
inductive DMode where
  | normal
  | afterB1
  | afterB2
  | afterB3
  deriving DecidableEq, Repr, Inhabited

end Sys2Proof
end

