-- ==== Sys2Proof/Config.lean ====
section
/-! DEFINITION. What the spec fixes or leaves open for the whole core: the default configuration word (spec/10_state.md R27)
and the free values that the working registers hold after a command is aborted (spec/60_exceptions.md R259; log 8).
The one OPEN parameter of the spec, MAX_INPUT_LEN (R9, D18), is a field of State that no step writes (log 4), so that a
statement about every state is a statement about every cap. -/

namespace Sys2Proof

/-- The default configuration word: SPB = 2, START_POL = 0, EMIT_ANNOT = 0 (R27). -/
def Config.defaultCfg : Word32 := 0x00000002

/-- Free value: POL after the n-th abort (R259 discards it and names no value; log 8). -/
opaque Config.discardedPol : Nat → Sign

/-- Free value: DMQ after the n-th abort (R259; log 8). -/
opaque Config.discardedDmq : Nat → Sign

/-- Free value: MLV after the n-th abort (R259; log 8). -/
opaque Config.discardedMlv : Nat → Level

/-- Free value: MLT after the n-th abort (R259; log 8). -/
opaque Config.discardedMlt : Nat → Sign

/-- Free value: ZRC after the n-th abort; two bits, as R33 gives the register (R259; log 8). -/
opaque Config.discardedZrc : Nat → Fin 4

/-- Free value: PSS after the n-th abort (R259; log 8). -/
opaque Config.discardedPss : Nat → Nat

/-- Free value: DMODE after the n-th abort (R259; log 8). -/
opaque Config.discardedDmode : Nat → DMode

/-- Free value: the cursor I after the n-th abort (R259; log 8). -/
opaque Config.discardedI : Nat → Nat

/-- Free value: SYM after the n-th abort (R259; log 8). -/
opaque Config.discardedSym : Nat → List Level

end Sys2Proof
end

