-- ==== Sys2Proof/Syntax.lean ====
section
/-! DEFINITION. The command set LCC-CMD: eight schemes, two directions, sixteen commands (spec/00_scope.md R2,
spec/30_encoding.md R71, R72, R76). A command word has no operand fields (R74, R78): its operands CFG and IN are presented
beside it by the host, so a constructor of `Instr` carries nothing. -/

namespace Sys2Proof

/-- The eight scheme identifiers, in the order of R71. -/
inductive Scheme where
  | nrz
  | rz
  | ami
  | cmi
  | manchester
  | diffManchester
  | mlt3
  | db3
  deriving DecidableEq, Repr, Inhabited

/-- DIR (R72): encode reads bits and writes samples, decode reads samples and writes bits. -/
inductive Direction where
  | encode
  | decode
  deriving DecidableEq, Repr, Inhabited

/-- The sixteen commands of R76, one constructor per row of spec/opcode_table.json. -/
inductive Instr where
  | encNrz
  | encRz
  | encAmi
  | encCmi
  | encManchester
  | encDiffManchester
  | encMlt3
  | encDb3
  | decNrz
  | decRz
  | decAmi
  | decCmi
  | decManchester
  | decDiffManchester
  | decMlt3
  | decDb3
  deriving DecidableEq, Repr, Inhabited

/-- The scheme a command selects (R71, R76). -/
def Instr.scheme : Instr → Scheme
  | .encNrz => .nrz
  | .encRz => .rz
  | .encAmi => .ami
  | .encCmi => .cmi
  | .encManchester => .manchester
  | .encDiffManchester => .diffManchester
  | .encMlt3 => .mlt3
  | .encDb3 => .db3
  | .decNrz => .nrz
  | .decRz => .rz
  | .decAmi => .ami
  | .decCmi => .cmi
  | .decManchester => .manchester
  | .decDiffManchester => .diffManchester
  | .decMlt3 => .mlt3
  | .decDb3 => .db3

/-- The direction a command selects (R72, R76). -/
def Instr.dir : Instr → Direction
  | .encNrz => .encode
  | .encRz => .encode
  | .encAmi => .encode
  | .encCmi => .encode
  | .encManchester => .encode
  | .encDiffManchester => .encode
  | .encMlt3 => .encode
  | .encDb3 => .encode
  | .decNrz => .decode
  | .decRz => .decode
  | .decAmi => .decode
  | .decCmi => .decode
  | .decManchester => .decode
  | .decDiffManchester => .decode
  | .decMlt3 => .decode
  | .decDb3 => .decode

/-- The three operands of a command, presented together by the host (R74). -/
structure Operands where
  cmd : Byte
  cfg : Word32
  inp : List Byte
  deriving DecidableEq, Repr, Inhabited

end Sys2Proof
end

