-- ==== Sys2Proof/WellFormed.lean ====
section
/-! DEFINITION. When a command with its operands is well formed, as the host can tell before issuing it: the command word is one
of the sixteen (spec/30_encoding.md R73), the configuration word is one that phase B admits for the scheme
(spec/40_common.md R102), and the input has the elements and the length that the direction asks for (spec/20_memory.md R51,
R52, R58). A command that is not well formed is still executed: it returns an error response (spec/60_exceptions.md R259). -/

namespace Sys2Proof

/-- The two-cell schemes of R71's class column. -/
def Scheme.wfTwoCell : Scheme → Bool
  | .nrz => false
  | .rz => true
  | .ami => false
  | .cmi => true
  | .manchester => true
  | .diffManchester => true
  | .mlt3 => false
  | .db3 => false

/-- CFG[31:10] is zero (R26). -/
def wfReservedClear (cfg : Word32) : Bool := cfg.extractLsb' 10 22 == 0

/-- CFG.SPB is 1..255, not 0 (R23). -/
def wfSpbPositive (cfg : Word32) : Bool := cfg.extractLsb' 0 8 != 0

/-- CFG.SPB is even where the scheme is two-cell (R23). -/
def wfSpbEven (sch : Scheme) (cfg : Word32) : Bool := !sch.wfTwoCell || !cfg.getLsbD 0

/-- The configuration word is one that the command admits (R23, R26). -/
def Instr.wfCfg (i : Instr) (cfg : Word32) : Bool :=
  wfReservedClear cfg && wfSpbPositive cfg && wfSpbEven i.scheme cfg

/-- Every element of an encode command's input is 0x00 or 0x01 (R51). -/
def wfBits (inp : List Byte) : Bool := inp.all fun e => e == 0x00 || e == 0x01

/-- Every element of a decode command's input is a Level, 0xFF, 0x00 or 0x01 (R52). -/
def wfLevels (inp : List Byte) : Bool := inp.all fun e => e == 0xFF || e == 0x00 || e == 0x01

/-- The input of a decode command is a whole number of bit-cells (R58). -/
def wfWholeCells (cfg : Word32) (inp : List Byte) : Bool := inp.length % (cfg.extractLsb' 0 8).toNat == 0

/-- The input is one that the direction can read. -/
def Instr.wfInput (i : Instr) (cfg : Word32) (inp : List Byte) : Bool :=
  match i.dir with
  | .encode => wfBits inp
  | .decode => wfLevels inp && wfWholeCells cfg inp

/-- A command with its operands is well formed. -/
def Instr.wf (i : Instr) (cfg : Word32) (inp : List Byte) : Bool := i.wfCfg cfg && i.wfInput cfg inp

/-- The command word itself is well formed: reserved bits 000 and a scheme below 8 (R73). -/
def wfCmd (cmd : Byte) : Bool := cmd.extractLsb' 5 3 == 0 && decide ((cmd.extractLsb' 0 4).toNat < 8)

end Sys2Proof
end

