-- ==== Sys2Proof/Decode.lean ====
section
/-! DEFINITION. The command word CMD8: its decoder (total, rejecting by name) and its encoder, both from spec/30_encoding.md R70
to R76; and the byte transport of a whole command (spec/20_memory.md R57, spec/95_test_vectors.md section 3). -/

namespace Sys2Proof

/-- Why a command word selects no command (R73). Either way the core answers UnsupportedScheme (R252; log 17). -/
inductive DecodeError where
  /-- CMD[7:5] ≠ 000. Raised by `decode`; the command ends with an error response. Safe: R73 says so. -/
  | reservedBitsSet
  /-- CMD[3:0] ≥ 8. Raised by `decode`; the command ends with an error response. Safe: R73 says so. -/
  | unknownScheme
  deriving DecidableEq, Repr

/-- SCHEME, CMD[3:0] (R70). -/
def cmdScheme (cmd : Byte) : BitVec 4 := cmd.extractLsb' 0 4

/-- DIR, CMD[4] (R70). -/
def cmdDir (cmd : Byte) : Bool := cmd.getLsbD 4

/-- RSV, CMD[7:5] (R70). -/
def cmdReserved (cmd : Byte) : BitVec 3 := cmd.extractLsb' 5 3

/-- The scheme of a SCHEME value; 8..15 name none (R71). -/
def schemeOf (n : BitVec 4) : Option Scheme :=
  match n.toNat with
  | 0 => some .nrz
  | 1 => some .rz
  | 2 => some .ami
  | 3 => some .cmi
  | 4 => some .manchester
  | 5 => some .diffManchester
  | 6 => some .mlt3
  | 7 => some .db3
  | _ => none

/-- The direction of a DIR value (R72). -/
def dirOf (b : Bool) : Direction := if b then .decode else .encode

/-- The command of a direction and a scheme (R76). -/
def instrOf : Direction → Scheme → Instr
  | .encode, .nrz => .encNrz
  | .encode, .rz => .encRz
  | .encode, .ami => .encAmi
  | .encode, .cmi => .encCmi
  | .encode, .manchester => .encManchester
  | .encode, .diffManchester => .encDiffManchester
  | .encode, .mlt3 => .encMlt3
  | .encode, .db3 => .encDb3
  | .decode, .nrz => .decNrz
  | .decode, .rz => .decRz
  | .decode, .ami => .decAmi
  | .decode, .cmi => .decCmi
  | .decode, .manchester => .decManchester
  | .decode, .diffManchester => .decDiffManchester
  | .decode, .mlt3 => .decMlt3
  | .decode, .db3 => .decDb3

/-- Phase A, DecodeCommand (R73, R101). -/
def decode (cmd : Byte) : Except DecodeError Instr :=
  if cmdReserved cmd = 0 then
    match schemeOf (cmdScheme cmd) with
    | some sch => .ok (instrOf (dirOf (cmdDir cmd)) sch)
    | none => .error .unknownScheme
  else .error .reservedBitsSet

/-- The SCHEME value of a scheme (R71). -/
def schemeCode : Scheme → BitVec 4
  | .nrz => 0
  | .rz => 1
  | .ami => 2
  | .cmi => 3
  | .manchester => 4
  | .diffManchester => 5
  | .mlt3 => 6
  | .db3 => 7

/-- The DIR value of a direction (R72). -/
def dirCode : Direction → BitVec 1
  | .encode => 0
  | .decode => 1

/-- The command word of a command: RSV ‖ DIR ‖ SCHEME with RSV = 000 (R70). -/
def encode (i : Instr) : Byte := (0#3 ++ dirCode i.dir) ++ schemeCode i.scheme

/-- The instruction the decoder reads from a table word: bit 0 of `w` is CMD[0]. A command word has 8 bits and no other
length exists (R70, R78), so more than 8 bits are no command word; bits above `nbits` are 0. -/
def decodeTableWord (nbits w : Nat) : Option Instr :=
  if nbits ≤ 8 then
    match decode (BitVec.ofNat 8 (w % 2 ^ nbits)) with
    | .ok i => some i
    | .error _ => none
  else none

/-- A 32-bit word on a byte-wide path: little-endian, bits [7:0] first (R57). -/
def wordToBytes (w : Word32) : List Byte :=
  [w.extractLsb' 0 8, w.extractLsb' 8 8, w.extractLsb' 16 8, w.extractLsb' 24 8]

/-- The 32-bit word that four little-endian bytes carry (R57). -/
def bytesToWord (b0 b1 b2 b3 : Byte) : Word32 := ((b3 ++ b2) ++ b1) ++ b0

/-- The bytes of a command: CMD, CFG little-endian, then IN (95_test_vectors.md section 3; log 14). -/
def encodeFrame (o : Operands) : List Byte := o.cmd :: (wordToBytes o.cfg ++ o.inp)

/-- The command that a byte sequence carries; fewer than five bytes carry none (log 14). -/
def decodeFrame : List Byte → Option Operands
  | c :: b0 :: b1 :: b2 :: b3 :: inp => some ⟨c, bytesToWord b0 b1 b2 b3, inp⟩
  | _ => none

/-- The 32-bit packed form of an annotation record: [31] kind, [30] polarity, [29:0] position. It cannot carry a position of
2^30 or more (R55, U13; log 16). -/
def packAnnotation (a : Annotation) : Option Word32 :=
  if a.position < 2 ^ 30 then
    let kind : BitVec 1 := match a.kind with
      | .violation => 0
      | .balancing => 1
    let pol : BitVec 1 := match a.polarity with
      | .minus => 0
      | .plus => 1
    some ((kind ++ pol) ++ BitVec.ofNat 30 a.position)
  else none

/-- The record that a packed word carries (R55). -/
def unpackAnnotation (w : Word32) : Annotation where
  position := (w.extractLsb' 0 30).toNat
  kind := if w.getLsbD 31 then .balancing else .violation
  polarity := if w.getLsbD 30 then .plus else .minus

end Sys2Proof
end

