-- ==== Sys2Proof/Machine/State.lean ====
section
/-! DEFINITION. The state of one LCC instance, as plain data: the command operands, LAST_STATUS, the working registers and
result buffers, the response last returned, and the host's commands still to come (spec/10_state.md R21; INVENTORY.md, State).
With it, the reasons a step can stop and the state after power-on (spec/70_reset_and_hazards.md R280). -/

namespace Sys2Proof.Machine

/-- The legal values of LAST_STATUS: exactly seven (R28, R250; U10 makes the others unrepresentable). -/
inductive Status where
  | ok
  | invalidBit
  | unsupportedScheme
  | malformedSymbolSequence
  | invalidSubstitutionPattern
  | invalidConfig
  | inputTooLong
  deriving DecidableEq, Repr, Inhabited

/-- The six error kinds (R16). An error is an outcome of the command, not a stop of the machine (R259). -/
inductive ErrorKind where
  | invalidBit
  | unsupportedScheme
  | malformedSymbolSequence
  | invalidSubstitutionPattern
  | invalidConfig
  | inputTooLong
  deriving DecidableEq, Repr, Inhabited

/-- The working registers (R30 to R37) and the result buffers (R38): all that R39 resets at the start of a command. -/
structure Work where
  /-- POL, the polarity register (R30). -/
  pol : Sign
  /-- DMQ, the Differential Manchester level register (R31). -/
  dmq : Sign
  /-- MLV, the MLT-3 level (R32). -/
  mlv : Level
  /-- MLT, the MLT-3 target sign (R32). -/
  mlt : Sign
  /-- ZRC, the DB3 zero-run register, two bits (R33). -/
  zrc : Fin 4
  /-- PSS, the DB3 pulse counter, unbounded (R34). -/
  pss : Nat
  /-- DMODE, the DB3 decoder's mode (R35). -/
  dmode : DMode
  /-- I, the bit-index cursor (R36). -/
  idx : Nat
  /-- SYM, the DB3 symbol buffer (R37). -/
  sym : List Level
  /-- OUT, the output buffer (R38, R50). -/
  out : List Byte
  /-- ANN, the annotation buffer (R38, R50). -/
  ann : List Annotation
  deriving DecidableEq, Repr, Inhabited

/-- What a command returns to the host: a result code and, on success only, OUT and ANN (R5, R112, R259). -/
structure Response where
  status : Status
  out : List Byte
  ann : List Annotation
  deriving DecidableEq, Repr, Inhabited

/-- What the host does while a command of its own is in progress (log 11). -/
inductive Conduct where
  /-- It keeps the operands as they are and waits for completion, as R284 and R285 ask. -/
  | waits
  /-- It issues another command to the same instance before completion (against R284). -/
  | issuesAnother
  /-- It changes CMD, CFG or IN before completion (against R285). -/
  | changesOperands
  /-- It reads OUT or ANN before completion (against R285). -/
  | readsResultsEarly
  deriving DecidableEq, Repr, Inhabited

/-- One command that the host issues: its three operands (R74) and the host's conduct until it completes. -/
structure Request where
  operands : Operands
  conduct : Conduct
  deriving DecidableEq, Repr, Inhabited

/-- Machine faults: the spec gives none. Its six errors are outcomes of a command, which the hardware returns: "It is not a
model fault" (R259). No constructor, so nothing raises one; safe. -/
inductive Fault
  deriving DecidableEq, Repr

/-- Why a step has no meaning. -/
inductive Refusal where
  /-- A command that `exec` gives no meaning: raised by no arm, since all sixteen have theirs. Safe. -/
  | notModelled (mnemonic : String)
  /-- The host issued a command while another was in progress on this instance: "The model of this spec has no meaning for
  overlapping commands on one instance: it refuses such a schedule" (R284). Raised by `step`. Safe. -/
  | overlappingCommands
  /-- The host changed CMD, CFG or IN before completion (R285; U12 refuses the schedule). Raised by `step`. Safe. -/
  | operandsChanged
  /-- The host read OUT or ANN before completion (R285; U12 refuses the schedule). Raised by `step`. Safe. -/
  | resultsReadEarly
  deriving DecidableEq, Repr

/-- The state of one LCC instance. -/
structure State where
  /-- CMD, the command word presented with the command last taken (R70, R74). -/
  cmd : Byte
  /-- CFG, the configuration word presented with it (R22, R74). -/
  cfg : Word32
  /-- IN, the input buffer presented with it (R50, R74). -/
  inp : List Byte
  /-- LAST_STATUS (R28). -/
  lastStatus : Status
  /-- The working registers and result buffers (R30 to R38). -/
  work : Work
  /-- The response last returned to the host, if any (R5). -/
  response : Option Response
  /-- The host's commands still to come, in issue order (R63, R74; log 2). -/
  pending : List Request
  /-- MAX_INPUT_LEN, fixed by the platform; `none` means no cap (R9, R104, R283; log 4). -/
  maxInputLen : Option Nat
  /-- The model's own counter of aborted commands, which indexes the free values of Config (log 8). -/
  discards : Nat
  deriving DecidableEq, Repr

/-- Power-on (R280). The spec gives LAST_STATUS = 0 and nothing else: the working registers are "unspecified" (log 5), the
operands are the host's (log 6), no response has been returned (log 10), no command has been issued (log 2), MAX_INPUT_LEN
is OPEN (log 4). -/
def State.reset : State where
  cmd := 0x00
  cfg := 0x00000000
  inp := []
  lastStatus := .ok
  work :=
    { pol := .minus, dmq := .minus, mlv := .zero, mlt := .plus, zrc := 0, pss := 0, dmode := .normal, idx := 0,
      sym := [], out := [], ann := [] }
  response := none
  pending := []
  maxInputLen := none
  discards := 0

end Sys2Proof.Machine
end

