-- ==== Sys2Proof/Machine/Flags.lean ====
section
/-! DEFINITION. The one status of the core, LAST_STATUS (spec/10_state.md R28, R41): its codes, what an error writes to it, and
what the host reads (spec/60_exceptions.md R250, R257). There are no other flags. -/

namespace Sys2Proof.Machine

/-- The code that LAST_STATUS holds (R250). -/
def Status.code : Status → Byte
  | .ok => 0
  | .invalidBit => 1
  | .unsupportedScheme => 2
  | .malformedSymbolSequence => 3
  | .invalidSubstitutionPattern => 4
  | .invalidConfig => 5
  | .inputTooLong => 6

/-- The status that an error kind writes: code(E) of R259. Only the kind is recorded (R257). -/
def ErrorKind.status : ErrorKind → Status
  | .invalidBit => .invalidBit
  | .unsupportedScheme => .unsupportedScheme
  | .malformedSymbolSequence => .malformedSymbolSequence
  | .invalidSubstitutionPattern => .invalidSubstitutionPattern
  | .invalidConfig => .invalidConfig
  | .inputTooLong => .inputTooLong

/-- The error that a rejected command word raises: UnsupportedScheme for either reason (R73, R101, R252). -/
def decodeErrorKind : DecodeError → ErrorKind
  | .reservedBitsSet => .unsupportedScheme
  | .unknownScheme => .unsupportedScheme

/-- What the host reads from LAST_STATUS (R28). -/
def hostReadStatus (s : State) : Byte := s.lastStatus.code

end Sys2Proof.Machine
end

