-- ==== Sys2Proof/Machine/Operands.lean ====
section
/-! DEFINITION. How a command reads its operands: the fields of CFG (spec/10_state.md R22 to R26), the elements of IN
(spec/20_memory.md R51, R52), and the checks of phases B, C and D (spec/40_common.md R102 to R106). -/

namespace Sys2Proof.Machine

/-- What phase B extracts from CFG: S, sp and ann (R75, R102). -/
structure Params where
  samples : Nat
  sp : Sign
  annot : Bool
  deriving DecidableEq, Repr, Inhabited

/-- S = CFG[7:0], zero-extended (R23, R75). -/
def cfgSamples (cfg : Word32) : Nat := (cfg.extractLsb' 0 8).toNat

/-- sp: CFG[8] = 1 is +1, 0 is −1 (R24). -/
def cfgPolarity (cfg : Word32) : Sign := if cfg.getLsbD 8 then .plus else .minus

/-- EMIT_ANNOT, CFG[9] (R25). -/
def cfgAnnot (cfg : Word32) : Bool := cfg.getLsbD 9

/-- CFG[31:10], reserved (R26). -/
def cfgReserved (cfg : Word32) : BitVec 22 := cfg.extractLsb' 10 22

/-- Class(scheme) is TWO_CELL (R103). -/
def twoCell : Scheme → Bool
  | .nrz => false
  | .rz => true
  | .ami => false
  | .cmi => true
  | .manchester => true
  | .diffManchester => true
  | .mlt3 => false
  | .db3 => false

/-- A(scheme), the decode alphabet (R103). -/
def alphabet : Scheme → List Level
  | .nrz => [.zero, .plus]
  | .rz => [.zero, .plus]
  | .ami => [.minus, .zero, .plus]
  | .cmi => [.minus, .zero, .plus]
  | .manchester => [.zero, .plus]
  | .diffManchester => [.minus, .plus]
  | .mlt3 => [.minus, .zero, .plus]
  | .db3 => [.minus, .zero, .plus]

/-- Phase B, CheckConfig (R102). -/
def checkConfig (cfg : Word32) (sch : Scheme) : Except ErrorKind Params :=
  if cfgReserved cfg ≠ 0 then .error .invalidConfig
  else if cfgSamples cfg = 0 then .error .invalidConfig
  else if twoCell sch = true ∧ cfgSamples cfg % 2 = 1 then .error .invalidConfig
  else .ok ⟨cfgSamples cfg, cfgPolarity cfg, cfgAnnot cfg⟩

/-- Phase C, CheckLength: elements are counted, bits or samples (R104). -/
def checkLength (cap : Option Nat) (inp : List Byte) : Except ErrorKind Unit :=
  match cap with
  | none => .ok ()
  | some n => if inp.length > n then .error .inputTooLong else .ok ()

/-- bitval(e); `none` is NOT_A_BIT (R51). -/
def bitval (e : Byte) : Option Bit :=
  if e = 0x00 then some false
  else if e = 0x01 then some true
  else none

/-- sext_8(e), the two's-complement value of a sample element (R10, R52). -/
def sext8 (e : Byte) : Int := e.toInt

/-- The Level of an integer sample value; −128..−2 and 2..127 are no Level (R52). -/
def levelOf (v : Int) : Option Level :=
  if v = -1 then some .minus
  else if v = 0 then some .zero
  else if v = 1 then some .plus
  else none

/-- The sample an element is, if it is in A(scheme) (R106). -/
def sampleOf (sch : Scheme) (e : Byte) : Option Level :=
  match levelOf (sext8 e) with
  | some l => if l ∈ alphabet sch then some l else none
  | none => none

/-- Every element through `f`, or the error when one has no value. -/
def readAll {α : Type} (f : Byte → Option α) (err : ErrorKind) : List Byte → Except ErrorKind (List α)
  | [] => .ok []
  | e :: es =>
    match f e with
    | none => .error err
    | some a =>
      match readAll f err es with
      | .error x => .error x
      | .ok as => .ok (a :: as)

/-- Phase D for encode, ValidateBits (R105). -/
def validateBits (inp : List Byte) : Except ErrorKind (List Bit) := readAll bitval .invalidBit inp

end Sys2Proof.Machine
end

