-- ==== Sys2Proof/Machine/Mapper.lean ====
section
/-! DEFINITION. The symbol-to-level mapper: Expand spreads a cell pair over S samples, Collapse turns validated samples back into
cell pairs (spec/40_common.md R107, R108); the samples' words in OUT (spec/20_memory.md R53, R54); and phase D for decode,
which ends in Collapse (R106). -/

namespace Sys2Proof.Machine

/-- Expand(h0, h1) (R107). -/
def expand (S : Nat) (c : Cell) : List Level :=
  if S % 2 = 0 then List.replicate (S / 2) c.h0 ++ List.replicate (S / 2) c.h1
  else List.replicate S c.h0

/-- The OUT word of a sample (R53). -/
def levelByte : Level → Byte
  | .minus => 0xFF
  | .zero => 0x00
  | .plus => 0x01

/-- The OUT word of a decoded bit (R54). -/
def bitByte (b : Bit) : Byte := if b then 0x01 else 0x00

/-- All elements are equal to the given one. -/
def allAre (l : Level) (ls : List Level) : Bool := ls.all fun x => x == l

/-- One bit-cell of a full-width scheme: constant over the whole cell (R108). -/
def collapseFull (c : List Level) : Except ErrorKind Cell :=
  match c with
  | [] => .error .malformedSymbolSequence
  | l :: ls => if allAre l ls then .ok ⟨l, l⟩ else .error .malformedSymbolSequence

/-- One bit-cell of a two-cell scheme: constant over each half (R108). -/
def collapseHalves (S : Nat) (c : List Level) : Except ErrorKind Cell :=
  match c.take (S / 2), c.drop (S / 2) with
  | a :: as, b :: bs =>
    if allAre a as && allAre b bs then .ok ⟨a, b⟩ else .error .malformedSymbolSequence
  | _, _ => .error .malformedSymbolSequence

/-- One bit-cell (R108). -/
def collapseCell (sch : Scheme) (S : Nat) (c : List Level) : Except ErrorKind Cell :=
  if twoCell sch then collapseHalves S c else collapseFull c

/-- The first `n` bit-cells of `v`, S samples each, in order (R108). -/
def collapseCells (sch : Scheme) (S : Nat) : Nat → List Level → Except ErrorKind (List Cell)
  | 0, _ => .ok []
  | n + 1, v =>
    match collapseCell sch S (v.take S) with
    | .error e => .error e
    | .ok c =>
      match collapseCells sch S n (v.drop S) with
      | .error e => .error e
      | .ok cs => .ok (c :: cs)

/-- Collapse(scheme, S, v): len(v)/S bit-cells (R108). -/
def collapse (sch : Scheme) (S : Nat) (v : List Level) : Except ErrorKind (List Cell) :=
  collapseCells sch S (v.length / S) v

/-- Phase D for decode, ValidateSamples (R106). -/
def validateSamples (sch : Scheme) (S : Nat) (inp : List Byte) : Except ErrorKind (List Cell) :=
  if inp.length % S ≠ 0 then .error .malformedSymbolSequence
  else
    match readAll (sampleOf sch) .malformedSymbolSequence inp with
    | .error e => .error e
    | .ok v => collapse sch S v

end Sys2Proof.Machine
end

