-- ==== Sys2Proof/Machine/Ops.lean ====
section
/-! DEFINITION. The named operations over buffers and registers: element reads and writes (spec/00_scope.md R12,
spec/20_memory.md R59, R60), the per-command reset (spec/10_state.md R39), the two ends of a command, abort
(spec/60_exceptions.md R259) and commit (spec/40_common.md R112), the shared execution of a command (R100, R110), and taking
the host's next command (spec/30_encoding.md R74). The error outcome has no handler to return from (R260), so there is no
return operation. -/

namespace Sys2Proof.Machine

/-- MemRead(IN, i): element i, if there is one (R12, R59). -/
def memRead (buf : List Byte) (i : Nat) : Option Byte := buf[i]?

/-- MemWrite(OUT, j, v): element j takes v; at j = len(OUT) the buffer grows by one. No other index exists (R12, R60). -/
def memWrite (buf : List Byte) (j : Nat) (v : Byte) : Option (List Byte) :=
  if j < buf.length then some (buf.set j v)
  else if j = buf.length then some (buf ++ [v])
  else none

/-- drop_last(xs, k) (R11). -/
def dropLast {α : Type} (xs : List α) (k : Nat) : List α := xs.take (xs.length - k)

/-- OUT <- OUT ++ the words of the given samples (R53, R110). -/
def appendSamples (ls : List Level) (w : Work) : Work := { w with out := w.out ++ ls.map levelByte }

/-- append(OUT, b): the word of one decoded bit (R54, R110). -/
def appendBit (b : Bit) (w : Work) : Work := { w with out := w.out ++ [bitByte b] }

/-- I <- I + 1 (R36, R110). -/
def advance (w : Work) : Work := { w with idx := w.idx + 1 }

/-- Phase E, the reset of every working register and result buffer at the start of a command (R39, R109). -/
def resetWork (sp : Sign) : Work :=
  { pol := sp, dmq := sp, mlv := .zero, mlt := sp.negate, zrc := 0, pss := 0, dmode := .normal, idx := 0,
    sym := [], out := [], ann := [] }

/-- The working state after the n-th abort: OUT and ANN hold nothing, every register holds a free value (R259; log 8, log 9). -/
def discardedWork (n : Nat) : Work :=
  { pol := Config.discardedPol n, dmq := Config.discardedDmq n, mlv := Config.discardedMlv n,
    mlt := Config.discardedMlt n, zrc := Config.discardedZrc n, pss := Config.discardedPss n,
    dmode := Config.discardedDmode n, idx := Config.discardedI n, sym := Config.discardedSym n, out := [], ann := [] }

/-- Abort(E), the error outcome of a command (R259): LAST_STATUS takes the code, OUT, ANN and the working registers are
discarded, the response carries no data, and nothing else changes. -/
def abort (e : ErrorKind) (s : State) : State :=
  { s with
    lastStatus := e.status
    work := discardedWork s.discards
    discards := s.discards + 1
    response := some ⟨e.status, [], []⟩ }

/-- The annotation list that a successful command returns: ANN for ENC.DB3 with EMIT_ANNOT = 1, else empty (R112, R118). -/
def returnedAnn (i : Instr) (p : Params) (w : Work) : List Annotation :=
  if i.dir = .encode ∧ i.scheme = .db3 ∧ p.annot = true then w.ann else []

/-- Phase H, Commit (R112): LAST_STATUS is 0 and the response carries OUT and ANN. Nothing writes the working registers, which
keep what the last step left (log 7). -/
def commit (i : Instr) (p : Params) (w : Work) (s : State) : State :=
  { s with lastStatus := .ok, work := w, response := some ⟨.ok, w.out, returnedAnn i p w⟩ }

/-- An encode step: it takes one bit and gives one cell pair (R110). -/
abbrev EncStep := Bit → Work → Cell × Work

/-- A decode step: it takes one cell pair and gives one bit, or raises (R110). -/
abbrev DecStep := Cell → Work → Except ErrorKind (Bit × Work)

/-- Phase F of an encode command other than DB3: one step per bit, in order (R110). -/
def processEncode (step : EncStep) (S : Nat) : List Bit → Work → Work
  | [], w => w
  | b :: bs, w => processEncode step S bs (advance (appendSamples (expand S (step b w).1) (step b w).2))

/-- Phase F of a decode command: one step per bit-cell, in order; the first that raises ends the command (R110, R258). -/
def processDecode (step : DecStep) : List Cell → Work → Except ErrorKind Work
  | [], w => .ok w
  | c :: cs, w =>
    match step c w with
    | .error e => .error e
    | .ok (b, w1) => processDecode step cs (advance (appendBit b w1))

/-- Phases B and C, which every command passes through first (R100). -/
def checkOperands (i : Instr) (s : State) : Except ErrorKind Params :=
  match checkConfig s.cfg i.scheme with
  | .error e => .error e
  | .ok p =>
    match checkLength s.maxInputLen s.inp with
    | .error e => .error e
    | .ok () => .ok p

/-- An encode command: phases B to H, with its phases F and G given by `proc` (R100). -/
def runEncode (i : Instr) (proc : Params → List Bit → Work → Work) (s : State) :
    Host.Outcome State Fault Refusal :=
  match checkOperands i s with
  | .error e => .next (abort e s)
  | .ok p =>
    match validateBits s.inp with
    | .error e => .next (abort e s)
    | .ok bits => .next (commit i p (proc p bits (resetWork p.sp)) s)

/-- A decode command: phases B to H, with its phases F and G given by `proc` (R100). -/
def runDecode (i : Instr) (proc : List Cell → Work → Except ErrorKind Work) (s : State) :
    Host.Outcome State Fault Refusal :=
  match checkOperands i s with
  | .error e => .next (abort e s)
  | .ok p =>
    match validateSamples i.scheme p.samples s.inp with
    | .error e => .next (abort e s)
    | .ok cells =>
      match proc cells (resetWork p.sp) with
      | .error e => .next (abort e s)
      | .ok w => .next (commit i p w s)

/-- The refusal that the host's conduct asks for: overlapping commands, changed operands and early reads have no meaning
(R284, R285, U11, U12; log 11). -/
def conductRefusal : Conduct → Option Refusal
  | .waits => none
  | .issuesAnother => some .overlappingCommands
  | .changesOperands => some .operandsChanged
  | .readsResultsEarly => some .resultsReadEarly

/-- The host's next command and those after it, if it has issued one (R63, R74). -/
def nextRequest (s : State) : Option (Request × List Request) :=
  match s.pending with
  | [] => none
  | r :: rs => some (r, rs)

/-- Taking a command: its operands are presented together and stay as they are (R74, R63). -/
def accept (o : Operands) (rest : List Request) (s : State) : State :=
  { s with cmd := o.cmd, cfg := o.cfg, inp := o.inp, pending := rest }

/-- The host issues one more command, after those it has issued (R63; log 2). -/
def issue (o : Operands) (s : State) : State := { s with pending := s.pending ++ [⟨o, .waits⟩] }

/-- The platform sets the length cap, before the first command (R283; log 4). -/
def setLengthCap (cap : Option Nat) (s : State) : State := { s with maxInputLen := cap }

/-- The command word's bits as the machine would be given them: more than 8 bits are cut off (R70). -/
def tableByte (nbits w : Nat) : Byte := BitVec.ofNat 8 (w % 2 ^ nbits)

/-- A request for a bare command word: the default configuration word (R27, R80) and an empty input (log 2). -/
def bareRequest (cmd : Byte) : Request := ⟨⟨cmd, Config.defaultCfg, []⟩, .waits⟩

/-- What the host observes: the response and LAST_STATUS, and nothing else (R40). -/
def observe (s : State) : Option Response × Byte := (s.response, hostReadStatus s)

/-- OUT as the host may read it: only after a successful command (R50, R61). -/
def hostReadOut (s : State) : Option (List Byte) :=
  match s.response with
  | none => none
  | some r => if r.status = .ok then some r.out else none

/-- The word of a sample or a bit: the only words a command writes to OUT (R53, R54). -/
def isOutByte (e : Byte) : Bool := e == 0xFF || e == 0x00 || e == 0x01

/-- Positions strictly rising (R56). -/
def risingPositions : List Annotation → Bool
  | [] => true
  | [_] => true
  | a :: b :: as => decide (a.position < b.position) && risingPositions (b :: as)

/-- The form of a pair of result buffers: OUT holds only words of R53 and R54, ANN is in increasing position order (R56). -/
def buffersWf (out : List Byte) (ann : List Annotation) : Bool := out.all isOutByte && risingPositions ann

/-- The form of the core's buffers: the working ones, and those of the response last returned. -/
def Memory.wf (s : State) : Bool :=
  buffersWf s.work.out s.work.ann &&
    match s.response with
    | none => true
    | some r => buffersWf r.out r.ann

end Sys2Proof.Machine
end

