-- ==== Sys2Proof/Machine/Ami.lean ====
section
/-! DEFINITION. AMI: its steps and its two commands (spec/41_simple_codecs.md R138 to R141). -/

namespace Sys2Proof.Machine

/-- EncStep[AMI]: a mark takes the polarity opposite to the last mark's (R138). -/
def encStepAmi : EncStep := fun b w =>
  if b then (⟨w.pol.negate.level, w.pol.negate.level⟩, { w with pol := w.pol.negate })
  else (⟨.zero, .zero⟩, w)

/-- DecStep[AMI]: the cell is (l, l); a mark equal to POL does not alternate (R139). -/
def decStepAmi : DecStep := fun c w =>
  if c.h0 = .zero then .ok (false, w)
  else if c.h0 = w.pol.negate.level then .ok (true, { w with pol := w.pol.negate })
  else .error .malformedSymbolSequence

/-- ENC.AMI (R140). -/
def execEncAmi (s : State) : Host.Outcome State Fault Refusal :=
  runEncode .encAmi (fun p => processEncode encStepAmi p.samples) s

/-- DEC.AMI (R141). -/
def execDecAmi (s : State) : Host.Outcome State Fault Refusal :=
  runDecode .decAmi (processDecode decStepAmi) s

end Sys2Proof.Machine
end

