-- ==== Sys2Proof/Machine/Cmi.lean ====
section
/-! DEFINITION. CMI in the source's variant: its steps and its two commands (spec/41_simple_codecs.md R143 to R146). -/

namespace Sys2Proof.Machine

/-- EncStep[CMI]: a 0 is the fixed pair (0, +1) and leaves POL; a 1 is an alternating full-width mark (R143). -/
def encStepCmi : EncStep := fun b w =>
  if b then (⟨w.pol.negate.level, w.pol.negate.level⟩, { w with pol := w.pol.negate })
  else (⟨.zero, .plus⟩, w)

/-- DecStep[CMI] (R144). -/
def decStepCmi : DecStep := fun c w =>
  if c = ⟨.zero, .plus⟩ then .ok (false, w)
  else if c.h0 = c.h1 ∧ c.h0 = w.pol.negate.level then .ok (true, { w with pol := w.pol.negate })
  else .error .malformedSymbolSequence

/-- ENC.CMI (R145). -/
def execEncCmi (s : State) : Host.Outcome State Fault Refusal :=
  runEncode .encCmi (fun p => processEncode encStepCmi p.samples) s

/-- DEC.CMI (R146). -/
def execDecCmi (s : State) : Host.Outcome State Fault Refusal :=
  runDecode .decCmi (processDecode decStepCmi) s

end Sys2Proof.Machine
end

