-- ==== Sys2Proof/Machine/Db3.lean ====
section
/-! DEFINITION. The DB3 substitution engine: the encoder with its run-length detector, parity accumulator, templates and
annotations (spec/42_db3.md R202 to R211), the decoder (R215 to R222), and the two commands (R214, R223). -/

namespace Sys2Proof.Machine

/-- The run-length detector: z' = ZRC + 1; the new ZRC, or `none` when z' = 4 fires a substitution (R202). -/
def runLength (z : Fin 4) : Option (Fin 4) :=
  if h : z.val + 1 < 4 then some ⟨z.val + 1, h⟩ else none

/-- even(PSS): the only read of the parity accumulator (R203). -/
def evenPss (w : Work) : Bool := w.pss % 2 == 0

/-- A data pulse: bit 1 (R204). -/
def db3DataPulse (w : Work) : Work :=
  { w with sym := w.sym ++ [w.pol.negate.level], pol := w.pol.negate, pss := w.pss + 1, zrc := 0 }

/-- Append records to ANN when EMIT_ANNOT = 1 (R207, R208, R210). -/
def annotate (p : Params) (as : List Annotation) (w : Work) : Work :=
  if p.annot then { w with ann := w.ann ++ as } else w

/-- EvenTemplate(j): `[0,0,0,V]` with V = POL, which POL keeps (R207, C1). -/
def evenTemplate (p : Params) (j : Nat) (w : Work) : Work :=
  annotate p [⟨(j + 3) * p.samples, .violation, w.pol⟩]
    { w with sym := w.sym ++ [.zero, .zero, .zero, w.pol.level] }

/-- OddTemplate(j): `[B,0,0,V]` with B = POL and V = −B; POL takes V (R208). -/
def oddTemplate (p : Params) (j : Nat) (w : Work) : Work :=
  annotate p [⟨j * p.samples, .balancing, w.pol⟩, ⟨(j + 3) * p.samples, .violation, w.pol.negate⟩]
    { w with sym := w.sym ++ [w.pol.level, .zero, .zero, w.pol.negate.level], pol := w.pol.negate }

/-- A substitution: the three zeros of the run are dropped, one template is written, and ZRC and PSS are cleared
(R206, R209). -/
def db3Substitute (p : Params) (w : Work) : Work :=
  let w1 := { w with sym := dropLast w.sym 3 }
  let w2 := if evenPss w then evenTemplate p w1.sym.length w1 else oddTemplate p w1.sym.length w1
  { w2 with zrc := 0, pss := 0 }

/-- DB3EncStep (R204, R205, R206). -/
def db3EncStep (p : Params) (b : Bit) (w : Work) : Work :=
  if b then db3DataPulse w
  else
    match runLength w.zrc with
    | some z => { w with sym := w.sym ++ [.zero], zrc := z }
    | none => db3Substitute p w

/-- Phase F of ENC.DB3: one step per bit (R110). -/
def db3EncLoop (p : Params) : List Bit → Work → Work
  | [], w => w
  | b :: bs, w => db3EncLoop p bs (advance (db3EncStep p b w))

/-- Phase G of ENC.DB3: every symbol of SYM is written to OUT, S samples each (R111, R211). -/
def db3Flush (S : Nat) (w : Work) : Work := appendSamples (w.sym.flatMap fun l => List.replicate S l) w

/-- DB3DecStep in NORMAL (R216, R217, R218). -/
def db3DecNormal (s : Level) (w : Work) : Except ErrorKind (Bit × Work) :=
  if s = .zero then
    match runLength w.zrc with
    | some z => .ok (false, { w with zrc := z })
    | none => .error .invalidSubstitutionPattern
  else if s = w.pol.negate.level then
    .ok (true, { w with zrc := 0, pol := w.pol.negate, pss := w.pss + 1 })
  else if w.zrc = 3 ∧ evenPss w = true then
    .ok (false, { w with zrc := 0, pss := 0 })
  else if w.zrc = 0 ∧ evenPss w = false then
    .ok (false, { w with dmode := .afterB1 })
  else .error .invalidSubstitutionPattern

/-- DB3DecStep: the symbol is the cell's level (R110, R216 to R220). -/
def db3DecStep : DecStep := fun c w =>
  match w.dmode with
  | .normal => db3DecNormal c.h0 w
  | .afterB1 =>
    if c.h0 = .zero then .ok (false, { w with dmode := .afterB2 }) else .error .invalidSubstitutionPattern
  | .afterB2 =>
    if c.h0 = .zero then .ok (false, { w with dmode := .afterB3 }) else .error .invalidSubstitutionPattern
  | .afterB3 =>
    if c.h0 = w.pol.negate.level then
      .ok (false, { w with pol := w.pol.negate, pss := 0, zrc := 0, dmode := .normal })
    else .error .invalidSubstitutionPattern

/-- DB3DecEnd: the input must not end inside `[B,0,0,V]` (R222). -/
def db3DecEnd (w : Work) : Except ErrorKind Work :=
  if w.dmode = .normal then .ok w else .error .invalidSubstitutionPattern

/-- Phases F and G of DEC.DB3 (R110, R111). -/
def db3Decode (cells : List Cell) (w : Work) : Except ErrorKind Work :=
  match processDecode db3DecStep cells w with
  | .error e => .error e
  | .ok w1 => db3DecEnd w1

/-- ENC.DB3 (R214). -/
def execEncDb3 (s : State) : Host.Outcome State Fault Refusal :=
  runEncode .encDb3 (fun p bits w => db3Flush p.samples (db3EncLoop p bits w)) s

/-- DEC.DB3 (R223). -/
def execDecDb3 (s : State) : Host.Outcome State Fault Refusal :=
  runDecode .decDb3 db3Decode s

end Sys2Proof.Machine
end

