-- ==== Sys2Proof/Machine/DiffManchester.lean ====
section
/-! DEFINITION. DIFF_MANCHESTER: its steps and its two commands (spec/41_simple_codecs.md R151 to R154). -/

namespace Sys2Proof.Machine

/-- The level after the bit boundary: a transition exactly when the bit is 0 (R151). -/
def boundaryLevel (b : Bit) (dmq : Sign) : Sign := if b then dmq else dmq.negate

/-- EncStep[DIFF_MANCHESTER]: a boundary transition iff the bit is 0, a mid-bit transition always (R151). -/
def encStepDiffManchester : EncStep := fun b w =>
  (⟨(boundaryLevel b w.dmq).level, (boundaryLevel b w.dmq).negate.level⟩,
    { w with dmq := (boundaryLevel b w.dmq).negate })

/-- DecStep[DIFF_MANCHESTER]. The alphabet {−1, +1} keeps zero levels out (R103, R106); for a cell that holds one the
function answers the same error (R152; log 12). -/
def decStepDiffManchester : DecStep := fun c w =>
  match c.h0.sign?, c.h1.sign? with
  | some a, some d =>
    if d ≠ a.negate then .error .malformedSymbolSequence
    else .ok (if a ≠ w.dmq then false else true, { w with dmq := d })
  | _, _ => .error .malformedSymbolSequence

/-- ENC.DIFF_MANCHESTER (R153). -/
def execEncDiffManchester (s : State) : Host.Outcome State Fault Refusal :=
  runEncode .encDiffManchester (fun p => processEncode encStepDiffManchester p.samples) s

/-- DEC.DIFF_MANCHESTER (R154). -/
def execDecDiffManchester (s : State) : Host.Outcome State Fault Refusal :=
  runDecode .decDiffManchester (processDecode decStepDiffManchester) s

end Sys2Proof.Machine
end

