-- ==== Sys2Proof/Machine/Manchester.lean ====
section
/-! DEFINITION. MANCHESTER: its steps and its two commands (spec/41_simple_codecs.md R147 to R150). -/

namespace Sys2Proof.Machine

/-- EncStep[MANCHESTER] (R147). -/
def encStepManchester : EncStep := fun b w =>
  if b then (⟨.zero, .plus⟩, w) else (⟨.plus, .zero⟩, w)

/-- DecStep[MANCHESTER]: (0,0) and (1,1) have no mid-bit transition (R148). -/
def decStepManchester : DecStep := fun c w =>
  if c = ⟨.plus, .zero⟩ then .ok (false, w)
  else if c = ⟨.zero, .plus⟩ then .ok (true, w)
  else .error .malformedSymbolSequence

/-- ENC.MANCHESTER (R149). -/
def execEncManchester (s : State) : Host.Outcome State Fault Refusal :=
  runEncode .encManchester (fun p => processEncode encStepManchester p.samples) s

/-- DEC.MANCHESTER (R150). -/
def execDecManchester (s : State) : Host.Outcome State Fault Refusal :=
  runDecode .decManchester (processDecode decStepManchester) s

end Sys2Proof.Machine
end

