-- ==== Sys2Proof/Machine/Mlt3.lean ====
section
/-! DEFINITION. MLT-3: its steps and its two commands (spec/41_simple_codecs.md R156 to R159). -/

namespace Sys2Proof.Machine

/-- One step along the cycle 0 → MLT → 0 → −MLT → 0 (R156, R157). -/
def advanceCycle (w : Work) : Work :=
  if w.mlv = .zero then { w with mlv := w.mlt.level, mlt := w.mlt.negate }
  else { w with mlv := .zero }

/-- EncStep[MLT3]: a 0 holds the level, a 1 moves one step along the cycle (R156). -/
def encStepMlt3 : EncStep := fun b w =>
  if b then (⟨(advanceCycle w).mlv, (advanceCycle w).mlv⟩, advanceCycle w)
  else (⟨w.mlv, w.mlv⟩, w)

/-- DecStep[MLT3]: the cell is (l, l); a jump that the cycle does not make is refused (R157). -/
def decStepMlt3 : DecStep := fun c w =>
  if c.h0 = w.mlv then .ok (false, w)
  else if c.h0 = (if w.mlv = .zero then w.mlt.level else .zero) then .ok (true, advanceCycle w)
  else .error .malformedSymbolSequence

/-- ENC.MLT3 (R158). -/
def execEncMlt3 (s : State) : Host.Outcome State Fault Refusal :=
  runEncode .encMlt3 (fun p => processEncode encStepMlt3 p.samples) s

/-- DEC.MLT3 (R159). -/
def execDecMlt3 (s : State) : Host.Outcome State Fault Refusal :=
  runDecode .decMlt3 (processDecode decStepMlt3) s

end Sys2Proof.Machine
end

