-- ==== Sys2Proof/Machine/Nrz.lean ====
section
/-! DEFINITION. NRZ: its steps and its two commands (spec/41_simple_codecs.md R130 to R133). -/

namespace Sys2Proof.Machine

/-- EncStep[NRZ] (R130). -/
def encStepNrz : EncStep := fun b w =>
  if b then (⟨.plus, .plus⟩, w) else (⟨.zero, .zero⟩, w)

/-- DecStep[NRZ] (R131). -/
def decStepNrz : DecStep := fun c w =>
  if c = ⟨.zero, .zero⟩ then .ok (false, w)
  else if c = ⟨.plus, .plus⟩ then .ok (true, w)
  else .error .malformedSymbolSequence

/-- ENC.NRZ (R132). -/
def execEncNrz (s : State) : Host.Outcome State Fault Refusal :=
  runEncode .encNrz (fun p => processEncode encStepNrz p.samples) s

/-- DEC.NRZ (R133). -/
def execDecNrz (s : State) : Host.Outcome State Fault Refusal :=
  runDecode .decNrz (processDecode decStepNrz) s

end Sys2Proof.Machine
end

