-- ==== Sys2Proof/Machine/Rz.lean ====
section
/-! DEFINITION. RZ: its steps and its two commands (spec/41_simple_codecs.md R134 to R137). -/

namespace Sys2Proof.Machine

/-- EncStep[RZ] (R134). -/
def encStepRz : EncStep := fun b w =>
  if b then (⟨.plus, .zero⟩, w) else (⟨.zero, .zero⟩, w)

/-- DecStep[RZ]: (0,1) and (1,1) are no RZ cells (R135). -/
def decStepRz : DecStep := fun c w =>
  if c = ⟨.zero, .zero⟩ then .ok (false, w)
  else if c = ⟨.plus, .zero⟩ then .ok (true, w)
  else .error .malformedSymbolSequence

/-- ENC.RZ (R136). -/
def execEncRz (s : State) : Host.Outcome State Fault Refusal :=
  runEncode .encRz (fun p => processEncode encStepRz p.samples) s

/-- DEC.RZ (R137). -/
def execDecRz (s : State) : Host.Outcome State Fault Refusal :=
  runDecode .decRz (processDecode decStepRz) s

end Sys2Proof.Machine
end

