-- ==== Sys2Proof/Machine/Dispatch.lean ====
section
/-! DEFINITION. The dispatch of a decoded command to its meaning: one arm per constructor of Instr (spec/40_common.md R100,
the tagged-variant dispatch of R101). -/

namespace Sys2Proof.Machine

def exec (i : Instr) (s : State) : Host.Outcome State Fault Refusal :=
  match i with
  | .encNrz => Sys2Proof.Machine.execEncNrz s
  | .encRz => Sys2Proof.Machine.execEncRz s
  | .encAmi => Sys2Proof.Machine.execEncAmi s
  | .encCmi => Sys2Proof.Machine.execEncCmi s
  | .encManchester => Sys2Proof.Machine.execEncManchester s
  | .encDiffManchester => Sys2Proof.Machine.execEncDiffManchester s
  | .encMlt3 => Sys2Proof.Machine.execEncMlt3 s
  | .encDb3 => Sys2Proof.Machine.execEncDb3 s
  | .decNrz => Sys2Proof.Machine.execDecNrz s
  | .decRz => Sys2Proof.Machine.execDecRz s
  | .decAmi => Sys2Proof.Machine.execDecAmi s
  | .decCmi => Sys2Proof.Machine.execDecCmi s
  | .decManchester => Sys2Proof.Machine.execDecManchester s
  | .decDiffManchester => Sys2Proof.Machine.execDecDiffManchester s
  | .decMlt3 => Sys2Proof.Machine.execDecMlt3 s
  | .decDb3 => Sys2Proof.Machine.execDecDb3 s

end Sys2Proof.Machine
end

