-- ==== Sys2Proof/Machine/Step.lean ====
section
/-! DEFINITION. One step of an LCC instance: it takes the host's next command, if there is one, and runs the whole of it
(spec/00_scope.md R5, spec/20_memory.md R63, spec/40_common.md R100). -/

namespace Sys2Proof.Machine

/-- One step. With no command issued the core is idle and stays as it is (R282, R289; log 3). A command during which the host
breaks R284 or R285 is refused. Otherwise the operands are taken (R74), phase A decodes the command word (R101), and the
command runs, or ends with UnsupportedScheme (R252). -/
def step (s : State) : Host.Outcome State Fault Refusal :=
  match nextRequest s with
  | none => .next s
  | some (r, rest) =>
    match conductRefusal r.conduct with
    | some why => .refused why
    | none =>
      match decode r.operands.cmd with
      | .error e => .next (abort (decodeErrorKind e) (accept r.operands rest s))
      | .ok i => exec i (accept r.operands rest s)

/-- `s` with the command word of the table's bits issued as the very next command, with the default configuration word and an
empty input (log 2). -/
def State.withFetchWord (s : State) (nbits w : Nat) : State :=
  { s with pending := bareRequest (tableByte nbits w) :: s.pending }

end Sys2Proof.Machine
end

