-- ==== Sys2Proof/Machine/Assembly.lean ====
section
/-! DEFINITION. The textual form of a command and of its response, and the one pseudo-form: a command without `cfg=`, or with
named options, takes the default configuration word with those fields replaced (spec/30_encoding.md R79, R80). The text has no
effect on the machine (D29). -/

namespace Sys2Proof.Machine

/-- The mnemonic of a command (R76, R79). -/
def mnemonic : Instr → String
  | .encNrz => "ENC.NRZ"
  | .encRz => "ENC.RZ"
  | .encAmi => "ENC.AMI"
  | .encCmi => "ENC.CMI"
  | .encManchester => "ENC.MANCHESTER"
  | .encDiffManchester => "ENC.DIFF_MANCHESTER"
  | .encMlt3 => "ENC.MLT3"
  | .encDb3 => "ENC.DB3"
  | .decNrz => "DEC.NRZ"
  | .decRz => "DEC.RZ"
  | .decAmi => "DEC.AMI"
  | .decCmi => "DEC.CMI"
  | .decManchester => "DEC.MANCHESTER"
  | .decDiffManchester => "DEC.DIFF_MANCHESTER"
  | .decMlt3 => "DEC.MLT3"
  | .decDb3 => "DEC.DB3"

/-- The configuration of a textual command: `cfg=` with a word, or the pseudo-form with named options, any of which may be
left out (R80). -/
inductive AsmCfg where
  | word (cfg : Word32)
  | options (spb : Option (BitVec 8)) (pol : Option Sign) (annot : Option Bool)
  deriving DecidableEq, Repr, Inhabited

/-- A textual command: mnemonic, configuration and the integers of `in=` (R79). -/
structure AsmCommand where
  instr : Instr
  cfg : AsmCfg
  inp : List Int
  deriving DecidableEq, Repr, Inhabited

/-- The default word's fields with the named options in their place (R27, R80). -/
def optionWord (spb : Option (BitVec 8)) (pol : Option Sign) (annot : Option Bool) : Word32 :=
  let f0 : BitVec 8 := spb.getD (Config.defaultCfg.extractLsb' 0 8)
  let f8 : Bool := match pol with
    | none => Config.defaultCfg.getLsbD 8
    | some .minus => false
    | some .plus => true
  let f9 : Bool := annot.getD (Config.defaultCfg.getLsbD 9)
  ((Config.defaultCfg.extractLsb' 10 22 ++ BitVec.ofBool f9) ++ BitVec.ofBool f8) ++ f0

/-- The configuration word of a textual command (R79, R80). -/
def asmCfgWord : AsmCfg → Word32
  | .word cfg => cfg
  | .options spb pol annot => optionWord spb pol annot

/-- The 8-bit element that an integer stands for: an encode element is an unsigned word (R51), a decode element a
two's-complement one (R52); an integer outside that range has no element (log 18). -/
def asmElement (d : Direction) (n : Int) : Option Byte :=
  match d with
  | .encode => if 0 ≤ n ∧ n ≤ 255 then some (BitVec.ofInt 8 n) else none
  | .decode => if -128 ≤ n ∧ n ≤ 127 then some (BitVec.ofInt 8 n) else none

/-- All the elements of `in=`, or `none` when one integer has no element. -/
def asmElements (d : Direction) : List Int → Option (List Byte)
  | [] => some []
  | n :: ns =>
    match asmElement d n, asmElements d ns with
    | some e, some es => some (e :: es)
    | _, _ => none

/-- The operands that a textual command stands for (R74, R79, R80). -/
def assemble (a : AsmCommand) : Option Operands :=
  match asmElements a.instr.dir a.inp with
  | some inp => some ⟨encode a.instr, asmCfgWord a.cfg, inp⟩
  | none => none

/-- Items between square brackets, a comma and a space apart. -/
def bracketed (items : List String) : String := "[" ++ String.intercalate ", " items ++ "]"

/-- One hexadecimal digit, capital as in 0x%08X (R79). -/
def hexDigit (n : Nat) : Char := Char.ofNat (if n < 10 then 48 + n else 55 + n)

/-- A word as 0x%08X (R79). -/
def hexWord (w : Word32) : String :=
  "0x" ++ String.ofList ([28, 24, 20, 16, 12, 8, 4, 0].map fun k => hexDigit (w.extractLsb' k 4).toNat)

/-- An integer in decimal. -/
def decimal (n : Int) : String := if n < 0 then "-" ++ Nat.repr n.natAbs else Nat.repr n.natAbs

/-- The text of a command with its configuration word written out (R79). -/
def commandText (a : AsmCommand) : String :=
  mnemonic a.instr ++ " cfg=" ++ hexWord (asmCfgWord a.cfg) ++ ", in=" ++ bracketed (a.inp.map decimal)

/-- The name of a result code (R79, R250). -/
def statusName : Status → String
  | .ok => "OK"
  | .invalidBit => "InvalidBit"
  | .unsupportedScheme => "UnsupportedScheme"
  | .malformedSymbolSequence => "MalformedSymbolSequence"
  | .invalidSubstitutionPattern => "InvalidSubstitutionPattern"
  | .invalidConfig => "InvalidConfig"
  | .inputTooLong => "InputTooLong"

/-- The text of an annotation record: position, kind and polarity between braces (95_test_vectors.md). -/
def annotationText (a : Annotation) : String :=
  String.singleton (Char.ofNat 123) ++ Nat.repr a.position ++ ", "
    ++ (match a.kind with
        | .violation => "Violation"
        | .balancing => "Balancing")
    ++ ", "
    ++ (match a.polarity with
        | .minus => "-1"
        | .plus => "+1")
    ++ String.singleton (Char.ofNat 125)

/-- The text of a response (R79). Every OUT word reads as its two's-complement integer (R53, R54). -/
def responseText (r : Response) : String :=
  "-> status=" ++ statusName r.status ++ ", out=" ++ bracketed (r.out.map fun e => decimal (sext8 e))
    ++ ", ann=" ++ bracketed (r.ann.map annotationText)

end Sys2Proof.Machine
end

