-- ==== Sys2Proof/Machine/Db3Stream.lean ====
section
/-! DEFINITION. The pending-buffer realisation of the DB3 encoder (spec/42_db3.md R212, spec/70_reset_and_hazards.md R286): the
zeros of an unfinished run are held back, and committed or replaced once the fourth zero, a data pulse or the end of the
input is seen. No command uses it; the statements compare it with the engine of Machine/Db3.lean. -/

namespace Sys2Proof.Machine

/-- The streaming encoder's state: the symbols released so far and the zeros held back. -/
structure Db3Stream where
  released : List Level
  held : Nat
  pol : Sign
  pss : Nat
  ann : List Annotation
  deriving DecidableEq, Repr, Inhabited

/-- At command start nothing is released or held (R39). -/
def streamStart (sp : Sign) : Db3Stream := ⟨[], 0, sp, 0, []⟩

/-- One bit: a 1 commits the held zeros and a pulse, a fourth zero replaces them by a template (R212). -/
def streamStep (p : Params) (b : Bit) (d : Db3Stream) : Db3Stream :=
  if b then
    { d with released := d.released ++ List.replicate d.held .zero ++ [d.pol.negate.level], held := 0,
             pol := d.pol.negate, pss := d.pss + 1 }
  else if d.held < 3 then { d with held := d.held + 1 }
  else
    let j := d.released.length
    if d.pss % 2 = 0 then
      { d with released := d.released ++ [.zero, .zero, .zero, d.pol.level], held := 0, pss := 0,
               ann := if p.annot then d.ann ++ [⟨(j + 3) * p.samples, .violation, d.pol⟩] else d.ann }
    else
      { d with released := d.released ++ [d.pol.level, .zero, .zero, d.pol.negate.level], held := 0, pss := 0,
               pol := d.pol.negate,
               ann := if p.annot then
                   d.ann ++ [⟨j * p.samples, .balancing, d.pol⟩, ⟨(j + 3) * p.samples, .violation, d.pol.negate⟩]
                 else d.ann }

/-- All bits in order. -/
def streamRun (p : Params) : List Bit → Db3Stream → Db3Stream
  | [], d => d
  | b :: bs, d => streamRun p bs (streamStep p b d)

/-- At the end of the input the held zeros are committed (R211, R212). -/
def streamSymbols (d : Db3Stream) : List Level := d.released ++ List.replicate d.held .zero

end Sys2Proof.Machine
end

