-- ==== Sys2Proof/Machine/Platform.lean ====
section
/-! DEFINITION. A platform with any number of LCC instances (spec/20_memory.md R66, spec/60_exceptions.md R263): a list of states,
each an independent copy of the whole machine. -/

namespace Sys2Proof.Machine

/-- One instance takes a step; where there is no such instance nothing happens (log 15). -/
def platformStep (k : Nat) (ps : List State) : Host.Outcome (List State) Fault Refusal :=
  match ps[k]? with
  | none => .next ps
  | some s =>
    match step s with
    | .next t => .next (ps.set k t)
    | .fault r => .fault r
    | .refused r => .refused r

end Sys2Proof.Machine
end

