-- ==== Sys2Proof/Safety.lean ====
section
/-! DEFINITION. The words that the statements are written in: a disciplined host (spec/70_reset_and_hazards.md R284, R285), the
machine's invariant, what a successful command leaves, and closed forms of the line codes, written from the rules' prose
and not from the step functions of Machine/. -/

namespace Sys2Proof.Machine

/-- A host that keeps R284 and R285 during every command it issues. -/
def HostDisciplined (s : State) : Prop := ∀ r ∈ s.pending, r.conduct = .waits

/-- LAST_STATUS and the response tell the same result, and a failed command carries no data (R28, R61, R259). -/
def allOrNothing (s : State) : Bool :=
  match s.response with
  | none => s.lastStatus == .ok
  | some r => r.status == s.lastStatus && (r.status == .ok || (r.out.isEmpty && r.ann.isEmpty))

/-- The machine's invariant: the buffers keep their form, and the last result is all or nothing. -/
def MachineInv (s : State) : Prop := Memory.wf s = true ∧ allOrNothing s = true

/-- `n` elements pass the length cap (R104). -/
def WithinCap (s : State) (n : Nat) : Prop := ∀ cap, s.maxInputLen = some cap → n ≤ cap

/-- The outcome is a next state in which the host has been given the response `r`. -/
def Responds (o : Host.Outcome State Fault Refusal) (r : Response) : Prop :=
  ∃ t, o = .next t ∧ t.response = some r ∧ t.lastStatus = r.status

/-- The state after a successful command: LAST_STATUS is OK, the working state is `w`, the response carries OUT and the
given annotations, and nothing else has changed (R112; for the working registers log 7). -/
def succeeded (s : State) (w : Work) (ann : List Annotation) : State :=
  { s with lastStatus := .ok, work := w, response := some ⟨.ok, w.out, ann⟩ }

/-- The working state of a command that uses no register but I and OUT, at its end: every other register is as phase E left
it (R39, R43). -/
def plainWork (sp : Sign) (n : Nat) (out : List Byte) : Work :=
  { pol := sp, dmq := sp, mlv := .zero, mlt := sp.negate, zrc := 0, pss := 0, dmode := .normal, idx := n, sym := [],
    out := out, ann := [] }

/-- Bits as elements (R51, R54). -/
def bitElements (bs : List Bit) : List Byte := bs.map fun b => if b then 0x01 else 0x00

/-- A Level's two's-complement byte (R53). -/
def sampleByte (l : Level) : Byte := BitVec.ofInt 8 l.val

/-- The encode command of a scheme. -/
abbrev encOf (sch : Scheme) : Instr := instrOf .encode sch

/-- The decode command of a scheme. -/
abbrev decOf (sch : Scheme) : Instr := instrOf .decode sch

/-- How many of the first `k` bits are 1. -/
def onesBefore (bs : List Bit) (k : Nat) : Nat := (bs.take k).count true

/-- A polarity after `n` inversions. -/
def flipped (sp : Sign) (n : Nat) : Sign := if n % 2 = 0 then sp else sp.negate

/-- L bits whose levels are held for the whole bit period of S samples. -/
def heldSamples (S L : Nat) (f : Nat → Level) : List Byte :=
  (List.range L).flatMap fun k => List.replicate S (sampleByte (f k))

/-- L bits whose two half periods of S/2 samples have levels of their own. -/
def halfSamples (S L : Nat) (f : Nat → Level × Level) : List Byte :=
  (List.range L).flatMap fun k =>
    List.replicate (S / 2) (sampleByte (f k).1) ++ List.replicate (S / 2) (sampleByte (f k).2)

/-- Whether bit k is 1. -/
def isOne (bs : List Bit) (k : Nat) : Bool := bs[k]? == some true

/-- NRZ: +1 for a 1, 0 for a 0. -/
def nrzLevel (bs : List Bit) (k : Nat) : Level := if isOne bs k then .plus else .zero

/-- RZ: a 1 is a pulse in the first half. -/
def rzHalves (bs : List Bit) (k : Nat) : Level × Level := if isOne bs k then (.plus, .zero) else (.zero, .zero)

/-- Manchester: a 0 falls and a 1 rises at mid-bit. -/
def manchesterHalves (bs : List Bit) (k : Nat) : Level × Level := if isOne bs k then (.zero, .plus) else (.plus, .zero)

/-- AMI: the n-th mark, counted from 1, has polarity sp inverted n times. -/
def amiLevel (sp : Sign) (bs : List Bit) (k : Nat) : Level :=
  if isOne bs k then (flipped sp (onesBefore bs k + 1)).level else .zero

/-- CMI: a 0 is 0 then +1, a 1 is a mark as in AMI. -/
def cmiHalves (sp : Sign) (bs : List Bit) (k : Nat) : Level × Level :=
  if isOne bs k then ((flipped sp (onesBefore bs k + 1)).level, (flipped sp (onesBefore bs k + 1)).level)
  else (.zero, .plus)

/-- Differential Manchester: before bit k the level is sp inverted once for each earlier 1; a 1 starts there, a 0 starts at the
other level, and both change at mid-bit. -/
def diffHalves (sp : Sign) (bs : List Bit) (k : Nat) : Level × Level :=
  let q := flipped sp (onesBefore bs k)
  if isOne bs k then (q.level, q.negate.level) else (q.negate.level, q.level)

/-- The MLT-3 cycle 0, −sp, 0, sp after n steps (R160). -/
def mlt3Cycle (sp : Sign) (n : Nat) : Level :=
  match n % 4 with
  | 1 => sp.negate.level
  | 3 => sp.level
  | _ => .zero

/-- MLT-3: the level of bit k is the cycle after as many steps as there are 1s up to and with bit k. -/
def mlt3Level (sp : Sign) (bs : List Bit) (k : Nat) : Level := mlt3Cycle sp (onesBefore bs (k + 1))

/-- The sign that MLT-3 goes to next, after n steps: −sp at the start, inverted at every step away from 0. -/
def mlt3Target (sp : Sign) (n : Nat) : Sign := flipped sp.negate ((n + 1) / 2)

/-- DB3 by looking ahead: four zeros in a row become one template, chosen by the parity of the pulses since the last template;
a 1 alternates; any other zero stays (R204 to R209, without the rewriting of symbols already written). -/
def db3Symbols (pol : Sign) (odd : Bool) : List Bit → List Level
  | [] => []
  | true :: bs => pol.negate.level :: db3Symbols pol.negate (!odd) bs
  | false :: false :: false :: false :: bs =>
    if odd then pol.level :: .zero :: .zero :: pol.negate.level :: db3Symbols pol.negate false bs
    else .zero :: .zero :: .zero :: pol.level :: db3Symbols pol false bs
  | false :: bs => .zero :: db3Symbols pol odd bs

/-- The annotations of the same, for symbols from index k on: position is symbol index times S, B before V (R210). -/
def db3Notes (S k : Nat) (pol : Sign) (odd : Bool) : List Bit → List Annotation
  | [] => []
  | true :: bs => db3Notes S (k + 1) pol.negate (!odd) bs
  | false :: false :: false :: false :: bs =>
    if odd then
      ⟨k * S, .balancing, pol⟩ :: ⟨(k + 3) * S, .violation, pol.negate⟩ :: db3Notes S (k + 4) pol.negate false bs
    else ⟨(k + 3) * S, .violation, pol⟩ :: db3Notes S (k + 4) pol false bs
  | false :: bs => db3Notes S (k + 1) pol odd bs

/-- Symbols held for S samples each, as bytes. -/
def symbolSamples (S : Nat) (ls : List Level) : List Byte := ls.flatMap fun l => List.replicate S (sampleByte l)

/-- The polarity of the last mark in `ls`, or sp when there is none: what POL holds (R30). -/
def lastMark (sp : Sign) (ls : List Level) : Sign := ls.foldl (fun p l => l.sign?.getD p) sp

/-- The first m symbols of a full-width output, one per bit: the levels at every S-th sample. -/
def symbolsOf (S : Nat) (out : List Byte) (m : Nat) : List Level :=
  (List.range m).map fun k => (levelOf (sext8 (out.getD (k * S) 0))).getD .zero

/-- ENC.DB3 on the bits gives the samples `out`, and the same command with EMIT_ANNOT = 1 gives the records `ann`. -/
def Db3Writes (s : State) (bs : List Bit) (out : List Byte) (ann : List Annotation) : Prop :=
  s.inp = bitElements bs ∧ (∃ a, Responds (exec .encDb3 s) ⟨.ok, out, a⟩) ∧
    ∃ o, Responds (exec .encDb3 { s with cfg := s.cfg ||| 0x200 }) ⟨.ok, o, ann⟩

/-- The sum of the levels of an output. -/
def levelSum (out : List Byte) : Int := (out.map sext8).sum

/-- How many 0 bits end the sequence. -/
def trailingZeros (bs : List Bit) : Nat := (bs.reverse.takeWhile fun b => !b).length

/-- Every bit-cell is constant over the whole cell, or, for a two-cell scheme, over each half (R108). -/
def constantCells {α : Type} (sch : Scheme) (S : Nat) (v : List α) : Prop :=
  ∀ q, q < v.length / S → ∀ j, j < S →
    if sch.wfTwoCell = true then
      (j < S / 2 → v[q * S + j]? = v[q * S]?) ∧ (S / 2 ≤ j → v[q * S + j]? = v[q * S + S / 2]?)
    else v[q * S + j]? = v[q * S]?

/-- The elements of a scheme's decode alphabet, as bytes (R103). -/
def inAlphabet (sch : Scheme) (e : Byte) : Prop :=
  match sch with
  | .nrz => e = 0x00 ∨ e = 0x01
  | .rz => e = 0x00 ∨ e = 0x01
  | .manchester => e = 0x00 ∨ e = 0x01
  | .diffManchester => e = 0xFF ∨ e = 0x01
  | .ami => e = 0xFF ∨ e = 0x00 ∨ e = 0x01
  | .cmi => e = 0xFF ∨ e = 0x00 ∨ e = 0x01
  | .mlt3 => e = 0xFF ∨ e = 0x00 ∨ e = 0x01
  | .db3 => e = 0xFF ∨ e = 0x00 ∨ e = 0x01

/-- The input passes phase D of a decode command: causes 1 to 3 of R253 are absent. -/
def PassesPhaseD (sch : Scheme) (S : Nat) (inp : List Byte) : Prop :=
  inp.length % S = 0 ∧ (∀ e ∈ inp, inAlphabet sch e) ∧ constantCells sch S inp

end Sys2Proof.Machine
end

