-- ==== Sys2Proof/Laws/State.lean ====
section
/-! SUPPORT. The small lemmas of the state: for each update, what each field holds after it. Every one is true by definition;
with them no later proof unfolds a record update. -/

namespace Sys2Proof.Machine

/-! abort (R259). -/

@[simp] theorem abort_cmd (e : ErrorKind) (s : State) : (abort e s).cmd = s.cmd := rfl
@[simp] theorem abort_cfg (e : ErrorKind) (s : State) : (abort e s).cfg = s.cfg := rfl
@[simp] theorem abort_inp (e : ErrorKind) (s : State) : (abort e s).inp = s.inp := rfl
@[simp] theorem abort_lastStatus (e : ErrorKind) (s : State) : (abort e s).lastStatus = e.status := rfl
@[simp] theorem abort_work (e : ErrorKind) (s : State) : (abort e s).work = discardedWork s.discards := rfl
@[simp] theorem abort_response (e : ErrorKind) (s : State) : (abort e s).response = some ⟨e.status, [], []⟩ := rfl
@[simp] theorem abort_pending (e : ErrorKind) (s : State) : (abort e s).pending = s.pending := rfl
@[simp] theorem abort_maxInputLen (e : ErrorKind) (s : State) : (abort e s).maxInputLen = s.maxInputLen := rfl
@[simp] theorem abort_discards (e : ErrorKind) (s : State) : (abort e s).discards = s.discards + 1 := rfl

/-! commit (R112). -/

@[simp] theorem commit_cmd (i : Instr) (p : Params) (w : Work) (s : State) : (commit i p w s).cmd = s.cmd := rfl
@[simp] theorem commit_cfg (i : Instr) (p : Params) (w : Work) (s : State) : (commit i p w s).cfg = s.cfg := rfl
@[simp] theorem commit_inp (i : Instr) (p : Params) (w : Work) (s : State) : (commit i p w s).inp = s.inp := rfl
@[simp] theorem commit_lastStatus (i : Instr) (p : Params) (w : Work) (s : State) : (commit i p w s).lastStatus = .ok := rfl
@[simp] theorem commit_work (i : Instr) (p : Params) (w : Work) (s : State) : (commit i p w s).work = w := rfl
@[simp] theorem commit_response (i : Instr) (p : Params) (w : Work) (s : State) : (commit i p w s).response = some ⟨.ok, w.out, returnedAnn i p w⟩ := rfl
@[simp] theorem commit_pending (i : Instr) (p : Params) (w : Work) (s : State) : (commit i p w s).pending = s.pending := rfl
@[simp] theorem commit_maxInputLen (i : Instr) (p : Params) (w : Work) (s : State) : (commit i p w s).maxInputLen = s.maxInputLen := rfl
@[simp] theorem commit_discards (i : Instr) (p : Params) (w : Work) (s : State) : (commit i p w s).discards = s.discards := rfl

/-! accept (R74). -/

@[simp] theorem accept_cmd (o : Operands) (rest : List Request) (s : State) : (accept o rest s).cmd = o.cmd := rfl
@[simp] theorem accept_cfg (o : Operands) (rest : List Request) (s : State) : (accept o rest s).cfg = o.cfg := rfl
@[simp] theorem accept_inp (o : Operands) (rest : List Request) (s : State) : (accept o rest s).inp = o.inp := rfl
@[simp] theorem accept_lastStatus (o : Operands) (rest : List Request) (s : State) : (accept o rest s).lastStatus = s.lastStatus := rfl
@[simp] theorem accept_work (o : Operands) (rest : List Request) (s : State) : (accept o rest s).work = s.work := rfl
@[simp] theorem accept_response (o : Operands) (rest : List Request) (s : State) : (accept o rest s).response = s.response := rfl
@[simp] theorem accept_pending (o : Operands) (rest : List Request) (s : State) : (accept o rest s).pending = rest := rfl
@[simp] theorem accept_maxInputLen (o : Operands) (rest : List Request) (s : State) : (accept o rest s).maxInputLen = s.maxInputLen := rfl
@[simp] theorem accept_discards (o : Operands) (rest : List Request) (s : State) : (accept o rest s).discards = s.discards := rfl

/-! issue (R63). -/

@[simp] theorem issue_cmd (o : Operands) (s : State) : (issue o s).cmd = s.cmd := rfl
@[simp] theorem issue_cfg (o : Operands) (s : State) : (issue o s).cfg = s.cfg := rfl
@[simp] theorem issue_inp (o : Operands) (s : State) : (issue o s).inp = s.inp := rfl
@[simp] theorem issue_lastStatus (o : Operands) (s : State) : (issue o s).lastStatus = s.lastStatus := rfl
@[simp] theorem issue_work (o : Operands) (s : State) : (issue o s).work = s.work := rfl
@[simp] theorem issue_response (o : Operands) (s : State) : (issue o s).response = s.response := rfl
@[simp] theorem issue_pending (o : Operands) (s : State) : (issue o s).pending = s.pending ++ [⟨o, .waits⟩] := rfl
@[simp] theorem issue_maxInputLen (o : Operands) (s : State) : (issue o s).maxInputLen = s.maxInputLen := rfl
@[simp] theorem issue_discards (o : Operands) (s : State) : (issue o s).discards = s.discards := rfl

/-! The very next command. -/

@[simp] theorem withFetchWord_cmd (s : State) (nbits w : Nat) : (s.withFetchWord nbits w).cmd = s.cmd := rfl
@[simp] theorem withFetchWord_cfg (s : State) (nbits w : Nat) : (s.withFetchWord nbits w).cfg = s.cfg := rfl
@[simp] theorem withFetchWord_inp (s : State) (nbits w : Nat) : (s.withFetchWord nbits w).inp = s.inp := rfl
@[simp] theorem withFetchWord_lastStatus (s : State) (nbits w : Nat) : (s.withFetchWord nbits w).lastStatus = s.lastStatus := rfl
@[simp] theorem withFetchWord_work (s : State) (nbits w : Nat) : (s.withFetchWord nbits w).work = s.work := rfl
@[simp] theorem withFetchWord_response (s : State) (nbits w : Nat) : (s.withFetchWord nbits w).response = s.response := rfl
@[simp] theorem withFetchWord_pending (s : State) (nbits w : Nat) : (s.withFetchWord nbits w).pending = bareRequest (tableByte nbits w) :: s.pending := rfl
@[simp] theorem withFetchWord_maxInputLen (s : State) (nbits w : Nat) : (s.withFetchWord nbits w).maxInputLen = s.maxInputLen := rfl
@[simp] theorem withFetchWord_discards (s : State) (nbits w : Nat) : (s.withFetchWord nbits w).discards = s.discards := rfl

/-! succeeded. -/

@[simp] theorem succeeded_cmd (s : State) (w : Work) (as : List Annotation) : (succeeded s w as).cmd = s.cmd := rfl
@[simp] theorem succeeded_cfg (s : State) (w : Work) (as : List Annotation) : (succeeded s w as).cfg = s.cfg := rfl
@[simp] theorem succeeded_inp (s : State) (w : Work) (as : List Annotation) : (succeeded s w as).inp = s.inp := rfl
@[simp] theorem succeeded_lastStatus (s : State) (w : Work) (as : List Annotation) : (succeeded s w as).lastStatus = .ok := rfl
@[simp] theorem succeeded_work (s : State) (w : Work) (as : List Annotation) : (succeeded s w as).work = w := rfl
@[simp] theorem succeeded_response (s : State) (w : Work) (as : List Annotation) : (succeeded s w as).response = some ⟨.ok, w.out, as⟩ := rfl
@[simp] theorem succeeded_pending (s : State) (w : Work) (as : List Annotation) : (succeeded s w as).pending = s.pending := rfl
@[simp] theorem succeeded_maxInputLen (s : State) (w : Work) (as : List Annotation) : (succeeded s w as).maxInputLen = s.maxInputLen := rfl
@[simp] theorem succeeded_discards (s : State) (w : Work) (as : List Annotation) : (succeeded s w as).discards = s.discards := rfl

/-! appendSamples (R110). -/

@[simp] theorem appendSamples_pol (ls : List Level) (w : Work) : (appendSamples ls w).pol = w.pol := rfl
@[simp] theorem appendSamples_dmq (ls : List Level) (w : Work) : (appendSamples ls w).dmq = w.dmq := rfl
@[simp] theorem appendSamples_mlv (ls : List Level) (w : Work) : (appendSamples ls w).mlv = w.mlv := rfl
@[simp] theorem appendSamples_mlt (ls : List Level) (w : Work) : (appendSamples ls w).mlt = w.mlt := rfl
@[simp] theorem appendSamples_zrc (ls : List Level) (w : Work) : (appendSamples ls w).zrc = w.zrc := rfl
@[simp] theorem appendSamples_pss (ls : List Level) (w : Work) : (appendSamples ls w).pss = w.pss := rfl
@[simp] theorem appendSamples_dmode (ls : List Level) (w : Work) : (appendSamples ls w).dmode = w.dmode := rfl
@[simp] theorem appendSamples_idx (ls : List Level) (w : Work) : (appendSamples ls w).idx = w.idx := rfl
@[simp] theorem appendSamples_sym (ls : List Level) (w : Work) : (appendSamples ls w).sym = w.sym := rfl
@[simp] theorem appendSamples_out (ls : List Level) (w : Work) : (appendSamples ls w).out = w.out ++ ls.map levelByte := rfl
@[simp] theorem appendSamples_ann (ls : List Level) (w : Work) : (appendSamples ls w).ann = w.ann := rfl

/-! appendBit (R110). -/

@[simp] theorem appendBit_pol (b : Bit) (w : Work) : (appendBit b w).pol = w.pol := rfl
@[simp] theorem appendBit_dmq (b : Bit) (w : Work) : (appendBit b w).dmq = w.dmq := rfl
@[simp] theorem appendBit_mlv (b : Bit) (w : Work) : (appendBit b w).mlv = w.mlv := rfl
@[simp] theorem appendBit_mlt (b : Bit) (w : Work) : (appendBit b w).mlt = w.mlt := rfl
@[simp] theorem appendBit_zrc (b : Bit) (w : Work) : (appendBit b w).zrc = w.zrc := rfl
@[simp] theorem appendBit_pss (b : Bit) (w : Work) : (appendBit b w).pss = w.pss := rfl
@[simp] theorem appendBit_dmode (b : Bit) (w : Work) : (appendBit b w).dmode = w.dmode := rfl
@[simp] theorem appendBit_idx (b : Bit) (w : Work) : (appendBit b w).idx = w.idx := rfl
@[simp] theorem appendBit_sym (b : Bit) (w : Work) : (appendBit b w).sym = w.sym := rfl
@[simp] theorem appendBit_out (b : Bit) (w : Work) : (appendBit b w).out = w.out ++ [bitByte b] := rfl
@[simp] theorem appendBit_ann (b : Bit) (w : Work) : (appendBit b w).ann = w.ann := rfl

/-! advance (R36). -/

@[simp] theorem advance_pol (w : Work) : (advance w).pol = w.pol := rfl
@[simp] theorem advance_dmq (w : Work) : (advance w).dmq = w.dmq := rfl
@[simp] theorem advance_mlv (w : Work) : (advance w).mlv = w.mlv := rfl
@[simp] theorem advance_mlt (w : Work) : (advance w).mlt = w.mlt := rfl
@[simp] theorem advance_zrc (w : Work) : (advance w).zrc = w.zrc := rfl
@[simp] theorem advance_pss (w : Work) : (advance w).pss = w.pss := rfl
@[simp] theorem advance_dmode (w : Work) : (advance w).dmode = w.dmode := rfl
@[simp] theorem advance_idx (w : Work) : (advance w).idx = w.idx + 1 := rfl
@[simp] theorem advance_sym (w : Work) : (advance w).sym = w.sym := rfl
@[simp] theorem advance_out (w : Work) : (advance w).out = w.out := rfl
@[simp] theorem advance_ann (w : Work) : (advance w).ann = w.ann := rfl

/-! resetWork (R39). -/

@[simp] theorem resetWork_pol (sp : Sign) : (resetWork sp).pol = sp := rfl
@[simp] theorem resetWork_dmq (sp : Sign) : (resetWork sp).dmq = sp := rfl
@[simp] theorem resetWork_mlv (sp : Sign) : (resetWork sp).mlv = .zero := rfl
@[simp] theorem resetWork_mlt (sp : Sign) : (resetWork sp).mlt = sp.negate := rfl
@[simp] theorem resetWork_zrc (sp : Sign) : (resetWork sp).zrc = 0 := rfl
@[simp] theorem resetWork_pss (sp : Sign) : (resetWork sp).pss = 0 := rfl
@[simp] theorem resetWork_dmode (sp : Sign) : (resetWork sp).dmode = .normal := rfl
@[simp] theorem resetWork_idx (sp : Sign) : (resetWork sp).idx = 0 := rfl
@[simp] theorem resetWork_sym (sp : Sign) : (resetWork sp).sym = [] := rfl
@[simp] theorem resetWork_out (sp : Sign) : (resetWork sp).out = [] := rfl
@[simp] theorem resetWork_ann (sp : Sign) : (resetWork sp).ann = [] := rfl

/-! discardedWork (R259): the result buffers. -/

@[simp] theorem discardedWork_out (n : Nat) : (discardedWork n).out = [] := rfl
@[simp] theorem discardedWork_ann (n : Nat) : (discardedWork n).ann = [] := rfl

/-! Polarities and levels. -/

@[simp] theorem negate_negate (a : Sign) : a.negate.negate = a := by cases a <;> rfl
@[simp] theorem level_negate (a : Sign) : a.level.negate = a.negate.level := by cases a <;> rfl
@[simp] theorem negate_level_negate (l : Level) : l.negate.negate = l := by cases l <;> rfl
@[simp] theorem level_ne_zero (a : Sign) : a.level ≠ .zero := by cases a <;> decide
@[simp] theorem zero_ne_level (a : Sign) : Level.zero ≠ a.level := by cases a <;> decide
@[simp] theorem negate_ne (a : Sign) : a.negate ≠ a := by cases a <;> decide
@[simp] theorem ne_negate (a : Sign) : a ≠ a.negate := by cases a <;> decide
@[simp] theorem level_sign? (a : Sign) : a.level.sign? = some a := by cases a <;> rfl

theorem level_injective {a b : Sign} (h : a.level = b.level) : a = b := by cases a <;> cases b <;> first | rfl | cases h

@[simp] theorem level_eq_level (a b : Sign) : a.level = b.level ↔ a = b := ⟨level_injective, fun h => h ▸ rfl⟩

/-- A level is zero, a given polarity or the other one. -/
theorem level_cases (a : Sign) (l : Level) : l = .zero ∨ l = a.level ∨ l = a.negate.level := by
  cases a <;> cases l <;> decide

@[simp] theorem status_ne_ok (e : ErrorKind) : e.status ≠ .ok := by cases e <;> decide

/-- Different error kinds write different codes (R250). -/
theorem status_code_injective {a b : Status} (h : a.code = b.code) : a = b := by
  cases a <;> cases b <;> first | rfl | exact absurd h (by decide)

end Sys2Proof.Machine
end

