-- ==== Sys2Proof/Laws/Buffers.lean ====
section
/-! SUPPORT. What the buffer operations and the readers of operands do, each said once: element reads and writes (spec/00_scope.md
R12), the checks of phases B, C and D (spec/40_common.md R102 to R106), and the mapper (R107, R108). -/

namespace Sys2Proof.Machine

/-! Element reads and writes (R12, R59). -/

/-- A read after a write to the same element gives the value written. -/
theorem memRead_memWrite_same {buf buf' : List Byte} {j : Nat} {v : Byte} (h : memWrite buf j v = some buf') :
    memRead buf' j = some v := by
  unfold memWrite at h
  split at h
  · next hlt => cases h; simp [memRead, hlt]
  · split at h
    · next heq => cases h; simp [memRead, heq]
    · cases h

/-- A write leaves every other element alone. -/
theorem memRead_memWrite_other {buf buf' : List Byte} {i j : Nat} {v : Byte} (h : memWrite buf j v = some buf')
    (hij : i ≠ j) : memRead buf' i = memRead buf i := by
  unfold memWrite at h
  split at h
  · cases h; simp [memRead, Ne.symm hij]
  · split at h
    · next heq =>
      cases h; subst heq
      rcases Nat.lt_or_gt_of_ne hij with hlt | hgt
      · simp [memRead, List.getElem?_append_left hlt]
      · have h1 : buf.length + 1 ≤ i := hgt
        have h2 : buf.length ≤ i := Nat.le_of_lt hgt
        simp only [memRead]
        rw [List.getElem?_eq_none (by simpa using h1), List.getElem?_eq_none h2]
    · cases h

/-- append(OUT, v) is MemWrite(OUT, len(OUT), v) (R12). -/
theorem memWrite_length (buf : List Byte) (v : Byte) : memWrite buf buf.length v = some (buf ++ [v]) := by
  simp [memWrite]

/-- The word of one decoded bit goes where R12's append puts it. -/
theorem appendBit_is_memWrite (b : Bit) (w : Work) :
    memWrite w.out w.out.length (bitByte b) = some (appendBit b w).out := memWrite_length _ _

/-! Phase B. -/

/-- Phase B passes exactly the configuration words that are well formed for the scheme, and extracts S, sp and ann (R102). -/
theorem checkConfig_eq_ok {cfg : Word32} {sch : Scheme} {p : Params} (h : checkConfig cfg sch = .ok p) :
    cfgReserved cfg = 0 ∧ cfgSamples cfg ≠ 0 ∧ (twoCell sch = true → cfgSamples cfg % 2 = 0) ∧
      p = ⟨cfgSamples cfg, cfgPolarity cfg, cfgAnnot cfg⟩ := by
  unfold checkConfig at h
  split at h
  · cases h
  · next h1 =>
    split at h
    · cases h
    · next h2 =>
      split at h
      · cases h
      · next h3 =>
        cases h
        refine ⟨not_not.mp h1, h2, fun ht => ?_, rfl⟩
        have := Nat.mod_two_eq_zero_or_one (cfgSamples cfg)
        rcases this with h0 | h1'
        · exact h0
        · exact absurd ⟨ht, h1'⟩ h3

/-- Where phase B fails, it fails with InvalidConfig (R102). -/
theorem checkConfig_eq_error {cfg : Word32} {sch : Scheme} {e : ErrorKind} (h : checkConfig cfg sch = .error e) :
    e = .invalidConfig := by
  unfold checkConfig at h
  split at h
  · cases h; rfl
  · split at h
    · cases h; rfl
    · split at h
      · cases h; rfl
      · cases h

/-- What lets phase B pass. -/
theorem checkConfig_ok {cfg : Word32} {sch : Scheme} (h1 : cfgReserved cfg = 0) (h2 : cfgSamples cfg ≠ 0)
    (h3 : twoCell sch = true → cfgSamples cfg % 2 = 0) :
    checkConfig cfg sch = .ok ⟨cfgSamples cfg, cfgPolarity cfg, cfgAnnot cfg⟩ := by
  have h4 : ¬ (twoCell sch = true ∧ cfgSamples cfg % 2 = 1) := fun ⟨ht, hodd⟩ => by simp [h3 ht] at hodd
  simp [checkConfig, h1, h2, h4]

/-- The two tables of the scheme classes agree (R71, R103). -/
theorem twoCell_eq_wf (sch : Scheme) : twoCell sch = sch.wfTwoCell := by cases sch <;> rfl

/-- CFG[0] is the parity of S. -/
theorem cfgSamples_mod_two (cfg : Word32) : cfgSamples cfg % 2 = (cfg.getLsbD 0).toNat := by
  simp only [cfgSamples, BitVec.extractLsb'_toNat, Nat.shiftRight_zero, BitVec.getLsbD, Nat.testBit_zero]
  rw [show (2 : Nat) ^ 8 = 2 * 128 from rfl, Nat.mod_mul_right_mod]
  rcases Nat.mod_two_eq_zero_or_one cfg.toNat with h | h <;> simp [h]

/-- A well-formed configuration word is one that phase B passes. -/
theorem wfCfg_iff (i : Instr) (cfg : Word32) :
    i.wfCfg cfg = true ↔
      cfgReserved cfg = 0 ∧ cfgSamples cfg ≠ 0 ∧ (twoCell i.scheme = true → cfgSamples cfg % 2 = 0) := by
  have hS : (cfg.extractLsb' 0 8 = 0#8) ↔ cfgSamples cfg = 0 := by
    unfold cfgSamples
    constructor
    · intro h; rw [h]; rfl
    · intro h; exact BitVec.eq_of_toNat_eq (by simpa using h)
  rw [twoCell_eq_wf, cfgSamples_mod_two]
  simp only [Instr.wfCfg, wfReservedClear, wfSpbPositive, wfSpbEven, cfgReserved, Bool.and_eq_true, beq_iff_eq, bne_iff_ne,
    Bool.or_eq_true, Bool.not_eq_true', ne_eq, and_assoc]
  rw [show (0 : BitVec 8) = 0#8 from rfl, hS]
  cases i.scheme.wfTwoCell <;> cases cfg.getLsbD 0 <;> simp

/-- Phase B of a command, for a well-formed configuration word. -/
theorem checkConfig_of_wf {i : Instr} {cfg : Word32} (h : i.wfCfg cfg = true) :
    checkConfig cfg i.scheme = .ok ⟨cfgSamples cfg, cfgPolarity cfg, cfgAnnot cfg⟩ :=
  let ⟨h1, h2, h3⟩ := (wfCfg_iff i cfg).mp h
  checkConfig_ok h1 h2 h3

/-- Phase B of a command, for any other configuration word. -/
theorem checkConfig_of_not_wf {i : Instr} {cfg : Word32} (h : ¬ i.wfCfg cfg = true) :
    checkConfig cfg i.scheme = .error .invalidConfig := by
  cases hc : checkConfig cfg i.scheme with
  | error e => rw [checkConfig_eq_error hc]
  | ok p =>
    obtain ⟨h1, h2, h3, _⟩ := checkConfig_eq_ok hc
    exact absurd ((wfCfg_iff i cfg).mpr ⟨h1, h2, h3⟩) h

/-! Phase C. -/

/-- Phase C passes exactly the inputs within the cap (R104). -/
theorem checkLength_of_withinCap {s : State} (h : WithinCap s s.inp.length) :
    checkLength s.maxInputLen s.inp = .ok () := by
  unfold checkLength
  cases hc : s.maxInputLen with
  | none => rfl
  | some n => simp [Nat.not_lt.mpr (h n hc)]

/-- Any other input is too long (R104, R256). -/
theorem checkLength_of_not_withinCap {s : State} (h : ¬ WithinCap s s.inp.length) :
    checkLength s.maxInputLen s.inp = .error .inputTooLong := by
  unfold checkLength
  cases hc : s.maxInputLen with
  | none => exact absurd (fun n hn => by simp [hc] at hn) h
  | some n =>
    by_cases hn : s.inp.length > n
    · simp [hn]
    · refine absurd (fun m hm => ?_) h
      rw [hc] at hm
      cases hm
      exact Nat.not_lt.mp hn

/-! Phase D: reading every element. -/

/-- Reading succeeds exactly when every element has a value, and gives the values in order. -/
theorem readAll_eq_ok {α : Type} {f : Byte → Option α} {err : ErrorKind} :
    ∀ {inp : List Byte} {as : List α}, readAll f err inp = .ok as ↔ inp.map f = as.map some := by
  intro inp
  induction inp with
  | nil => intro as; cases as <;> simp [readAll]
  | cons e es ih =>
    intro as
    cases hf : f e with
    | none => cases as <;> simp [readAll, hf]
    | some a =>
      cases hr : readAll f err es with
      | error x =>
        have hno : ∀ bs : List α, es.map f ≠ bs.map some := fun bs hb => by
          have := ih.mpr hb
          rw [hr] at this
          cases this
        cases as with
        | nil => simp [readAll, hf, hr]
        | cons b bs => simp only [readAll, hf, hr, List.map_cons, List.cons.injEq, reduceCtorEq, false_iff, not_and]
                       exact fun _ => hno bs
      | ok xs =>
        have hx := ih.mp hr
        cases as with
        | nil => simp [readAll, hf, hr]
        | cons b bs =>
          simp only [readAll, hf, hr, List.map_cons, Except.ok.injEq, List.cons.injEq, Option.some.injEq, hx]
          exact and_congr_right fun _ => ⟨fun h => h ▸ rfl, fun h => List.map_injective_iff.mpr (Option.some_injective α) h⟩

/-- Where reading fails it fails with the error given. -/
theorem readAll_eq_error {α : Type} {f : Byte → Option α} {err e : ErrorKind} :
    ∀ {inp : List Byte}, readAll f err inp = .error e → e = err := by
  intro inp
  induction inp with
  | nil => intro h; cases h
  | cons b bs ih =>
    intro h
    unfold readAll at h
    split at h
    · cases h; rfl
    · split at h
      · next hx => cases h; exact ih hx
      · cases h

/-- Element i of what was read is the value of MemRead(IN, i) (R105, R106). -/
theorem readAll_memRead {α : Type} {f : Byte → Option α} {err : ErrorKind} {inp : List Byte} {as : List α}
    (h : readAll f err inp = .ok as) (i : Nat) : as[i]? = (memRead inp i).bind f := by
  have hmap := congrArg (fun l => l[i]?) (readAll_eq_ok.mp h)
  simp only [List.getElem?_map] at hmap
  unfold memRead
  cases hi : inp[i]? with
  | none => rw [hi] at hmap; cases ha : as[i]? <;> simp_all
  | some e => rw [hi] at hmap; cases ha : as[i]? <;> simp_all

@[simp] theorem bitval_bitByte (b : Bit) : bitval (bitByte b) = some b := by cases b <;> decide

/-- bitval undoes the word of a bit, and only that (R51, R54). -/
theorem bitval_eq_some {e : Byte} {b : Bit} : bitval e = some b ↔ e = bitByte b := by
  constructor
  · unfold bitval
    split
    · next h => intro hb; cases hb; exact h
    · split
      · next h => intro hb; cases hb; exact h
      · intro hb; cases hb
  · rintro rfl; exact bitval_bitByte b

theorem bitElements_eq_map (bs : List Bit) : bitElements bs = bs.map bitByte := rfl

/-- Phase D for encode passes exactly the words of a bit sequence (R105). -/
theorem validateBits_eq_ok {inp : List Byte} {bs : List Bit} : validateBits inp = .ok bs ↔ inp = bitElements bs := by
  rw [validateBits, readAll_eq_ok, bitElements_eq_map]
  induction bs generalizing inp with
  | nil => simp
  | cons b bs ih =>
    cases inp with
    | nil => simp
    | cons e es => simp [ih, bitval_eq_some]

@[simp] theorem sampleByte_eq (l : Level) : sampleByte l = levelByte l := by cases l <;> decide

@[simp] theorem levelOf_sext8_levelByte (l : Level) : levelOf (sext8 (levelByte l)) = some l := by cases l <;> decide

/-- levelOf undoes a Level's word, and only that (R52, R53). -/
theorem levelOf_sext8_eq_some {e : Byte} {l : Level} : levelOf (sext8 e) = some l ↔ e = levelByte l := by
  constructor
  · intro h
    have key : ∀ n : Int, e.toInt = n → ∀ e' : Byte, e'.toInt = n → e = e' := fun n h1 e' h2 =>
      BitVec.eq_of_toInt_eq (h1.trans h2.symm)
    unfold levelOf sext8 at h
    split at h
    · next hv => cases h; exact key _ hv _ (by decide)
    · split at h
      · next hv => cases h; exact key _ hv _ (by decide)
      · split at h
        · next hv => cases h; exact key _ hv _ (by decide)
        · cases h
  · rintro rfl; exact levelOf_sext8_levelByte l

/-- A sample is read exactly when its word is a Level of the scheme's alphabet (R106). -/
theorem sampleOf_eq_some {sch : Scheme} {e : Byte} {l : Level} :
    sampleOf sch e = some l ↔ e = levelByte l ∧ l ∈ alphabet sch := by
  unfold sampleOf
  constructor
  · intro h
    split at h
    · next l' hl =>
      split at h
      · next hm => cases h; exact ⟨levelOf_sext8_eq_some.mp hl, hm⟩
      · cases h
    · cases h
  · rintro ⟨rfl, hm⟩
    simp [hm]

/-- Reading samples succeeds exactly on the words of Levels of the alphabet (R106). -/
theorem readSamples_eq_ok {sch : Scheme} {err : ErrorKind} {inp : List Byte} {v : List Level} :
    readAll (sampleOf sch) err inp = .ok v ↔ inp = v.map levelByte ∧ ∀ l ∈ v, l ∈ alphabet sch := by
  rw [readAll_eq_ok]
  induction v generalizing inp with
  | nil => simp
  | cons l ls ih =>
    cases inp with
    | nil => simp
    | cons e es =>
      simp only [List.map_cons, List.cons.injEq, ih, sampleOf_eq_some, List.forall_mem_cons]
      constructor
      · rintro ⟨⟨h1, h2⟩, h3, h4⟩; exact ⟨⟨h1, h3⟩, h2, h4⟩
      · rintro ⟨⟨h1, h3⟩, h2, h4⟩; exact ⟨⟨h1, h2⟩, h3, h4⟩

/-! The mapper. -/

/-- Expand gives S samples: all of h0 when the cell is full-width (R107). -/
theorem expand_full (S : Nat) (l : Level) : expand S ⟨l, l⟩ = List.replicate S l := by
  unfold expand
  split
  · rw [List.replicate_append_replicate]; congr 1; omega
  · rfl

/-- Expand for an even S: S/2 samples of each half (R107). -/
theorem expand_even {S : Nat} (h : S % 2 = 0) (c : Cell) :
    expand S c = List.replicate (S / 2) c.h0 ++ List.replicate (S / 2) c.h1 := if_pos h

/-- Expand gives exactly S samples (R107, R113). -/
theorem expand_length (S : Nat) (c : Cell) : (expand S c).length = S := by
  unfold expand
  split
  · simp only [List.length_append, List.length_replicate]; omega
  · simp

theorem allAre_iff {l : Level} {ls : List Level} : allAre l ls = true ↔ ls = List.replicate ls.length l := by
  simp only [allAre, List.all_eq_true, beq_iff_eq]
  exact ⟨fun h => List.eq_replicate_of_mem h, fun h x hx => List.eq_of_mem_replicate (h ▸ hx)⟩

/-- A constant bit-cell collapses to its level (R108). -/
theorem collapseFull_replicate {S : Nat} (h : 0 < S) (l : Level) : collapseFull (List.replicate S l) = .ok ⟨l, l⟩ := by
  obtain ⟨n, rfl⟩ : ∃ n, S = n + 1 := ⟨S - 1, by omega⟩
  simp [List.replicate_succ, collapseFull, allAre]

/-- Only a constant bit-cell collapses as a full-width one (R108). -/
theorem collapseFull_eq_ok {ls : List Level} {c : Cell} (h : collapseFull ls = .ok c) :
    c.h0 = c.h1 ∧ ls = List.replicate ls.length c.h0 := by
  unfold collapseFull at h
  split at h
  · cases h
  · next l ls =>
    split at h
    · next ha =>
      cases h
      refine ⟨rfl, ?_⟩
      conv => lhs; rw [allAre_iff.mp ha]
      simp [List.replicate_succ]
    · cases h

/-- A bit-cell constant over each half collapses to its two levels (R108). -/
theorem collapseHalves_replicate {S : Nat} (h : 0 < S / 2) (a b : Level) :
    collapseHalves S (List.replicate (S / 2) a ++ List.replicate (S / 2) b) = .ok ⟨a, b⟩ := by
  obtain ⟨n, hn⟩ : ∃ n, S / 2 = n + 1 := ⟨S / 2 - 1, by omega⟩
  simp [collapseHalves, hn, List.replicate_succ, allAre]

/-- Only a bit-cell constant over each half collapses as a two-cell one (R108). -/
theorem collapseHalves_eq_ok {S : Nat} (hS : S % 2 = 0) {ls : List Level} (hlen : ls.length = S) {c : Cell}
    (h : collapseHalves S ls = .ok c) : ls = List.replicate (S / 2) c.h0 ++ List.replicate (S / 2) c.h1 := by
  unfold collapseHalves at h
  split at h
  · next a as b bs ht hd =>
    split at h
    · next hab =>
      cases h
      simp only [Bool.and_eq_true] at hab
      have h1 := allAre_iff.mp hab.1
      have h2 := allAre_iff.mp hab.2
      have hl1 : as.length + 1 = S / 2 := by
        have := congrArg List.length ht
        simp only [List.length_take, List.length_cons] at this
        omega
      have hl2 : bs.length + 1 = S / 2 := by
        have := congrArg List.length hd
        simp only [List.length_drop, List.length_cons] at this
        omega
      rw [← List.take_append_drop (S / 2) ls, ht, hd, h1, h2, ← hl1]
      simp only [List.replicate_succ]
      rw [show bs.length = as.length by omega]
    · cases h
  · cases h

/-- What a cell pair must be to come from a scheme of this class (R14). -/
def cellFits (sch : Scheme) (c : Cell) : Prop := twoCell sch = true ∨ c.h0 = c.h1

/-- A bit-cell collapses exactly to the cell pair whose expansion it is (R107, R108). -/
theorem collapseCell_eq_ok {sch : Scheme} {S : Nat} (hpos : 0 < S) (heven : twoCell sch = true → S % 2 = 0)
    {ls : List Level} (hlen : ls.length = S) {c : Cell} :
    collapseCell sch S ls = .ok c ↔ ls = expand S c ∧ cellFits sch c := by
  unfold collapseCell cellFits
  cases ht : twoCell sch with
  | true =>
    have he := heven ht
    rw [expand_even he]
    simp only [if_true, true_or, and_true]
    refine ⟨collapseHalves_eq_ok he hlen, ?_⟩
    rintro rfl
    exact collapseHalves_replicate (by omega) c.h0 c.h1
  | false =>
    simp only [Bool.false_eq_true, if_false, false_or]
    constructor
    · intro h
      obtain ⟨h1, h2⟩ := collapseFull_eq_ok h
      refine ⟨?_, h1⟩
      rw [hlen] at h2
      obtain ⟨a, b⟩ := c
      cases h1
      rw [expand_full]; exact h2
    · rintro ⟨h1, h2⟩
      obtain ⟨a, b⟩ := c
      cases h2
      rw [h1, expand_full]
      exact collapseFull_replicate hpos a

/-- Collapse fails only as MalformedSymbolSequence (R108). -/
theorem collapseCell_eq_error {sch : Scheme} {S : Nat} {ls : List Level} {e : ErrorKind}
    (h : collapseCell sch S ls = .error e) : e = .malformedSymbolSequence := by
  unfold collapseCell collapseHalves collapseFull at h
  repeat' split at h
  all_goals first | (cases h; rfl) | cases h

/-- One bit-cell more (R108). -/
theorem collapseCells_succ {sch : Scheme} {S n : Nat} {v : List Level} {cs : List Cell} :
    collapseCells sch S (n + 1) v = .ok cs ↔
      ∃ c ds, collapseCell sch S (v.take S) = .ok c ∧ collapseCells sch S n (v.drop S) = .ok ds ∧ cs = c :: ds := by
  rw [collapseCells]
  cases collapseCell sch S (v.take S) with
  | error e => simp
  | ok c =>
    cases collapseCells sch S n (v.drop S) with
    | error e => simp
    | ok ds => simp [eq_comm]

/-- Samples that begin with one bit-cell's expansion split into it and the rest. -/
theorem take_drop_expand (S : Nat) (c : Cell) (rest : List Level) :
    (expand S c ++ rest).take S = expand S c ∧ (expand S c ++ rest).drop S = rest :=
  ⟨List.take_left' (expand_length S c), List.drop_left' (expand_length S c)⟩

/-- The first n bit-cells collapse exactly to the cell pairs whose expansions they are (R107, R108). -/
theorem collapseCells_eq_ok {sch : Scheme} {S : Nat} (hpos : 0 < S) (heven : twoCell sch = true → S % 2 = 0) :
    ∀ (n : Nat) {v : List Level} {cs : List Cell}, v.length = n * S →
      (collapseCells sch S n v = .ok cs ↔ v = cs.flatMap (expand S) ∧ cs.length = n ∧ ∀ c ∈ cs, cellFits sch c) := by
  intro n
  induction n with
  | zero =>
    intro v cs hv
    have : v = [] := List.eq_nil_of_length_eq_zero (by omega)
    subst this
    simp only [collapseCells, Except.ok.injEq]
    constructor
    · rintro rfl; simp
    · rintro ⟨_, h, _⟩; exact (List.eq_nil_of_length_eq_zero h).symm
  | succ n ih =>
    intro v cs hv
    have hle : S ≤ v.length := by rw [hv, Nat.succ_mul]; omega
    have htake : (v.take S).length = S := by simp [hle]
    have hdrop : (v.drop S).length = n * S := by rw [List.length_drop, hv, Nat.succ_mul]; omega
    rw [collapseCells_succ]
    constructor
    · rintro ⟨c, ds, hc, hr, rfl⟩
      obtain ⟨ht, hfitc⟩ := (collapseCell_eq_ok hpos heven htake).mp hc
      obtain ⟨hd, hlen, hfit⟩ := (ih hdrop).mp hr
      refine ⟨?_, by simp [hlen], ?_⟩
      · rw [List.flatMap_cons, ← ht, ← hd, List.take_append_drop]
      · rintro x (_ | ⟨_, hx⟩)
        · exact hfitc
        · exact hfit x hx
    · rintro ⟨hveq, hlen, hfit⟩
      cases cs with
      | nil => simp at hlen
      | cons c ds =>
        obtain ⟨ht, hd⟩ := take_drop_expand S c (ds.flatMap (expand S))
        rw [← List.flatMap_cons, ← hveq] at ht hd
        exact ⟨c, ds, (collapseCell_eq_ok hpos heven htake).mpr ⟨ht, hfit c (by simp)⟩,
          (ih hdrop).mpr ⟨hd, by simpa using hlen, fun x hx => hfit x (by simp [hx])⟩, rfl⟩

theorem collapseCells_eq_error {sch : Scheme} {S : Nat} :
    ∀ (n : Nat) {v : List Level} {e : ErrorKind}, collapseCells sch S n v = .error e → e = .malformedSymbolSequence := by
  intro n
  induction n with
  | zero => intro v e h; cases h
  | succ n ih =>
    intro v e h
    unfold collapseCells at h
    split at h
    · next hc => cases h; exact collapseCell_eq_error hc
    · split at h
      · next hr => cases h; exact ih hr
      · cases h

/-- Phase D for decode fails only as MalformedSymbolSequence (R106, R253). -/
theorem validateSamples_eq_error {sch : Scheme} {S : Nat} {inp : List Byte} {e : ErrorKind}
    (h : validateSamples sch S inp = .error e) : e = .malformedSymbolSequence := by
  unfold validateSamples at h
  split at h
  · cases h; rfl
  · split at h
    · next hx => cases h; exact readAll_eq_error hx
    · exact collapseCells_eq_error _ h

end Sys2Proof.Machine
end

