-- ==== Sys2Proof/Laws/Execution.lean ====
section
/-! SUPPORT. What a command can do, said once for encode commands and once for decode commands (spec/40_common.md R100), the
processing loops (R110), and the form that every operation on the buffers keeps (spec/20_memory.md R53 to R56). -/

namespace Sys2Proof.Machine

/-! Phases B and C together. -/

/-- A command passes phases B and C exactly when its configuration is well formed and its input is within the cap. -/
theorem checkOperands_ok {i : Instr} {s : State} (h1 : i.wfCfg s.cfg = true) (h2 : WithinCap s s.inp.length) :
    checkOperands i s = .ok ⟨cfgSamples s.cfg, cfgPolarity s.cfg, cfgAnnot s.cfg⟩ := by
  simp [checkOperands, checkConfig_of_wf h1, checkLength_of_withinCap h2]

/-- A configuration word that is not well formed is found first (R258). -/
theorem checkOperands_badConfig {i : Instr} {s : State} (h : ¬ i.wfCfg s.cfg = true) : checkOperands i s = .error .invalidConfig := by
  simp [checkOperands, checkConfig_of_not_wf h]

/-- Then an input over the cap (R258). -/
theorem checkOperands_tooLong {i : Instr} {s : State} (h1 : i.wfCfg s.cfg = true) (h2 : ¬ WithinCap s s.inp.length) :
    checkOperands i s = .error .inputTooLong := by
  simp [checkOperands, checkConfig_of_wf h1, checkLength_of_not_withinCap h2]

/-- What passing phases B and C says. -/
theorem checkOperands_eq_ok {i : Instr} {s : State} {p : Params} (h : checkOperands i s = .ok p) :
    i.wfCfg s.cfg = true ∧ WithinCap s s.inp.length ∧ p = ⟨cfgSamples s.cfg, cfgPolarity s.cfg, cfgAnnot s.cfg⟩ := by
  by_cases h1 : i.wfCfg s.cfg = true
  · by_cases h2 : WithinCap s s.inp.length
    · rw [checkOperands_ok h1 h2] at h
      cases h
      exact ⟨h1, h2, rfl⟩
    · rw [checkOperands_tooLong h1 h2] at h
      cases h
  · rw [checkOperands_badConfig h1] at h
    cases h

/-- S is at least 1 after phase B, and even for a two-cell scheme (R23). -/
theorem wfCfg_samples {i : Instr} {cfg : Word32} (h : i.wfCfg cfg = true) :
    0 < cfgSamples cfg ∧ (twoCell i.scheme = true → cfgSamples cfg % 2 = 0) :=
  let ⟨_, h2, h3⟩ := (wfCfg_iff i cfg).mp h
  ⟨Nat.pos_of_ne_zero h2, h3⟩

/-! What a command can do. -/

/-- An encode command ends in one of two ways: aborted in phases B to D, or committed with what `proc` computes from the bits
that its input holds (R100). -/
theorem runEncode_cases {i : Instr} {proc : Params → List Bit → Work → Work} {s : State} :
    (∃ e, runEncode i proc s = .next (abort e s) ∧
        (checkOperands i s = .error e ∨ (∃ p, checkOperands i s = .ok p) ∧ validateBits s.inp = .error e)) ∨
    (∃ p bits, checkOperands i s = .ok p ∧ s.inp = bitElements bits ∧
        runEncode i proc s = .next (commit i p (proc p bits (resetWork p.sp)) s)) := by
  unfold runEncode
  cases ha : checkOperands i s with
  | error e => exact .inl ⟨e, rfl, .inl rfl⟩
  | ok p =>
    cases hb : validateBits s.inp with
    | error e => exact .inl ⟨e, rfl, .inr ⟨⟨p, rfl⟩, rfl⟩⟩
    | ok bits => exact .inr ⟨p, bits, rfl, validateBits_eq_ok.mp hb, rfl⟩

/-- A decode command ends in one of two ways: aborted in phases B to G, or committed with what `proc` computes from the cell
pairs that its input holds (R100). -/
theorem runDecode_cases {i : Instr} {proc : List Cell → Work → Except ErrorKind Work} {s : State} :
    (∃ e, runDecode i proc s = .next (abort e s) ∧
        (checkOperands i s = .error e ∨ ∃ p, checkOperands i s = .ok p ∧
          (validateSamples i.scheme p.samples s.inp = .error e ∨
            ∃ cells, validateSamples i.scheme p.samples s.inp = .ok cells ∧ proc cells (resetWork p.sp) = .error e))) ∨
    (∃ p cells w, checkOperands i s = .ok p ∧ validateSamples i.scheme p.samples s.inp = .ok cells ∧
        proc cells (resetWork p.sp) = .ok w ∧ runDecode i proc s = .next (commit i p w s)) := by
  unfold runDecode
  cases ha : checkOperands i s with
  | error e => exact .inl ⟨e, rfl, .inl rfl⟩
  | ok p =>
    dsimp only
    cases hb : validateSamples i.scheme p.samples s.inp with
    | error e => exact .inl ⟨e, rfl, .inr ⟨p, rfl, .inl hb⟩⟩
    | ok cells =>
      dsimp only
      cases hc : proc cells (resetWork p.sp) with
      | error e => exact .inl ⟨e, rfl, .inr ⟨p, rfl, .inr ⟨cells, hb, hc⟩⟩⟩
      | ok w => exact .inr ⟨p, cells, w, rfl, hb, hc, rfl⟩

/-- An encode command whose operands pass phases B to D (R100, R119). -/
theorem runEncode_ok {i : Instr} {proc : Params → List Bit → Work → Work} {s : State} {bits : List Bit}
    (h1 : i.wfCfg s.cfg = true) (h2 : WithinCap s s.inp.length) (h3 : s.inp = bitElements bits) :
    runEncode i proc s = .next (commit i ⟨cfgSamples s.cfg, cfgPolarity s.cfg, cfgAnnot s.cfg⟩
      (proc ⟨cfgSamples s.cfg, cfgPolarity s.cfg, cfgAnnot s.cfg⟩ bits (resetWork (cfgPolarity s.cfg))) s) := by
  simp [runEncode, checkOperands_ok h1 h2, validateBits_eq_ok.mpr h3]

/-- A decode command whose input is the expansion of cell pairs that fit its scheme (R100, R106, R108). -/
theorem validateSamples_expand {sch : Scheme} {S : Nat} (hpos : 0 < S) (heven : twoCell sch = true → S % 2 = 0)
    {cells : List Cell} (hfit : ∀ c ∈ cells, cellFits sch c)
    (halph : ∀ c ∈ cells, c.h0 ∈ alphabet sch ∧ c.h1 ∈ alphabet sch) :
    validateSamples sch S ((cells.flatMap (expand S)).map levelByte) = .ok cells := by
  have hlen : (cells.flatMap (expand S)).length = cells.length * S := by
    rw [List.length_flatMap]
    simp [expand_length]
  have hmem : ∀ l ∈ cells.flatMap (expand S), l ∈ alphabet sch := by
    intro l hl
    obtain ⟨c, hc, hlc⟩ := List.mem_flatMap.mp hl
    have := halph c hc
    unfold expand at hlc
    split at hlc
    · rcases List.mem_append.mp hlc with h | h
      · rw [List.eq_of_mem_replicate h]; exact this.1
      · rw [List.eq_of_mem_replicate h]; exact this.2
    · rw [List.eq_of_mem_replicate hlc]; exact this.1
  unfold validateSamples
  rw [if_neg (by simp [hlen]), readSamples_eq_ok.mpr ⟨rfl, hmem⟩]
  show collapseCells sch S _ _ = _
  rw [hlen, Nat.mul_div_cancel _ hpos]
  exact (collapseCells_eq_ok hpos heven _ hlen).mpr ⟨rfl, rfl, hfit⟩

/-- Phase D for decode passes only the words of an expansion of cell pairs that fit (R106, R108). -/
theorem validateSamples_eq_ok {sch : Scheme} {S : Nat} (hpos : 0 < S) (heven : twoCell sch = true → S % 2 = 0)
    {inp : List Byte} {cells : List Cell} (h : validateSamples sch S inp = .ok cells) :
    inp = (cells.flatMap (expand S)).map levelByte ∧ (∀ c ∈ cells, cellFits sch c) ∧
      (∀ l ∈ cells.flatMap (expand S), l ∈ alphabet sch) ∧ cells.length * S = inp.length := by
  unfold validateSamples at h
  split at h
  · cases h
  · next hmod =>
    split at h
    · cases h
    · next v hv =>
      obtain ⟨hinp, halph⟩ := readSamples_eq_ok.mp hv
      have hl : v.length = inp.length := by rw [hinp, List.length_map]
      have hvlen : v.length = v.length / S * S := by
        have := Nat.div_add_mod v.length S
        rw [hl] at this ⊢
        rw [not_not.mp hmod, Nat.add_zero, Nat.mul_comm] at this
        exact this.symm
      obtain ⟨hveq, hcl, hfit⟩ := (collapseCells_eq_ok hpos heven _ hvlen).mp h
      refine ⟨by rw [hinp, ← hveq], hfit, by rw [← hveq]; exact halph, by rw [hcl, ← hvlen, hl]⟩

/-! The processing loops. -/

/-- Processing bits in order: first some, then the rest (R110). -/
theorem processEncode_append (step : EncStep) (S : Nat) (as bs : List Bit) (w : Work) :
    processEncode step S (as ++ bs) w = processEncode step S bs (processEncode step S as w) := by
  induction as generalizing w with
  | nil => rfl
  | cons a as ih => exact ih _

/-- The DB3 loop, likewise (R110). -/
theorem db3EncLoop_append (p : Params) (as bs : List Bit) (w : Work) :
    db3EncLoop p (as ++ bs) w = db3EncLoop p bs (db3EncLoop p as w) := by
  induction as generalizing w with
  | nil => rfl
  | cons a as ih => exact ih _

/-- Processing bit-cells in order: first some, then the rest (R110). -/
theorem processDecode_append (step : DecStep) (as bs : List Cell) (w : Work) :
    processDecode step (as ++ bs) w =
      match processDecode step as w with
      | .error e => .error e
      | .ok w1 => processDecode step bs w1 := by
  induction as generalizing w with
  | nil => rfl
  | cons a as ih =>
    simp only [List.cons_append, processDecode]
    cases step a w with
    | error e => rfl
    | ok r => exact ih _

/-- A decode loop's error is one that a step raised (R258). -/
theorem processDecode_eq_error {step : DecStep} {e0 : ErrorKind} (hstep : ∀ c w e, step c w = .error e → e = e0) :
    ∀ {cells : List Cell} {w : Work} {e : ErrorKind}, processDecode step cells w = .error e → e = e0 := by
  intro cells
  induction cells with
  | nil => intro w e h; cases h
  | cons c cs ih =>
    intro w e h
    unfold processDecode at h
    split at h
    · next hc => cases h; exact hstep _ _ _ hc
    · exact ih h

/-! The buffers' form (R53 to R56). -/

@[simp] theorem isOutByte_levelByte (l : Level) : isOutByte (levelByte l) = true := by cases l <;> decide

@[simp] theorem isOutByte_bitByte (b : Bit) : isOutByte (bitByte b) = true := by cases b <;> decide

/-- Appending samples keeps OUT's form (R53). -/
theorem appendSamples_keeps_form (ls : List Level) {w : Work} (h : w.out.all isOutByte = true) :
    (appendSamples ls w).out.all isOutByte = true := by
  simp only [appendSamples_out, List.all_append, h, Bool.true_and, List.all_map]
  simp

/-- Appending a bit keeps OUT's form (R54). -/
theorem appendBit_keeps_form (b : Bit) {w : Work} (h : w.out.all isOutByte = true) :
    (appendBit b w).out.all isOutByte = true := by
  simp [h]

/-- Rising positions, said of neighbours at any distance (R56). -/
theorem risingPositions_iff (as : List Annotation) :
    risingPositions as = true ↔ as.Pairwise fun a b => a.position < b.position := by
  induction as with
  | nil => simp [risingPositions]
  | cons a as ih =>
    cases as with
    | nil => simp [risingPositions]
    | cons b as =>
      rw [risingPositions, Bool.and_eq_true, decide_eq_true_iff, ih, List.pairwise_cons (a := a)]
      constructor
      · rintro ⟨hab, hp⟩
        refine ⟨?_, hp⟩
        rintro x (_ | ⟨_, hx⟩)
        · exact hab
        · exact Nat.lt_trans hab ((List.pairwise_cons.mp hp).1 x hx)
      · rintro ⟨h1, h2⟩
        exact ⟨h1 b (by simp), h2⟩

/-- Records later than all of ANN keep its form (R56). -/
theorem risingPositions_append {as bs : List Annotation} (ha : risingPositions as = true) (hb : risingPositions bs = true)
    (hab : ∀ a ∈ as, ∀ b ∈ bs, a.position < b.position) : risingPositions (as ++ bs) = true := by
  rw [risingPositions_iff] at *
  exact List.pairwise_append.mpr ⟨ha, hb, hab⟩

/-- At power-on the buffers have their form. -/
theorem reset_memory_wf : Memory.wf State.reset = true := by decide

/-- An abort keeps the buffers' form. -/
theorem abort_keeps_memory (e : ErrorKind) (s : State) : Memory.wf (abort e s) = true := rfl

/-- A commit keeps it, if the working buffers have it. -/
theorem commit_keeps_memory (i : Instr) (p : Params) (s : State) {w : Work} (h : buffersWf w.out w.ann = true) :
    Memory.wf (commit i p w s) = true := by
  have h' : buffersWf w.out [] = true := by
    unfold buffersWf at *
    simp only [Bool.and_eq_true] at h ⊢
    exact ⟨h.1, rfl⟩
  simp only [Memory.wf, commit_work, commit_response, h, Bool.true_and, returnedAnn]
  split <;> assumption

/-- Taking a command, and issuing one, leave the buffers alone. -/
theorem accept_keeps_memory (o : Operands) (rest : List Request) (s : State) :
    Memory.wf (accept o rest s) = Memory.wf s := rfl

theorem issue_keeps_memory (o : Operands) (s : State) : Memory.wf (issue o s) = Memory.wf s := rfl

theorem withFetchWord_keeps_memory (s : State) (nbits w : Nat) :
    Memory.wf (s.withFetchWord nbits w) = Memory.wf s := rfl

/-! One step. -/

/-- What a step can do (R74, R282, R284, R285). -/
theorem step_cases (s : State) :
    (s.pending = [] ∧ step s = .next s) ∨
    (∃ r rest, s.pending = r :: rest ∧
      ((∃ why, conductRefusal r.conduct = some why ∧ step s = .refused why) ∨
       (r.conduct = .waits ∧
        ((∃ e, decode r.operands.cmd = .error e ∧
            step s = .next (abort (decodeErrorKind e) (accept r.operands rest s))) ∨
         (∃ i, decode r.operands.cmd = .ok i ∧ step s = exec i (accept r.operands rest s)))))) := by
  unfold step nextRequest
  cases hp : s.pending with
  | nil => exact .inl ⟨rfl, rfl⟩
  | cons r rest =>
    refine .inr ⟨r, rest, rfl, ?_⟩
    cases hc : r.conduct with
    | waits =>
      refine .inr ⟨rfl, ?_⟩
      cases hd : decode r.operands.cmd with
      | error e => exact .inl ⟨e, rfl, by simp [hc, conductRefusal, hd]⟩
      | ok i => exact .inr ⟨i, rfl, by simp [hc, conductRefusal, hd]⟩
    | issuesAnother => exact .inl ⟨_, rfl, by simp [hc, conductRefusal]⟩
    | changesOperands => exact .inl ⟨_, rfl, by simp [hc, conductRefusal]⟩
    | readsResultsEarly => exact .inl ⟨_, rfl, by simp [hc, conductRefusal]⟩

end Sys2Proof.Machine
end

