-- ==== Sys2Proof/Laws/ClosedForms.lean ====
section
/-! SUPPORT. Lemmas about the vocabulary of Safety.lean: how the closed forms of the line codes grow by one bit, and how a
processing loop that follows such a form runs (spec/40_common.md R110, spec/41_simple_codecs.md). -/

namespace Sys2Proof.Machine

/-! One bit more. -/

theorem onesBefore_append (bs : List Bit) (b : Bit) {k : Nat} (h : k ≤ bs.length) :
    onesBefore (bs ++ [b]) k = onesBefore bs k := by
  simp [onesBefore, List.take_append_of_le_length h]

@[simp] theorem onesBefore_length (bs : List Bit) : onesBefore bs bs.length = bs.count true := by simp [onesBefore]

theorem onesBefore_append_last (bs : List Bit) (b : Bit) :
    onesBefore (bs ++ [b]) (bs.length + 1) = bs.count true + b.toNat := by
  rw [show bs.length + 1 = (bs ++ [b]).length by simp, onesBefore_length]
  cases b <;> simp

theorem isOne_append (bs : List Bit) (b : Bit) {k : Nat} (h : k < bs.length) : isOne (bs ++ [b]) k = isOne bs k := by
  simp [isOne, List.getElem?_append_left h]

@[simp] theorem isOne_append_last (bs : List Bit) (b : Bit) : isOne (bs ++ [b]) bs.length = b := by simp [isOne]

@[simp] theorem flipped_zero (sp : Sign) : flipped sp 0 = sp := rfl

theorem flipped_succ (sp : Sign) (n : Nat) : flipped sp (n + 1) = (flipped sp n).negate := by
  unfold flipped
  rcases Nat.mod_two_eq_zero_or_one n with h | h
  · have h1 : (n + 1) % 2 = 1 := by omega
    simp [h, h1]
  · have h0 : (n + 1) % 2 = 0 := by omega
    simp [h, h0]

/-- One step of the MLT-3 cycle: from 0 it goes to the target sign, which is then inverted; from a mark it goes to 0 and the
target stays (R156). -/
theorem mlt3Cycle_succ (sp : Sign) (n : Nat) :
    (mlt3Cycle sp n = .zero →
      mlt3Cycle sp (n + 1) = (mlt3Target sp n).level ∧ mlt3Target sp (n + 1) = (mlt3Target sp n).negate) ∧
    (mlt3Cycle sp n ≠ .zero → mlt3Cycle sp (n + 1) = .zero ∧ mlt3Target sp (n + 1) = mlt3Target sp n) := by
  have h : n % 4 = 0 ∨ n % 4 = 1 ∨ n % 4 = 2 ∨ n % 4 = 3 := by omega
  rcases h with h | h | h | h
  · have h1 : (n + 1) % 4 = 1 := by omega
    have h2 : (n + 1) / 2 % 2 = 0 := by omega
    have h3 : (n + 1 + 1) / 2 % 2 = 1 := by omega
    simp [mlt3Cycle, mlt3Target, flipped, h, h1, h2, h3]
  · have h1 : (n + 1) % 4 = 2 := by omega
    have h2 : (n + 1) / 2 % 2 = 1 := by omega
    have h3 : (n + 1 + 1) / 2 % 2 = 1 := by omega
    simp [mlt3Cycle, mlt3Target, flipped, h, h1, h2, h3]
  · have h1 : (n + 1) % 4 = 3 := by omega
    have h2 : (n + 1) / 2 % 2 = 1 := by omega
    have h3 : (n + 1 + 1) / 2 % 2 = 0 := by omega
    simp [mlt3Cycle, mlt3Target, flipped, h, h1, h2, h3]
  · have h1 : (n + 1) % 4 = 0 := by omega
    have h2 : (n + 1) / 2 % 2 = 0 := by omega
    have h3 : (n + 1 + 1) / 2 % 2 = 0 := by omega
    simp [mlt3Cycle, mlt3Target, flipped, h, h1, h2, h3]

theorem heldSamples_succ (S L : Nat) {f g : Nat → Level} (h : ∀ k < L, f k = g k) :
    heldSamples S (L + 1) f = heldSamples S L g ++ List.replicate S (sampleByte (f L)) := by
  unfold heldSamples
  rw [List.range_succ, List.flatMap_append]
  congr 1
  · apply List.flatMap_congr
    intro k hk
    rw [h k (List.mem_range.mp hk)]
  · simp

theorem halfSamples_succ (S L : Nat) {f g : Nat → Level × Level} (h : ∀ k < L, f k = g k) :
    halfSamples S (L + 1) f = halfSamples S L g ++
      (List.replicate (S / 2) (sampleByte (f L).1) ++ List.replicate (S / 2) (sampleByte (f L).2)) := by
  unfold halfSamples
  rw [List.range_succ, List.flatMap_append]
  congr 1
  · apply List.flatMap_congr
    intro k hk
    rw [h k (List.mem_range.mp hk)]
  · simp

/-- Held samples are the words of an expansion of full-width cells (R107). -/
theorem heldSamples_eq_expand (S L : Nat) (f : Nat → Level) :
    heldSamples S L f = (((List.range L).map fun k => (⟨f k, f k⟩ : Cell)).flatMap (expand S)).map levelByte := by
  unfold heldSamples
  rw [List.flatMap_map, List.map_flatMap]
  apply List.flatMap_congr
  intro k _
  simp [expand_full]

/-- Half samples are the words of an expansion of cells, for an even S (R107). -/
theorem halfSamples_eq_expand {S : Nat} (hS : S % 2 = 0) (L : Nat) (f : Nat → Level × Level) :
    halfSamples S L f =
      (((List.range L).map fun k => (⟨(f k).1, (f k).2⟩ : Cell)).flatMap (expand S)).map levelByte := by
  unfold halfSamples
  rw [List.flatMap_map, List.map_flatMap]
  apply List.flatMap_congr
  intro k _
  simp [expand_even hS]

/-! A loop that follows a closed form. `upd bs` says what the step's registers hold after the bits `bs`. -/

/-- Encoding bit by bit gives the expansion of the closed form's cells. -/
theorem processEncode_follows (step : EncStep) (S : Nat) (sp : Sign) (cell : List Bit → Nat → Cell)
    (upd : List Bit → Work → Work)
    (hcell : ∀ bs b k, k < bs.length → cell (bs ++ [b]) k = cell bs k)
    (hstart : upd [] (plainWork sp 0 []) = plainWork sp 0 [])
    (hstep : ∀ bs b L out, (step b (upd bs (plainWork sp L out))).1 = cell (bs ++ [b]) bs.length)
    (hupd : ∀ bs b L out ls, advance (appendSamples ls (step b (upd bs (plainWork sp L out))).2) =
      upd (bs ++ [b]) (plainWork sp (L + 1) (out ++ ls.map levelByte)))
    (bs : List Bit) :
    processEncode step S bs (resetWork sp) = upd bs (plainWork sp bs.length
      ((((List.range bs.length).map (cell bs)).flatMap (expand S)).map levelByte)) := by
  induction bs using List.reverseRecOn with
  | nil => exact hstart.symm
  | append_singleton bs b ih =>
    have hold : (List.range bs.length).map (cell (bs ++ [b])) = (List.range bs.length).map (cell bs) :=
      List.map_congr_left fun k hk => hcell bs b k (List.mem_range.mp hk)
    rw [processEncode_append, ih]
    simp only [processEncode]
    rw [hupd, hstep, List.length_append, List.length_singleton, List.range_succ, List.map_append, hold]
    simp

/-- Decoding cell by cell gives the bits of which they are the closed form's cells. -/
theorem processDecode_follows (step : DecStep) (sp : Sign) (cell : List Bit → Nat → Cell)
    (upd : List Bit → Work → Work)
    (hcell : ∀ bs b k, k < bs.length → cell (bs ++ [b]) k = cell bs k)
    (hstart : upd [] (plainWork sp 0 []) = plainWork sp 0 [])
    (hstep : ∀ bs b L out, ∃ w, step (cell (bs ++ [b]) bs.length) (upd bs (plainWork sp L out)) = .ok (b, w) ∧
      advance (appendBit b w) = upd (bs ++ [b]) (plainWork sp (L + 1) (out ++ [bitByte b])))
    (bs : List Bit) :
    processDecode step ((List.range bs.length).map (cell bs)) (resetWork sp) =
      .ok (upd bs (plainWork sp bs.length (bitElements bs))) := by
  induction bs using List.reverseRecOn with
  | nil => exact congrArg Except.ok hstart.symm
  | append_singleton bs b ih =>
    have hcells : (List.range (bs ++ [b]).length).map (cell (bs ++ [b])) =
        (List.range bs.length).map (cell bs) ++ [cell (bs ++ [b]) bs.length] := by
      rw [List.length_append, List.length_singleton, List.range_succ, List.map_append]
      congr 1
      exact List.map_congr_left fun k hk => hcell bs b k (List.mem_range.mp hk)
    rw [hcells, processDecode_append, ih]
    obtain ⟨w, h1, h2⟩ := hstep bs b bs.length (bitElements bs)
    simp only [processDecode, h1]
    rw [h2]
    simp [bitElements, bitByte]

/-- An encode command other than ENC.DB3 that passes phases B to D succeeds with what its loop computes (R112). -/
theorem runEncode_succeeds {i : Instr} {proc : Params → List Bit → Work → Work} {s : State} {bs : List Bit} {w : Work}
    (h1 : i.wfCfg s.cfg = true) (h2 : WithinCap s s.inp.length) (h3 : s.inp = bitElements bs) (hi : i.scheme ≠ .db3)
    (hp : proc ⟨cfgSamples s.cfg, cfgPolarity s.cfg, cfgAnnot s.cfg⟩ bs (resetWork (cfgPolarity s.cfg)) = w) :
    runEncode i proc s = .next (succeeded s w []) := by
  rw [runEncode_ok h1 h2 h3, hp]
  simp [commit, succeeded, returnedAnn, hi]

/-- A decode command whose input is an expansion of fitting cells that its loop accepts succeeds (R112). -/
theorem runDecode_succeeds {i : Instr} {proc : List Cell → Work → Except ErrorKind Work} {s : State} {cells : List Cell}
    {w : Work} (h1 : i.wfCfg s.cfg = true) (h2 : WithinCap s s.inp.length)
    (h3 : s.inp = (cells.flatMap (expand (cfgSamples s.cfg))).map levelByte)
    (hfit : ∀ c ∈ cells, cellFits i.scheme c)
    (halph : ∀ c ∈ cells, c.h0 ∈ alphabet i.scheme ∧ c.h1 ∈ alphabet i.scheme) (hd : i.dir = .decode)
    (hp : proc cells (resetWork (cfgPolarity s.cfg)) = .ok w) :
    runDecode i proc s = .next (succeeded s w []) := by
  obtain ⟨hpos, heven⟩ := wfCfg_samples h1
  have hv : validateSamples i.scheme (cfgSamples s.cfg) s.inp = .ok cells := by
    rw [h3]
    exact validateSamples_expand hpos heven hfit halph
  simp [runDecode, checkOperands_ok h1 h2, hv, hp, commit, succeeded, returnedAnn, hd]

/-! DB3. -/

/-- The detector counts below three zeros and fires at the fourth (R202). -/
theorem runLength_of_lt {z : Fin 4} (h : z.val < 3) : runLength z = some ⟨z.val + 1, by omega⟩ := by
  unfold runLength
  rw [dif_pos (by omega)]

theorem runLength_of_three {z : Fin 4} (h : z.val = 3) : runLength z = none := by
  unfold runLength
  rw [dif_neg (by omega)]

@[simp] theorem zero_sign? : Level.zero.sign? = none := rfl

@[simp] theorem lastMark_append (sp : Sign) (as bs : List Level) :
    lastMark sp (as ++ bs) = lastMark (lastMark sp as) bs := by
  simp [lastMark]

@[simp] theorem lastMark_zeros (sp : Sign) (n : Nat) : lastMark sp (List.replicate n .zero) = sp := by
  induction n with
  | zero => rfl
  | succ n ih => exact ih

@[simp] theorem lastMark_pulse (sp a : Sign) : lastMark sp [a.level] = a := by simp [lastMark]

@[simp] theorem lastMark_template (sp a : Sign) (l : Level) : lastMark sp [l, .zero, .zero, a.level] = a := by
  simp [lastMark]

@[simp] theorem trailingZeros_one (bs : List Bit) : trailingZeros (bs ++ [true]) = 0 := by simp [trailingZeros]

@[simp] theorem trailingZeros_zero (bs : List Bit) : trailingZeros (bs ++ [false]) = trailingZeros bs + 1 := by
  simp [trailingZeros]

end Sys2Proof.Machine
end

