-- ==== Sys2Proof/Laws/PerInstr.lean ====
section
/-! SUPPORT. Facts about a command as syntax, made per instruction: decoding its command word gives it back
(spec/30_encoding.md R70, R76), and its word has RSV = 000 with the DIR and SCHEME of its row (R71, R72). -/

namespace Sys2Proof.Laws.DecodeEncode

/-- Decoding an instruction's own word gives the instruction. -/
def Statement (i : Instr) : Prop := decode (encode i) = .ok i

theorem encNrz : Statement .encNrz := rfl
theorem encRz : Statement .encRz := rfl
theorem encAmi : Statement .encAmi := rfl
theorem encCmi : Statement .encCmi := rfl
theorem encManchester : Statement .encManchester := rfl
theorem encDiffManchester : Statement .encDiffManchester := rfl
theorem encMlt3 : Statement .encMlt3 := rfl
theorem encDb3 : Statement .encDb3 := rfl
theorem decNrz : Statement .decNrz := rfl
theorem decRz : Statement .decRz := rfl
theorem decAmi : Statement .decAmi := rfl
theorem decCmi : Statement .decCmi := rfl
theorem decManchester : Statement .decManchester := rfl
theorem decDiffManchester : Statement .decDiffManchester := rfl
theorem decMlt3 : Statement .decMlt3 := rfl
theorem decDb3 : Statement .decDb3 := rfl

end Sys2Proof.Laws.DecodeEncode

namespace Sys2Proof.Laws.WordFields

/-- The three fields of an instruction's word (R70). -/
def Statement (i : Instr) : Prop :=
  cmdReserved (encode i) = 0 ∧ cmdDir (encode i) = (i.dir == .decode) ∧ schemeOf (cmdScheme (encode i)) = some i.scheme ∧
    wfCmd (encode i) = true

theorem encNrz : Statement .encNrz := ⟨rfl, rfl, rfl, rfl⟩
theorem encRz : Statement .encRz := ⟨rfl, rfl, rfl, rfl⟩
theorem encAmi : Statement .encAmi := ⟨rfl, rfl, rfl, rfl⟩
theorem encCmi : Statement .encCmi := ⟨rfl, rfl, rfl, rfl⟩
theorem encManchester : Statement .encManchester := ⟨rfl, rfl, rfl, rfl⟩
theorem encDiffManchester : Statement .encDiffManchester := ⟨rfl, rfl, rfl, rfl⟩
theorem encMlt3 : Statement .encMlt3 := ⟨rfl, rfl, rfl, rfl⟩
theorem encDb3 : Statement .encDb3 := ⟨rfl, rfl, rfl, rfl⟩
theorem decNrz : Statement .decNrz := ⟨rfl, rfl, rfl, rfl⟩
theorem decRz : Statement .decRz := ⟨rfl, rfl, rfl, rfl⟩
theorem decAmi : Statement .decAmi := ⟨rfl, rfl, rfl, rfl⟩
theorem decCmi : Statement .decCmi := ⟨rfl, rfl, rfl, rfl⟩
theorem decManchester : Statement .decManchester := ⟨rfl, rfl, rfl, rfl⟩
theorem decDiffManchester : Statement .decDiffManchester := ⟨rfl, rfl, rfl, rfl⟩
theorem decMlt3 : Statement .decMlt3 := ⟨rfl, rfl, rfl, rfl⟩
theorem decDb3 : Statement .decDb3 := ⟨rfl, rfl, rfl, rfl⟩

end Sys2Proof.Laws.WordFields
end

