-- ==== Sys2Proof/Certificates/Slice0/Obligations.lean ====
section
/-! DEFINITION. The statements about the LCC core, for the provers. Each docstring names the rule of spec/ it follows, and the
log entry where a clause rests on the model's own choice. The vocabulary is in Sys2Proof/Safety.lean. -/

open Sys2Proof Sys2Proof.Machine

/-! Power-on, the step, the host. -/

/-- Power-on: LAST_STATUS reads 0 (R280). With no command issued the core stays as it is (the idle step is log 3). -/
def Obligations.PowerOnReadsZeroAndIsIdle : Prop :=
  hostReadStatus State.reset = 0 ∧ step State.reset = .next State.reset

/-- The codes that the host reads from LAST_STATUS: 0 for success, 1 to 6 for the six errors in the order of R250, so never a
value above 6 (R28, R250). -/
def Obligations.StatusCodes : Prop :=
  ∀ s : State, hostReadStatus s =
    match s.lastStatus with
    | .ok => 0
    | .invalidBit => 1
    | .unsupportedScheme => 2
    | .malformedSymbolSequence => 3
    | .invalidSubstitutionPattern => 4
    | .invalidConfig => 5
    | .inputTooLong => 6

/-- The invariant holds at power-on (for the unspecified registers the values are the model's, log 5, log 10). -/
def Obligations.PowerOnMeetsInvariant : Prop := MachineInv State.reset

/-- Every step keeps the invariant: OUT holds only sample and bit words, ANN is in increasing position order (R53 to R56), and
LAST_STATUS and the response tell one result, with no data after a failure (R28, R61). From any state that meets it. -/
def Obligations.StepKeepsInvariant : Prop :=
  ∀ s t : State, MachineInv s → step s = .next t → MachineInv t

/-- A step runs the decoded command: the operands of the host's next command are taken together, and the whole command is run
on the state that holds them (R63, R74, R100; the list of commands is log 2). -/
def Obligations.StepRunsDecodedCommand : Prop :=
  ∀ (s : State) (o : Operands) (rest : List Request) (i : Instr),
    s.pending = ⟨o, .waits⟩ :: rest → decode o.cmd = .ok i →
    step s = exec i { s with cmd := o.cmd, cfg := o.cfg, inp := o.inp, pending := rest }

/-- Every command word with CMD[3:0] ≥ 8 or CMD[7:5] ≠ 000 answers UnsupportedScheme, code 2, with no data, for any CFG and IN
(R252). -/
def Obligations.UnsupportedWordAnswersCodeTwo : Prop :=
  ∀ (s : State) (o : Operands) (rest : List Request),
    s.pending = ⟨o, .waits⟩ :: rest →
    8 ≤ (o.cmd.extractLsb' 0 4).toNat ∨ o.cmd.extractLsb' 5 3 ≠ 0 →
    ∃ t, step s = .next t ∧ hostReadStatus t = 2 ∧ t.response = some ⟨.unsupportedScheme, [], []⟩ ∧
      t.cmd = o.cmd ∧ t.cfg = o.cfg ∧ t.inp = o.inp ∧ t.pending = rest ∧ t.maxInputLen = s.maxInputLen

/-- The host that breaks R284 or R285 during a command is refused, each breach under its own name (R284: "it refuses such a
schedule"; how a breach is written down is log 11). -/
def Obligations.UndisciplinedHostIsRefused : Prop :=
  ∀ (s : State) (o : Operands) (rest : List Request),
    (s.pending = ⟨o, .issuesAnother⟩ :: rest → step s = .refused .overlappingCommands) ∧
    (s.pending = ⟨o, .changesOperands⟩ :: rest → step s = .refused .operandsChanged) ∧
    (s.pending = ⟨o, .readsResultsEarly⟩ :: rest → step s = .refused .resultsReadEarly)

/-- With a disciplined host no step is ever refused or faults, and the host stays disciplined: one command is taken at every
step until none is left (R63, R259, R289). -/
def Obligations.DisciplinedHostNeverStops : Prop :=
  ∀ s : State, HostDisciplined s → ∃ t, step s = .next t ∧ HostDisciplined t ∧ t.pending = s.pending.tail

/-- Separate instances share nothing: a step of one leaves every other as it was, and is that instance's own step (R66; the
platform as a list is log 15). -/
def Obligations.InstancesShareNothing : Prop :=
  ∀ (ps qs : List State) (k : Nat), platformStep k ps = .next qs →
    qs.length = ps.length ∧ (∀ j, j ≠ k → qs[j]? = ps[j]?) ∧
    (∀ s, ps[k]? = some s → ∃ t, step s = .next t ∧ qs[k]? = some t)

/-- The response and LAST_STATUS depend on CMD, CFG, IN and MAX_INPUT_LEN alone: two instances with any other state whatever,
given the same command, answer the same (R114, R29). -/
def Obligations.ResponseDependsOnOperandsOnly : Prop :=
  ∀ (s₁ s₂ : State) (o : Operands) (rest₁ rest₂ : List Request),
    s₁.pending = ⟨o, .waits⟩ :: rest₁ → s₂.pending = ⟨o, .waits⟩ :: rest₂ → s₁.maxInputLen = s₂.maxInputLen →
    ∃ t₁ t₂, step s₁ = .next t₁ ∧ step s₂ = .next t₂ ∧ observe t₁ = observe t₂

/-! Encodings. -/

/-- The sixteen command words, and that all other 240 byte values fail (R76). -/
def Obligations.CommandWordMap : Prop :=
  decode 0x00 = .ok .encNrz ∧ decode 0x01 = .ok .encRz ∧ decode 0x02 = .ok .encAmi ∧ decode 0x03 = .ok .encCmi ∧
  decode 0x04 = .ok .encManchester ∧ decode 0x05 = .ok .encDiffManchester ∧ decode 0x06 = .ok .encMlt3 ∧
  decode 0x07 = .ok .encDb3 ∧
  decode 0x10 = .ok .decNrz ∧ decode 0x11 = .ok .decRz ∧ decode 0x12 = .ok .decAmi ∧ decode 0x13 = .ok .decCmi ∧
  decode 0x14 = .ok .decManchester ∧ decode 0x15 = .ok .decDiffManchester ∧ decode 0x16 = .ok .decMlt3 ∧
  decode 0x17 = .ok .decDb3 ∧
  ∀ w : Byte, (0x08 ≤ w.toNat ∧ w.toNat ≤ 0x0F) ∨ (0x18 ≤ w.toNat ∧ w.toNat ≤ 0x1F) ∨ 0x20 ≤ w.toNat →
    ∃ e, decode w = .error e ∧ decodeErrorKind e = .unsupportedScheme

/-- Decode and encode agree, both ways: a word decodes to a command exactly when it is that command's word (R70, R76). -/
def Obligations.DecodeInvertsEncode : Prop :=
  ∀ (i : Instr) (w : Byte), decode w = .ok i ↔ w = encode i

/-- A whole command on a byte-wide path: CMD, CFG with bits [7:0] first, IN; no bit is lost and no other byte sequence carries
that command (R57 for CFG; the frame is 95_test_vectors.md section 3, log 14). -/
def Obligations.CommandBytesRoundTrip : Prop :=
  (∀ o : Operands, encodeFrame o =
      o.cmd :: o.cfg.extractLsb' 0 8 :: o.cfg.extractLsb' 8 8 :: o.cfg.extractLsb' 16 8 :: o.cfg.extractLsb' 24 8 :: o.inp) ∧
  (∀ (bytes : List Byte) (o : Operands), decodeFrame bytes = some o ↔ bytes = encodeFrame o)

/-- The packed annotation: [31] kind, [30] polarity, [29:0] position; every 32-bit word is one record's, and a position of 2^30
or more has none (R55). -/
def Obligations.PackedAnnotationRoundTrip : Prop :=
  (∀ a : Annotation, a.position < 2 ^ 30 → ∃ w, packAnnotation a = some w ∧ unpackAnnotation w = a ∧
      w.getLsbD 31 = (a.kind == .balancing) ∧ w.getLsbD 30 = (a.polarity == .plus) ∧
      (w.extractLsb' 0 30).toNat = a.position) ∧
  (∀ a : Annotation, 2 ^ 30 ≤ a.position → packAnnotation a = none) ∧
  (∀ w : Word32, packAnnotation (unpackAnnotation w) = some w)

/-- The one pseudo-form: a command without cfg= has the word 0x00000002, and each named option replaces its field of that word
and no other (R80). -/
def Obligations.OmittedOptionsKeepDefaults : Prop :=
  asmCfgWord (.options none none none) = 0x00000002 ∧
  ∀ (spb : Option (BitVec 8)) (pol : Option Sign) (annot : Option Bool),
    let cfg := asmCfgWord (.options spb pol annot)
    cfg.extractLsb' 0 8 = spb.getD 2 ∧ cfg.getLsbD 8 = (pol == some .plus) ∧ cfg.getLsbD 9 = annot.getD false ∧
    cfg.extractLsb' 10 22 = 0

/-! The phases of a command. -/

/-- Phase B (R102). -/
def Obligations.ConfigurationCheck : Prop :=
  ∀ (cfg : Word32) (sch : Scheme),
    let S := (cfg.extractLsb' 0 8).toNat
    let bad := cfg.extractLsb' 10 22 ≠ 0 ∨ S = 0 ∨ (sch.wfTwoCell = true ∧ S % 2 = 1)
    (bad → checkConfig cfg sch = .error .invalidConfig) ∧
    (¬ bad → checkConfig cfg sch = .ok ⟨S, if cfg.getLsbD 8 then .plus else .minus, cfg.getLsbD 9⟩)

/-- The mapper, encode direction (R107). -/
def Obligations.MapperExpands : Prop :=
  ∀ (S : Nat) (h0 h1 : Level),
    (S % 2 = 0 → expand S ⟨h0, h1⟩ = List.replicate (S / 2) h0 ++ List.replicate (S / 2) h1) ∧
    (S % 2 = 1 → expand S ⟨h0, h1⟩ = List.replicate S h0) ∧
    expand S ⟨h0, h0⟩ = List.replicate S h0 ∧ expand 2 ⟨h0, h1⟩ = [h0, h1]

/-- The mapper, decode direction: it succeeds exactly when every bit-cell is constant, over the whole cell or over each half
by the scheme's class, gives one cell pair per bit-cell with the levels found there, and else fails with
MalformedSymbolSequence (R108). -/
def Obligations.MapperCollapses : Prop :=
  ∀ (sch : Scheme) (S : Nat) (v : List Level),
    0 < S → (sch.wfTwoCell = true → S % 2 = 0) → v.length % S = 0 →
    (constantCells sch S v → ∃ cells, collapse sch S v = .ok cells ∧ cells.length = v.length / S ∧
      ∀ k, k < v.length / S → ∃ c, cells[k]? = some c ∧ v[k * S]? = some c.h0 ∧
        v[k * S + if sch.wfTwoCell then S / 2 else 0]? = some c.h1) ∧
    (¬ constantCells sch S v → collapse sch S v = .error .malformedSymbolSequence)

/-- The result of every encode command: one status for every state and operands, the checks in phase order, and success for
every input of bits within the cap (R119; the order is R258). -/
def Obligations.EncodeOutcome : Prop :=
  ∀ (i : Instr) (s : State), i.dir = .encode → ∃ t, exec i s = .next t ∧
    (i.wfCfg s.cfg = false → t.lastStatus = .invalidConfig) ∧
    (i.wfCfg s.cfg = true → ¬ WithinCap s s.inp.length → t.lastStatus = .inputTooLong) ∧
    (i.wfCfg s.cfg = true → WithinCap s s.inp.length → wfBits s.inp = false → t.lastStatus = .invalidBit) ∧
    (i.wfCfg s.cfg = true → WithinCap s s.inp.length → wfBits s.inp = true → t.lastStatus = .ok)

/-- The result of every decode command: the checks in phase order, causes 1 to 3 of R253 found in phase D, and after phase D
only success, MalformedSymbolSequence (not NRZ or DB3) or InvalidSubstitutionPattern (DB3 only) (R250, R253, R254, R258). -/
def Obligations.DecodeOutcome : Prop :=
  ∀ (i : Instr) (s : State), i.dir = .decode → ∃ t, exec i s = .next t ∧
    let S := (s.cfg.extractLsb' 0 8).toNat
    (i.wfCfg s.cfg = false → t.lastStatus = .invalidConfig) ∧
    (i.wfCfg s.cfg = true → ¬ WithinCap s s.inp.length → t.lastStatus = .inputTooLong) ∧
    (i.wfCfg s.cfg = true → WithinCap s s.inp.length → ¬ PassesPhaseD i.scheme S s.inp →
      t.lastStatus = .malformedSymbolSequence) ∧
    (i.wfCfg s.cfg = true → WithinCap s s.inp.length → PassesPhaseD i.scheme S s.inp →
      t.lastStatus = .ok ∨
      (t.lastStatus = .malformedSymbolSequence ∧ i.scheme ≠ .nrz ∧ i.scheme ≠ .db3) ∨
      (t.lastStatus = .invalidSubstitutionPattern ∧ i.scheme = .db3))

/-- A failed command: LAST_STATUS has its code, the response carries no OUT and no ANN, the buffers are discarded, and the
operands, the commands to come and MAX_INPUT_LEN are as they were (R259; the discarded registers are free, log 8, log 9). -/
def Obligations.FailedCommandChangesNothingElse : Prop :=
  ∀ (i : Instr) (s t : State), exec i s = .next t → t.lastStatus ≠ .ok →
    t = { s with lastStatus := t.lastStatus, response := some ⟨t.lastStatus, [], []⟩, work := t.work,
                 discards := s.discards + 1 } ∧
    t.work.out = [] ∧ t.work.ann = []

/-- A successful command: the response carries OUT, and ANN for ENC.DB3 with EMIT_ANNOT = 1 only; nothing but LAST_STATUS, the
working state and the response has changed (R112, R61; the working state after success is log 7). -/
def Obligations.SuccessfulCommandChangesNothingElse : Prop :=
  ∀ (i : Instr) (s t : State), exec i s = .next t → t.lastStatus = .ok →
    t = { s with lastStatus := .ok, work := t.work, discards := s.discards,
                 response := some ⟨.ok, t.work.out, if i = .encDb3 ∧ s.cfg.getLsbD 9 = true then t.work.ann else []⟩ }

/-- Every command completes, after at most len(IN) steps: one per bit, or one per bit-cell of S samples (R289; the cursor I
after success is log 7). -/
def Obligations.EveryCommandCompletes : Prop :=
  ∀ (i : Instr) (s : State), ∃ t, exec i s = .next t ∧
    (t.lastStatus = .ok → t.work.idx ≤ s.inp.length ∧
      (i.dir = .encode → t.work.idx = s.inp.length) ∧
      (i.dir = .decode → t.work.idx * cfgSamples s.cfg = s.inp.length))

/-- An empty input succeeds with an empty output, for every command and every configuration that phase B passes (R115). -/
def Obligations.EmptyInputGivesEmptyOutput : Prop :=
  ∀ (i : Instr) (s : State), i.wfCfg s.cfg = true → s.inp = [] → Responds (exec i s) ⟨.ok, [], []⟩

/-- Phase E: a command that has no bit to process ends with every working register at its value of R39, whatever was in it
before (that they stay so after success is log 7). -/
def Obligations.CommandStartsFromWorkingReset : Prop :=
  ∀ (i : Instr) (s : State), i.wfCfg s.cfg = true → s.inp = [] →
    exec i s = .next (succeeded s
      { pol := cfgPolarity s.cfg, dmq := cfgPolarity s.cfg, mlv := .zero, mlt := (cfgPolarity s.cfg).negate,
        zrc := 0, pss := 0, dmode := .normal, idx := 0, sym := [], out := [], ann := [] } [])

/-! The step rules. -/

/-- NRZ, RZ and MANCHESTER: their steps, which write no state (R130, R131, R134, R135, R147, R148). -/
def Obligations.StatelessSteps : Prop :=
  ∀ w : Work,
    (encStepNrz false w = (⟨.zero, .zero⟩, w) ∧ encStepNrz true w = (⟨.plus, .plus⟩, w)) ∧
    (encStepRz false w = (⟨.zero, .zero⟩, w) ∧ encStepRz true w = (⟨.plus, .zero⟩, w)) ∧
    (encStepManchester false w = (⟨.plus, .zero⟩, w) ∧ encStepManchester true w = (⟨.zero, .plus⟩, w)) ∧
    (decStepNrz ⟨.zero, .zero⟩ w = .ok (false, w) ∧ decStepNrz ⟨.plus, .plus⟩ w = .ok (true, w) ∧
      ∀ c, c ≠ ⟨.zero, .zero⟩ → c ≠ ⟨.plus, .plus⟩ → decStepNrz c w = .error .malformedSymbolSequence) ∧
    (decStepRz ⟨.zero, .zero⟩ w = .ok (false, w) ∧ decStepRz ⟨.plus, .zero⟩ w = .ok (true, w) ∧
      ∀ c, c ≠ ⟨.zero, .zero⟩ → c ≠ ⟨.plus, .zero⟩ → decStepRz c w = .error .malformedSymbolSequence) ∧
    (decStepManchester ⟨.plus, .zero⟩ w = .ok (false, w) ∧ decStepManchester ⟨.zero, .plus⟩ w = .ok (true, w) ∧
      ∀ c, c ≠ ⟨.plus, .zero⟩ → c ≠ ⟨.zero, .plus⟩ → decStepManchester c w = .error .malformedSymbolSequence)

/-- AMI and CMI: their steps, which write POL only at a mark (R138, R139, R143, R144). -/
def Obligations.MarkSteps : Prop :=
  ∀ w : Work,
    let m := w.pol.negate
    let marked := { w with pol := m }
    (encStepAmi false w = (⟨.zero, .zero⟩, w) ∧ encStepAmi true w = (⟨m.level, m.level⟩, marked)) ∧
    (encStepCmi false w = (⟨.zero, .plus⟩, w) ∧ encStepCmi true w = (⟨m.level, m.level⟩, marked)) ∧
    (decStepAmi ⟨.zero, .zero⟩ w = .ok (false, w) ∧ decStepAmi ⟨m.level, m.level⟩ w = .ok (true, marked) ∧
      decStepAmi ⟨w.pol.level, w.pol.level⟩ w = .error .malformedSymbolSequence) ∧
    (decStepCmi ⟨.zero, .plus⟩ w = .ok (false, w) ∧ decStepCmi ⟨m.level, m.level⟩ w = .ok (true, marked) ∧
      ∀ c, c ≠ ⟨.zero, .plus⟩ → c ≠ ⟨m.level, m.level⟩ → decStepCmi c w = .error .malformedSymbolSequence)

/-- DIFF_MANCHESTER: its steps, which write DMQ only (R151, R152). Cells with a zero level never reach the decode step: the
alphabet is −1 and +1. -/
def Obligations.DiffManchesterSteps : Prop :=
  ∀ w : Work,
    encStepDiffManchester false w = (⟨w.dmq.negate.level, w.dmq.level⟩, { w with dmq := w.dmq }) ∧
    encStepDiffManchester true w = (⟨w.dmq.level, w.dmq.negate.level⟩, { w with dmq := w.dmq.negate }) ∧
    ∀ h0 h1 : Sign,
      (h1 = h0.negate → decStepDiffManchester ⟨h0.level, h1.level⟩ w = .ok (h0 == w.dmq, { w with dmq := h1 })) ∧
      (h1 ≠ h0.negate → decStepDiffManchester ⟨h0.level, h1.level⟩ w = .error .malformedSymbolSequence)

/-- MLT3: its steps, which write MLV and MLT only (R156, R157). -/
def Obligations.Mlt3Steps : Prop :=
  ∀ w : Work,
    let nxt : Work := if w.mlv = .zero then { w with mlv := w.mlt.level, mlt := w.mlt.negate } else { w with mlv := .zero }
    encStepMlt3 false w = (⟨w.mlv, w.mlv⟩, w) ∧ encStepMlt3 true w = (⟨nxt.mlv, nxt.mlv⟩, nxt) ∧
    ∀ l : Level,
      (l = w.mlv → decStepMlt3 ⟨l, l⟩ w = .ok (false, w)) ∧
      (l ≠ w.mlv → l = (if w.mlv = .zero then w.mlt.level else .zero) → decStepMlt3 ⟨l, l⟩ w = .ok (true, nxt)) ∧
      (l ≠ w.mlv → l ≠ (if w.mlv = .zero then w.mlt.level else .zero) →
        decStepMlt3 ⟨l, l⟩ w = .error .malformedSymbolSequence)

/-- The DB3 encode step: a data pulse, a zero without a substitution, the even template and the odd template, each with all it
writes (R204 to R209). -/
def Obligations.Db3EncodeSteps : Prop :=
  ∀ (p : Params) (w : Work),
    db3EncStep p true w =
      { w with sym := w.sym ++ [w.pol.negate.level], pol := w.pol.negate, pss := w.pss + 1, zrc := 0 } ∧
    (∀ z : Fin 4, z.val = w.zrc.val + 1 → db3EncStep p false w = { w with sym := w.sym ++ [.zero], zrc := z }) ∧
    (w.zrc = 3 → w.pss % 2 = 0 → db3EncStep p false w =
      let base := w.sym.take (w.sym.length - 3)
      { w with
        sym := base ++ [.zero, .zero, .zero, w.pol.level], zrc := 0, pss := 0
        ann := if p.annot then w.ann ++ [⟨(base.length + 3) * p.samples, .violation, w.pol⟩] else w.ann }) ∧
    (w.zrc = 3 → w.pss % 2 = 1 → db3EncStep p false w =
      let base := w.sym.take (w.sym.length - 3)
      { w with
        sym := base ++ [w.pol.level, .zero, .zero, w.pol.negate.level], pol := w.pol.negate, zrc := 0, pss := 0
        ann := if p.annot then
            w.ann ++ [⟨base.length * p.samples, .balancing, w.pol⟩,
              ⟨(base.length + 3) * p.samples, .violation, w.pol.negate⟩]
          else w.ann })

/-- The DB3 decode step in every mode and for every symbol, and the end of the input (R216 to R220, R222). -/
def Obligations.Db3DecodeSteps : Prop :=
  ∀ (w : Work) (l : Level),
    let bad : Except ErrorKind (Bit × Work) := .error .invalidSubstitutionPattern
    (w.dmode = .normal →
      (∀ z : Fin 4, z.val = w.zrc.val + 1 → db3DecStep ⟨.zero, .zero⟩ w = .ok (false, { w with zrc := z })) ∧
      (w.zrc = 3 → db3DecStep ⟨.zero, .zero⟩ w = bad) ∧
      (l = w.pol.negate.level →
        db3DecStep ⟨l, l⟩ w = .ok (true, { w with zrc := 0, pol := w.pol.negate, pss := w.pss + 1 })) ∧
      (l = w.pol.level →
        (w.zrc = 3 → w.pss % 2 = 0 → db3DecStep ⟨l, l⟩ w = .ok (false, { w with zrc := 0, pss := 0 })) ∧
        (w.zrc = 0 → w.pss % 2 = 1 → db3DecStep ⟨l, l⟩ w = .ok (false, { w with dmode := .afterB1 })) ∧
        (¬ (w.zrc = 3 ∧ w.pss % 2 = 0) → ¬ (w.zrc = 0 ∧ w.pss % 2 = 1) → db3DecStep ⟨l, l⟩ w = bad))) ∧
    (w.dmode = .afterB1 →
      db3DecStep ⟨l, l⟩ w = if l = .zero then .ok (false, { w with dmode := .afterB2 }) else bad) ∧
    (w.dmode = .afterB2 →
      db3DecStep ⟨l, l⟩ w = if l = .zero then .ok (false, { w with dmode := .afterB3 }) else bad) ∧
    (w.dmode = .afterB3 →
      db3DecStep ⟨l, l⟩ w =
        if l = w.pol.negate.level then
          .ok (false, { w with pol := w.pol.negate, pss := 0, zrc := 0, dmode := .normal })
        else bad) ∧
    (w.dmode = .normal → db3DecEnd w = .ok w) ∧
    (w.dmode ≠ .normal → db3DecEnd w = .error .invalidSubstitutionPattern)

/-! The sixteen commands: what each completes with. In each, the state is the old one but for LAST_STATUS, the response and the
working state; the working registers' final values rest on log 7. -/

/-- ENC.NRZ, ENC.RZ and ENC.MANCHESTER: every bit sequence completes with each bit's levels spread over S samples
(R132, R136, R149). -/
def Obligations.StatelessEncodersComplete : Prop :=
  ∀ (s : State) (bs : List Bit), WithinCap s s.inp.length → s.inp = bitElements bs →
    let S := cfgSamples s.cfg
    let sp := cfgPolarity s.cfg
    (Instr.encNrz.wfCfg s.cfg = true →
      exec .encNrz s = .next (succeeded s (plainWork sp bs.length (heldSamples S bs.length (nrzLevel bs))) [])) ∧
    (Instr.encRz.wfCfg s.cfg = true →
      exec .encRz s = .next (succeeded s (plainWork sp bs.length (halfSamples S bs.length (rzHalves bs))) [])) ∧
    (Instr.encManchester.wfCfg s.cfg = true →
      exec .encManchester s =
        .next (succeeded s (plainWork sp bs.length (halfSamples S bs.length (manchesterHalves bs))) []))

/-- ENC.AMI and ENC.CMI: every bit sequence completes with alternating marks, the first of polarity −sp; POL ends as the last
mark's polarity (R140, R145). -/
def Obligations.MarkEncodersComplete : Prop :=
  ∀ (s : State) (bs : List Bit), WithinCap s s.inp.length → s.inp = bitElements bs →
    let S := cfgSamples s.cfg
    let sp := cfgPolarity s.cfg
    (Instr.encAmi.wfCfg s.cfg = true →
      exec .encAmi s = .next (succeeded s
        { plainWork sp bs.length (heldSamples S bs.length (amiLevel sp bs)) with pol := flipped sp (bs.count true) } [])) ∧
    (Instr.encCmi.wfCfg s.cfg = true →
      exec .encCmi s = .next (succeeded s
        { plainWork sp bs.length (halfSamples S bs.length (cmiHalves sp bs)) with pol := flipped sp (bs.count true) } []))

/-- ENC.DIFF_MANCHESTER: every bit sequence completes with a mid-bit transition in every bit and a boundary transition exactly
at a 0; DMQ ends as the last half's level (R153). -/
def Obligations.DiffManchesterEncoderCompletes : Prop :=
  ∀ (s : State) (bs : List Bit), Instr.encDiffManchester.wfCfg s.cfg = true → WithinCap s s.inp.length →
    s.inp = bitElements bs →
    let S := cfgSamples s.cfg
    let sp := cfgPolarity s.cfg
    exec .encDiffManchester s = .next (succeeded s
      { plainWork sp bs.length (halfSamples S bs.length (diffHalves sp bs)) with dmq := flipped sp (bs.count true) } [])

/-- ENC.MLT3: every bit sequence completes with the level of the cycle after as many steps as there were 1s; MLV and MLT end
where the cycle is (R158). -/
def Obligations.Mlt3EncoderCompletes : Prop :=
  ∀ (s : State) (bs : List Bit), Instr.encMlt3.wfCfg s.cfg = true → WithinCap s s.inp.length → s.inp = bitElements bs →
    let S := cfgSamples s.cfg
    let sp := cfgPolarity s.cfg
    exec .encMlt3 s = .next (succeeded s
      { plainWork sp bs.length (heldSamples S bs.length (mlt3Level sp bs)) with
        mlv := mlt3Cycle sp (bs.count true), mlt := mlt3Target sp (bs.count true) } [])

/-- ENC.DB3: every bit sequence completes, and the engine that rewrites symbols already written gives exactly the symbols and
annotations of the definition that looks four bits ahead; POL is the last mark's polarity, ZRC the zeros pending
(R214, R204 to R211). -/
def Obligations.Db3EncoderCompletes : Prop :=
  ∀ (s : State) (bs : List Bit), Instr.encDb3.wfCfg s.cfg = true → WithinCap s s.inp.length → s.inp = bitElements bs →
    let S := cfgSamples s.cfg
    let sp := cfgPolarity s.cfg
    let syms := db3Symbols sp false bs
    let notes := if s.cfg.getLsbD 9 then db3Notes S 0 sp false bs else []
    ∃ w : Work, exec .encDb3 s = .next (succeeded s w notes) ∧
      w = { plainWork sp bs.length (symbolSamples S syms) with
            sym := syms, ann := notes, pol := lastMark sp syms, zrc := w.zrc, pss := w.pss } ∧
      w.zrc.val = trailingZeros bs % 4

/-- DEC.NRZ, DEC.RZ and DEC.MANCHESTER: the samples of every bit sequence complete with those bits (R133, R137, R150). -/
def Obligations.StatelessDecodersComplete : Prop :=
  ∀ (s : State) (bs : List Bit), WithinCap s s.inp.length →
    let S := cfgSamples s.cfg
    let done := plainWork (cfgPolarity s.cfg) bs.length (bitElements bs)
    (Instr.decNrz.wfCfg s.cfg = true → s.inp = heldSamples S bs.length (nrzLevel bs) →
      exec .decNrz s = .next (succeeded s done [])) ∧
    (Instr.decRz.wfCfg s.cfg = true → s.inp = halfSamples S bs.length (rzHalves bs) →
      exec .decRz s = .next (succeeded s done [])) ∧
    (Instr.decManchester.wfCfg s.cfg = true → s.inp = halfSamples S bs.length (manchesterHalves bs) →
      exec .decManchester s = .next (succeeded s done []))

/-- DEC.AMI and DEC.CMI: the samples of every bit sequence complete with those bits; POL ends as the last mark's polarity
(R141, R146). -/
def Obligations.MarkDecodersComplete : Prop :=
  ∀ (s : State) (bs : List Bit), WithinCap s s.inp.length →
    let S := cfgSamples s.cfg
    let sp := cfgPolarity s.cfg
    let done := { plainWork sp bs.length (bitElements bs) with pol := flipped sp (bs.count true) }
    (Instr.decAmi.wfCfg s.cfg = true → s.inp = heldSamples S bs.length (amiLevel sp bs) →
      exec .decAmi s = .next (succeeded s done [])) ∧
    (Instr.decCmi.wfCfg s.cfg = true → s.inp = halfSamples S bs.length (cmiHalves sp bs) →
      exec .decCmi s = .next (succeeded s done []))

/-- DEC.DIFF_MANCHESTER: the samples of every bit sequence complete with those bits (R154). -/
def Obligations.DiffManchesterDecoderCompletes : Prop :=
  ∀ (s : State) (bs : List Bit), Instr.decDiffManchester.wfCfg s.cfg = true → WithinCap s s.inp.length →
    let S := cfgSamples s.cfg
    let sp := cfgPolarity s.cfg
    s.inp = halfSamples S bs.length (diffHalves sp bs) →
    exec .decDiffManchester s = .next (succeeded s
      { plainWork sp bs.length (bitElements bs) with dmq := flipped sp (bs.count true) } [])

/-- DEC.MLT3: the samples of every bit sequence complete with those bits (R159). -/
def Obligations.Mlt3DecoderCompletes : Prop :=
  ∀ (s : State) (bs : List Bit), Instr.decMlt3.wfCfg s.cfg = true → WithinCap s s.inp.length →
    let S := cfgSamples s.cfg
    let sp := cfgPolarity s.cfg
    s.inp = heldSamples S bs.length (mlt3Level sp bs) →
    exec .decMlt3 s = .next (succeeded s
      { plainWork sp bs.length (bitElements bs) with
        mlv := mlt3Cycle sp (bs.count true), mlt := mlt3Target sp (bs.count true) } [])

/-- DEC.DB3: the samples of every bit sequence, by the definition that looks ahead, complete with those bits, in mode NORMAL
(R223, R215 to R222). -/
def Obligations.Db3DecoderCompletes : Prop :=
  ∀ (s : State) (bs : List Bit), Instr.decDb3.wfCfg s.cfg = true → WithinCap s s.inp.length →
    let sp := cfgPolarity s.cfg
    let syms := db3Symbols sp false bs
    s.inp = symbolSamples (cfgSamples s.cfg) syms →
    ∃ w : Work, exec .decDb3 s = .next (succeeded s w []) ∧
      w = { plainWork sp bs.length (bitElements bs) with pol := lastMark sp syms, zrc := w.zrc, pss := w.pss } ∧
      w.zrc.val = trailingZeros bs % 4

/-! Laws every command obeys. -/

/-- The round-trip law, for all eight schemes: what ENC.X gives for b, if it is within the cap, DEC.X turns back into b
(R116). -/
def Obligations.RoundTripLaw : Prop :=
  ∀ (sch : Scheme) (s : State) (b : List Bit) (y : List Byte) (ann : List Annotation),
    Responds (exec (encOf sch) { s with inp := bitElements b }) ⟨.ok, y, ann⟩ → WithinCap s y.length →
    Responds (exec (decOf sch) { s with inp := y }) ⟨.ok, bitElements b, []⟩

/-- Strict decoding, for all eight schemes and inputs within the cap (phase C comes first): DEC.X gives b for y exactly when
ENC.X gives y for b, and every other y fails with MalformedSymbolSequence or, for DB3, InvalidSubstitutionPattern (R117). -/
def Obligations.DecodeAcceptsExactlyEncodeImage : Prop :=
  ∀ (sch : Scheme) (s : State) (y : List Byte), (decOf sch).wfCfg s.cfg = true → WithinCap s y.length →
    (∀ b : List Bit, Responds (exec (decOf sch) { s with inp := y }) ⟨.ok, bitElements b, []⟩ ↔
      ∃ ann, Responds (exec (encOf sch) { s with inp := bitElements b }) ⟨.ok, y, ann⟩) ∧
    ((¬ ∃ b ann, Responds (exec (encOf sch) { s with inp := bitElements b }) ⟨.ok, y, ann⟩) →
      Responds (exec (decOf sch) { s with inp := y }) ⟨.malformedSymbolSequence, [], []⟩ ∨
      (sch = .db3 ∧ Responds (exec (decOf sch) { s with inp := y }) ⟨.invalidSubstitutionPattern, [], []⟩))

/-- Output length: L×S samples for L bits, M/S bits for M samples (R113). -/
def Obligations.OutputLength : Prop :=
  ∀ (i : Instr) (s t : State) (out : List Byte) (ann : List Annotation),
    exec i s = .next t → t.response = some ⟨.ok, out, ann⟩ →
    (i.dir = .encode → out.length = s.inp.length * cfgSamples s.cfg) ∧
    (i.dir = .decode → out.length = s.inp.length / cfgSamples s.cfg)

/-- Annotations come from ENC.DB3 with EMIT_ANNOT = 1 only, and no command's status or OUT depends on EMIT_ANNOT, CFG[9]
(R118). -/
def Obligations.AnnotationsAreSideChannel : Prop :=
  ∀ (i : Instr) (s : State), ∃ t t', exec i s = .next t ∧ exec i { s with cfg := s.cfg ^^^ 0x200 } = .next t' ∧
    t.lastStatus = t'.lastStatus ∧ t.response.map (·.out) = t'.response.map (·.out) ∧
    (¬ (i = .encDb3 ∧ s.cfg.getLsbD 9 = true) → t.response.map (·.ann) = some [])

/-- AMI alternation: consecutive marks have opposite polarity, and the first mark has polarity −sp (R142). -/
def Obligations.AmiMarksAlternate : Prop :=
  ∀ (s t : State) (out : List Byte) (ann : List Annotation),
    exec .encAmi s = .next t → t.response = some ⟨.ok, out, ann⟩ →
    let S := cfgSamples s.cfg
    (∀ (j : Nat) (d : Sign), out[j * S]? = some (sampleByte d.level) → (∀ k, k < j → out[k * S]? = some 0x00) →
      d = (cfgPolarity s.cfg).negate) ∧
    (∀ (i j : Nat) (a d : Sign), i < j → out[i * S]? = some (sampleByte a.level) →
      out[j * S]? = some (sampleByte d.level) → (∀ k, i < k → k < j → out[k * S]? = some 0x00) → d = a.negate)

/-- Differential Manchester transitions at S = 2: always at mid-bit, and at the boundary exactly before a 0, with the level
before the first bit read as sp (R155). -/
def Obligations.DiffManchesterTransitions : Prop :=
  ∀ (s t : State) (out : List Byte) (ann : List Annotation),
    exec .encDiffManchester s = .next t → t.response = some ⟨.ok, out, ann⟩ → cfgSamples s.cfg = 2 →
    ∀ k, k < s.inp.length →
      let before := if k = 0 then some (sampleByte (cfgPolarity s.cfg).level) else out[2 * k - 1]?
      out[2 * k]? ≠ out[2 * k + 1]? ∧ (out[2 * k]? ≠ before ↔ s.inp[k]? = some 0x00)

/-- The MLT-3 cycle: a 1 always changes the level and a 0 never does; the levels follow 0, −sp, 0, sp and never step between −1
and +1 directly (R160). The level before the first bit is 0. -/
def Obligations.Mlt3FollowsCycle : Prop :=
  ∀ (s t : State) (bs : List Bit) (out : List Byte) (ann : List Annotation),
    s.inp = bitElements bs → exec .encMlt3 s = .next t → t.response = some ⟨.ok, out, ann⟩ →
    let S := cfgSamples s.cfg
    let sp := cfgPolarity s.cfg
    ∀ k, k < bs.length →
      let before := if k = 0 then some 0x00 else out[(k - 1) * S]?
      out[k * S]? = some (sampleByte (mlt3Cycle sp (onesBefore bs (k + 1)))) ∧
      (isOne bs k = true ↔ out[k * S]? ≠ before) ∧
      (∀ a : Sign, before = some (sampleByte a.level) → out[k * S]? ≠ some (sampleByte a.negate.level))

/-! Laws of DB3 output. -/

/-- The zero-run bound: no four zero symbols in a row, so no 3×S + 1 zero samples in a row; and runs of three do occur, from
three data zeros and from the zeros of an even template (R224). -/
def Obligations.Db3ZeroRunBound : Prop :=
  (∀ (s t : State) (out : List Byte) (ann : List Annotation),
    exec .encDb3 s = .next t → t.response = some ⟨.ok, out, ann⟩ →
    let S := cfgSamples s.cfg
    (∀ k, k + 4 ≤ s.inp.length → ∃ j, j < 4 ∧ out[(k + j) * S]? ≠ some 0x00) ∧
    (∀ k, k + (3 * S + 1) ≤ out.length → ∃ j, j ≤ 3 * S ∧ out[k + j]? ≠ some 0x00)) ∧
  (∀ (s : State) (bs : List Bit), Instr.encDb3.wfCfg s.cfg = true → WithinCap s bs.length →
    bs = [false, false, false] ∨ bs = [false, false, false, false] →
    ∃ out ann, Responds (exec .encDb3 { s with inp := bitElements bs }) ⟨.ok, out, ann⟩ ∧
      ∀ k, k < 3 * cfgSamples s.cfg → out[k]? = some 0x00)

/-- The alternation law as it holds for DB3: consecutive data pulses alternate unless an odd template lies between them, and then
they are equal; at most one lies there, right after the first pulse. The first data pulse is −sp, and no odd template comes
before it (R225). Odd templates are seen by the Balancing records that the same command gives with EMIT_ANNOT = 1. -/
def Obligations.Db3DataPulsesAlternate : Prop :=
  ∀ (s : State) (bs : List Bit) (out : List Byte) (ann : List Annotation), Db3Writes s bs out ann →
    let S := cfgSamples s.cfg
    (∀ j, isOne bs j = true → onesBefore bs j = 0 →
      out[j * S]? = some (sampleByte (cfgPolarity s.cfg).negate.level) ∧
      ∀ x ∈ ann, x.position < j * S → x.kind = .violation) ∧
    (∀ i j, i < j → isOne bs i = true → isOne bs j = true → (∀ k, i < k → k < j → isOne bs k = false) →
      ∃ a d : Sign, out[i * S]? = some (sampleByte a.level) ∧ out[j * S]? = some (sampleByte d.level) ∧
        let odd := ann.filter fun x => x.kind == .balancing && decide (i * S < x.position ∧ x.position < j * S)
        (odd = [] → d = a.negate) ∧ (odd ≠ [] → d = a ∧ odd.map (·.position) = [(i + 1) * S]))

/-- Annotation consistency as it holds for DB3: every record is at the first sample of a pulse of its polarity that stands for a
0; a Balancing record repeats the data pulse right before it; the Violation record of an odd template is opposite to its
Balancing record; that of an even template repeats the last pulse before the template, or sp (R226). -/
def Obligations.Db3AnnotationConsistency : Prop :=
  ∀ (s t : State) (bs : List Bit) (out : List Byte) (ann : List Annotation),
    s.inp = bitElements bs → s.cfg.getLsbD 9 = true → exec .encDb3 s = .next t → t.response = some ⟨.ok, out, ann⟩ →
    let S := cfgSamples s.cfg
    ∀ x ∈ ann, ∃ k, k < bs.length ∧ x.position = k * S ∧ isOne bs k = false ∧
      out[k * S]? = some (sampleByte x.polarity.level) ∧
      (x.kind = .balancing →
        ∃ m, k = m + 1 ∧ isOne bs m = true ∧ out[m * S]? = some (sampleByte x.polarity.level)) ∧
      (x.kind = .violation → ∃ m, k = m + 3 ∧
        (⟨m * S, .balancing, x.polarity.negate⟩ ∈ ann ∨
          ((∀ y ∈ ann, y.position ≠ m * S) ∧
            x.polarity = lastMark (cfgPolarity s.cfg) (symbolsOf S out m))))

/-- Template placement: an odd template B 0 0 V starts right after a data pulse of polarity B; an even template 0 0 0 V starts at
symbol 0, right after a data pulse, or right after the V of an earlier template (R228). Templates are seen by the annotations
that the same command gives with EMIT_ANNOT = 1. -/
def Obligations.Db3TemplatePlacement : Prop :=
  ∀ (s : State) (bs : List Bit) (out : List Byte) (ann : List Annotation), Db3Writes s bs out ann →
    let S := cfgSamples s.cfg
    (∀ (m : Nat) (B : Sign), ⟨m * S, .balancing, B⟩ ∈ ann →
      0 < m ∧ isOne bs (m - 1) = true ∧ out[(m - 1) * S]? = some (sampleByte B.level) ∧
      out[m * S]? = some (sampleByte B.level) ∧ out[(m + 1) * S]? = some 0x00 ∧ out[(m + 2) * S]? = some 0x00 ∧
      out[(m + 3) * S]? = some (sampleByte B.negate.level) ∧ ⟨(m + 3) * S, .violation, B.negate⟩ ∈ ann) ∧
    (∀ (m : Nat) (V : Sign), ⟨(m + 3) * S, .violation, V⟩ ∈ ann → (∀ B, ⟨m * S, .balancing, B⟩ ∉ ann) →
      out[m * S]? = some 0x00 ∧ out[(m + 1) * S]? = some 0x00 ∧ out[(m + 2) * S]? = some 0x00 ∧
      out[(m + 3) * S]? = some (sampleByte V.level) ∧
      (m = 0 ∨ isOne bs (m - 1) = true ∨ ∃ V', ⟨(m - 1) * S, .violation, V'⟩ ∈ ann))

/-- The pending-buffer realisation gives the same symbols and annotations, holds at most three zeros back, never takes a
released symbol back; and symbol k is final once bit k+3 has been processed (R212). -/
def Obligations.Db3PendingBufferGivesSameSymbols : Prop :=
  ∀ (p : Params) (sp : Sign) (bs more : List Bit),
    let w := db3EncLoop p bs (resetWork sp)
    let d := streamRun p bs (streamStart sp)
    streamSymbols d = w.sym ∧ d.ann = w.ann ∧ d.held = w.zrc.val ∧ d.held ≤ 3 ∧
    d.released <+: (streamRun p (bs ++ more) (streamStart sp)).released ∧
    ∀ k, k + 3 < bs.length → (db3EncLoop p (bs ++ more) (resetWork sp)).sym[k]? = w.sym[k]?

/-- The DB3 decoder tracks the encoder: after the symbols of any bit sequence it is in NORMAL with the encoder's POL, PSS and
ZRC, and it has given exactly those bits (R215). -/
def Obligations.Db3DecoderTracksEncoder : Prop :=
  ∀ (p : Params) (sp : Sign) (bs : List Bit),
    let e := db3EncLoop p bs (resetWork sp)
    ∃ d, processDecode db3DecStep (e.sym.map fun l => ⟨l, l⟩) (resetWork sp) = .ok d ∧
      d.dmode = .normal ∧ d.pol = e.pol ∧ d.pss = e.pss ∧ d.zrc = e.zrc ∧ d.out = bitElements bs

/-- The DB3 encoder's registers after any bit sequence: ZRC counts the zeros since the last data pulse or substitution, and as
many symbols at the end of SYM are zeros; POL is the last mark's polarity, or sp; SYM has one symbol per bit
(R30, R33, R37, R202). -/
def Obligations.Db3RegistersDescribeSymbols : Prop :=
  ∀ (p : Params) (sp : Sign) (bs : List Bit),
    let w := db3EncLoop p bs (resetWork sp)
    w.zrc.val = trailingZeros bs % 4 ∧ w.sym.length = bs.length ∧ w.idx = bs.length ∧ w.pol = lastMark sp w.sym ∧
    w.zrc.val ≤ w.sym.length ∧ w.sym.drop (w.sym.length - w.zrc.val) = List.replicate w.zrc.val .zero

/-- No DC balance: 4k zero bits give k even templates, each with V of the starting polarity, so the sum of the output's levels
is k×S times sp, and no bound holds for all inputs (R227). -/
def Obligations.Db3HasNoDcBalance : Prop :=
  (∀ (s : State) (k : Nat), Instr.encDb3.wfCfg s.cfg = true → WithinCap s s.inp.length →
    s.inp = List.replicate (4 * k) 0x00 →
    let S := cfgSamples s.cfg
    let V := (cfgPolarity s.cfg).level
    ∃ out ann, Responds (exec .encDb3 s) ⟨.ok, out, ann⟩ ∧
      out = symbolSamples S (List.replicate k [.zero, .zero, .zero, V]).flatten ∧
      levelSum out = V.val * (k * S)) ∧
  (∀ bound : Nat, ∃ (s : State) (out : List Byte) (ann : List Annotation),
    Responds (exec .encDb3 s) ⟨.ok, out, ann⟩ ∧ bound < (levelSum out).natAbs)
end

