-- ==== Sys2Proof/Tests/Slice0.lean ====
section
/-! SUPPORT. The model's own tests. Expected values come from the worked examples W<n>, the vectors V<n> and the programs P<n> of
spec/95_test_vectors.md, or are written out from the encodings of spec/30_encoding.md; each test names its source. The last part
holds, for every statement with hypotheses, a witness: a state and operands that meet them together. -/

namespace Sys2Proof.Tests

open Sys2Proof Sys2Proof.Machine

/-- The power-on state with the operands of one command taken. -/
def given (cmd : Byte) (cfg : Word32) (inp : List Byte) : State := accept ⟨cmd, cfg, inp⟩ [] State.reset

/-- The response of a command that is the first after power-on, under a length cap. -/
def answerCapped (cap : Option Nat) (cmd : Byte) (cfg : Word32) (inp : List Byte) : Option Response :=
  match step (issue ⟨cmd, cfg, inp⟩ (setLengthCap cap State.reset)) with
  | .next t => t.response
  | .fault _ => none
  | .refused _ => none

/-- The same without a cap. -/
def answer (cmd : Byte) (cfg : Word32) (inp : List Byte) : Option Response := answerCapped none cmd cfg inp

/-- Success with the given data. -/
def ok (out : List Byte) (ann : List Annotation := []) : Option Response := some ⟨.ok, out, ann⟩

/-- Failure: no data. -/
def failed (st : Status) : Option Response := some ⟨st, [], []⟩

/-- The working state that a command leaves. -/
def workAfter (cmd : Byte) (cfg : Word32) (inp : List Byte) : Option Work :=
  match step (issue ⟨cmd, cfg, inp⟩ State.reset) with
  | .next t => some t.work
  | .fault _ => none
  | .refused _ => none

/-! Well-formedness: each check refuses an ill-formed term. -/

theorem test_wf_accepts : Instr.decDb3.wf 0x00000201 [0x01, 0xFF, 0x00] = true ∧ Instr.encRz.wf 0x000003FE [0x01, 0x00] = true := by
  decide
theorem test_wf_refuses_reserved_bit : Instr.encNrz.wfCfg 0x00000402 = false ∧ wfReservedClear 0x80000002 = false := by decide
theorem test_wf_refuses_zero_samples : Instr.encNrz.wfCfg 0x00000100 = false ∧ wfSpbPositive 0x00000100 = false := by decide
theorem test_wf_refuses_odd_samples : Instr.encRz.wfCfg 0x00000003 = false ∧ wfSpbEven .rz 0x00000003 = false ∧
    wfSpbEven .nrz 0x00000003 = true := by decide
theorem test_wf_refuses_encode_element : Instr.encNrz.wfInput 0x00000002 [0x00, 0x02] = false ∧ wfBits [0xFF] = false := by decide
theorem test_wf_refuses_decode_element : Instr.decDb3.wfInput 0x00000001 [0x02] = false ∧ wfLevels [0x80] = false := by decide
theorem test_wf_refuses_broken_cell : Instr.decNrz.wfInput 0x00000002 [0x01] = false ∧ wfWholeCells 0x00000003 [0x01, 0x01] = false := by
  decide
theorem test_wf_refuses_command_word : wfCmd 0x08 = false ∧ wfCmd 0x1F = false ∧ wfCmd 0x20 = false ∧ wfCmd 0x80 = false ∧
    wfCmd 0x17 = true := by decide
theorem test_wf_whole_term_refused : Instr.encNrz.wf 0x00000000 [] = false ∧ Instr.encNrz.wf 0x00000002 [0x02] = false := by decide

/-! Decoding: RSV ‖ DIR ‖ SCHEME written out from R70 to R72. -/

theorem test_decode_nrz : decode 0b00000000 = .ok .encNrz ∧ decode 0b00010000 = .ok .decNrz := ⟨rfl, rfl⟩
theorem test_decode_rz : decode 0b00000001 = .ok .encRz ∧ decode 0b00010001 = .ok .decRz := ⟨rfl, rfl⟩
theorem test_decode_ami : decode 0b00000010 = .ok .encAmi ∧ decode 0b00010010 = .ok .decAmi := ⟨rfl, rfl⟩
theorem test_decode_cmi : decode 0b00000011 = .ok .encCmi ∧ decode 0b00010011 = .ok .decCmi := ⟨rfl, rfl⟩
theorem test_decode_manchester : decode 0b00000100 = .ok .encManchester ∧ decode 0b00010100 = .ok .decManchester := ⟨rfl, rfl⟩
theorem test_decode_diffManchester : decode 0b00000101 = .ok .encDiffManchester ∧ decode 0b00010101 = .ok .decDiffManchester :=
  ⟨rfl, rfl⟩
theorem test_decode_mlt3 : decode 0b00000110 = .ok .encMlt3 ∧ decode 0b00010110 = .ok .decMlt3 := ⟨rfl, rfl⟩
theorem test_decode_db3 : decode 0b00000111 = .ok .encDb3 ∧ decode 0b00010111 = .ok .decDb3 := ⟨rfl, rfl⟩
theorem test_decode_rejects : decode 0b00001000 = .error .unknownScheme ∧ decode 0b00011111 = .error .unknownScheme ∧
    decode 0b00100000 = .error .reservedBitsSet ∧ decode 0b10010111 = .error .reservedBitsSet := ⟨rfl, rfl, rfl, rfl⟩
theorem test_decodeTableWord : decodeTableWord 8 0x17 = some .decDb3 ∧ decodeTableWord 8 0x27 = none ∧
    decodeTableWord 16 0x17 = none := by decide

/-- R76's sixteen words as the first command after power-on: each runs, and succeeds on the empty input (W2). -/
theorem test_every_word_runs_first :
    ([0, 1, 2, 3, 4, 5, 6, 7, 16, 17, 18, 19, 20, 21, 22, 23].all fun w =>
      match step (State.reset.withFetchWord 8 w) with
      | .next t => t.response == some ⟨.ok, [], []⟩ && t.cmd == BitVec.ofNat 8 w && t.cfg == 0x00000002 && t.pending.isEmpty
      | .fault _ => false
      | .refused _ => false) = true := by decide

/-! One command each, ENC.X then DEC.X. -/

/-- V12, V27. -/
theorem test_encNrz : answer 0x00 0x00000003 [1, 0] = ok [1, 1, 1, 0, 0, 0] ∧
    answer 0x00 0x00000102 [1, 1, 0, 1] = ok [1, 1, 1, 1, 0, 0, 1, 1] := by decide
/-- V31, V32, V7. -/
theorem test_encRz : answer 0x01 0x00000002 [1, 0, 1, 1, 0] = ok [1, 0, 0, 0, 1, 0, 1, 0, 0, 0] ∧
    answer 0x01 0x00000004 [0, 1, 1] = ok [0, 0, 0, 0, 1, 1, 0, 0, 1, 1, 0, 0] ∧
    answer 0x01 0x00000003 [1] = failed .invalidConfig := by decide
/-- V38, V39. -/
theorem test_encAmi : answer 0x02 0x00000001 [0, 1, 1] = ok [0, 1, 0xFF] ∧
    answer 0x02 0x00000102 [1, 1, 0, 1] = ok [0xFF, 0xFF, 1, 1, 0, 0, 0xFF, 0xFF] := by decide
/-- V46, V47. -/
theorem test_encCmi : answer 0x03 0x00000004 [0, 1, 1] = ok [0, 0, 1, 1, 1, 1, 1, 1, 0xFF, 0xFF, 0xFF, 0xFF] ∧
    answer 0x03 0x00000102 [1, 1, 0, 1] = ok [0xFF, 0xFF, 1, 1, 0, 1, 0xFF, 0xFF] := by decide
/-- V52, V53. -/
theorem test_encManchester : answer 0x04 0x00000002 [1, 0, 1, 1, 0] = ok [0, 1, 1, 0, 0, 1, 0, 1, 1, 0] ∧
    answer 0x04 0x00000004 [0, 1, 1] = ok [1, 1, 0, 0, 0, 0, 1, 1, 0, 0, 1, 1] := by decide
/-- V59, V60. -/
theorem test_encDiffManchester :
    answer 0x05 0x00000004 [0, 1, 1] = ok [1, 1, 0xFF, 0xFF, 0xFF, 0xFF, 1, 1, 1, 1, 0xFF, 0xFF] ∧
    answer 0x05 0x00000102 [1, 1, 0, 1] = ok [1, 0xFF, 0xFF, 1, 0xFF, 1, 1, 0xFF] := by decide
/-- V68, W11. -/
theorem test_encMlt3 : answer 0x06 0x00000102 [1, 1, 0, 1] = ok [0xFF, 0xFF, 0, 0, 0, 0, 1, 1] ∧
    answer 0x06 0x00000001 [1, 1, 1, 1] = ok [1, 0, 0xFF, 0] := by decide
/-- V79, V83, V89. -/
theorem test_encDb3 :
    answer 0x07 0x00000201 [1, 0, 0, 0, 0, 0, 0, 0, 0] =
      ok [1, 1, 0, 0, 0xFF, 0, 0, 0, 0xFF] [⟨1, .balancing, .plus⟩, ⟨4, .violation, .minus⟩, ⟨8, .violation, .minus⟩] ∧
    answer 0x07 0x00000202 [1, 0, 0, 0, 0] =
      ok [1, 1, 1, 1, 0, 0, 0, 0, 0xFF, 0xFF] [⟨2, .balancing, .plus⟩, ⟨8, .violation, .minus⟩] ∧
    answer 0x07 0x00000201 [1, 1, 0, 0, 0, 0, 0, 0, 0, 0] =
      ok [1, 0xFF, 0, 0, 0, 0xFF, 0, 0, 0, 0xFF] [⟨5, .violation, .minus⟩, ⟨9, .violation, .minus⟩] := by decide
/-- V80, V87: at most three trailing zeros stay; no annotations without EMIT_ANNOT. -/
theorem test_encDb3_pending : answer 0x07 0x00000001 [1, 0, 0, 0] = ok [1, 0, 0, 0] ∧
    answer 0x07 0x00000002 [0, 0, 0, 0, 0] = ok [0, 0, 0, 0, 0, 0, 0xFF, 0xFF, 0, 0] := by decide
/-- V28, V29, V30. -/
theorem test_decNrz : answer 0x10 0x00000002 [1, 1, 0, 0, 1, 1, 1, 1, 0, 0] = ok [1, 0, 1, 1, 0] ∧
    answer 0x10 0x00000002 [0xFF, 0xFF] = failed .malformedSymbolSequence ∧
    answer 0x10 0x00000002 [1, 0] = failed .malformedSymbolSequence := by decide
/-- V33, V34, V36. -/
theorem test_decRz : answer 0x11 0x00000002 [1, 0, 0, 0, 1, 0, 1, 0, 0, 0] = ok [1, 0, 1, 1, 0] ∧
    answer 0x11 0x00000002 [0, 1] = failed .malformedSymbolSequence ∧
    answer 0x11 0x00000004 [1, 1, 0, 1] = failed .malformedSymbolSequence := by decide
/-- V40, V41, V42, V43. -/
theorem test_decAmi : answer 0x12 0x00000002 [1, 1, 0, 0, 0xFF, 0xFF, 1, 1, 0, 0] = ok [1, 0, 1, 1, 0] ∧
    answer 0x12 0x00000002 [1, 1, 1, 1] = failed .malformedSymbolSequence ∧
    answer 0x12 0x00000002 [0xFF, 0xFF] = failed .malformedSymbolSequence ∧
    answer 0x12 0x00000102 [0xFF, 0xFF] = ok [1] := by decide
/-- V48, V49, V51. -/
theorem test_decCmi : answer 0x13 0x00000002 [1, 1, 0, 1, 0xFF, 0xFF, 1, 1, 0, 1] = ok [1, 0, 1, 1, 0] ∧
    answer 0x13 0x00000002 [0xFF, 1] = failed .malformedSymbolSequence ∧
    answer 0x13 0x00000002 [1, 1, 1, 1] = failed .malformedSymbolSequence := by decide
/-- V54, V55, V57. -/
theorem test_decManchester : answer 0x14 0x00000002 [0, 1, 1, 0, 0, 1, 0, 1, 1, 0] = ok [1, 0, 1, 1, 0] ∧
    answer 0x14 0x00000002 [1, 1] = failed .malformedSymbolSequence ∧
    answer 0x14 0x00000002 [0xFF, 0] = failed .malformedSymbolSequence := by decide
/-- V61, V62, V64, V65. -/
theorem test_decDiffManchester :
    answer 0x15 0x00000002 [0xFF, 1, 0xFF, 1, 1, 0xFF, 0xFF, 1, 0xFF, 1] = ok [1, 0, 1, 1, 0] ∧
    answer 0x15 0x00000002 [1, 0xFF] = ok [0] ∧
    answer 0x15 0x00000002 [1, 1] = failed .malformedSymbolSequence ∧
    answer 0x15 0x00000002 [0, 0] = failed .malformedSymbolSequence := by decide
/-- V69, V71, V72, V73. -/
theorem test_decMlt3 : answer 0x16 0x00000002 [1, 1, 1, 1, 0, 0, 0xFF, 0xFF, 0xFF, 0xFF] = ok [1, 0, 1, 1, 0] ∧
    answer 0x16 0x00000002 [1, 1, 0xFF, 0xFF] = failed .malformedSymbolSequence ∧
    answer 0x16 0x00000002 [1, 1, 0, 0, 1, 1] = failed .malformedSymbolSequence ∧
    answer 0x16 0x00000102 [0xFF, 0xFF] = ok [1] := by decide
/-- V91, V92, V94, V96, V99. -/
theorem test_decDb3 : answer 0x17 0x00000001 [1, 0, 0, 0, 0xFF] = ok [1, 0, 0, 0, 1] ∧
    answer 0x17 0x00000001 [0, 0, 0, 0xFF] = ok [0, 0, 0, 0] ∧
    answer 0x17 0x00000101 [0, 0, 0, 1] = ok [0, 0, 0, 0] ∧
    answer 0x17 0x00000001 [1, 1, 0, 0, 0xFF, 1] = ok [1, 0, 0, 0, 0, 1] ∧
    answer 0x17 0x00000002 [1, 1, 1, 1, 0, 0, 0, 0, 0xFF, 0xFF] = ok [1, 0, 0, 0, 0] := by decide
/-- V101, V102, V103, V104, V105, V106, V107, V108, V109. -/
theorem test_decDb3_rejects : answer 0x17 0x00000001 [0, 0, 0, 0] = failed .invalidSubstitutionPattern ∧
    answer 0x17 0x00000001 [1, 1, 0, 0] = failed .invalidSubstitutionPattern ∧
    answer 0x17 0x00000001 [1, 0, 1] = failed .invalidSubstitutionPattern ∧
    answer 0x17 0x00000001 [1, 1, 0, 1, 0xFF] = failed .invalidSubstitutionPattern ∧
    answer 0x17 0x00000001 [1, 0, 0, 1] = failed .invalidSubstitutionPattern ∧
    answer 0x17 0x00000001 [1, 1, 1, 0, 0, 0xFF] = failed .invalidSubstitutionPattern ∧
    answer 0x17 0x00000001 [1, 0, 0, 0, 1] = failed .invalidSubstitutionPattern ∧
    answer 0x17 0x00000001 [1, 1] = failed .invalidSubstitutionPattern ∧
    answer 0x17 0x00000001 [0xFF] = failed .invalidSubstitutionPattern := by decide

/-! What every command shares. -/

/-- V1, V3, V4, V6: a rejected command word. -/
theorem test_unsupported_scheme : answer 0x08 0x00000002 [0, 1] = failed .unsupportedScheme ∧
    answer 0x18 0x00000002 [0, 1] = failed .unsupportedScheme ∧ answer 0x20 0x00000002 [0, 1] = failed .unsupportedScheme ∧
    answer 0xFF 0x00000002 [0, 1] = failed .unsupportedScheme := by decide
/-- V8, V9, V10, V11: phase B. -/
theorem test_invalid_config : answer 0x13 0x00000001 [0, 1] = failed .invalidConfig ∧
    answer 0x00 0x00000000 [1] = failed .invalidConfig ∧ answer 0x00 0x00000400 [1] = failed .invalidConfig ∧
    answer 0x17 0x80000002 [] = failed .invalidConfig := by decide
/-- V13: the widest bit, with EMIT_ANNOT ignored outside ENC.DB3. -/
theorem test_widest_bit : answer 0x06 0x000003FF [1] = ok (List.replicate 255 0xFF) := by decide +kernel
/-- V15, V16, V17, V18: the length cap counts elements of IN. -/
theorem test_length_cap : answerCapped (some 4) 0x00 0x00000002 [1, 0, 1, 1, 0] = failed .inputTooLong ∧
    answerCapped (some 4) 0x00 0x00000002 [1, 0, 1, 1] = ok [1, 1, 0, 0, 1, 1, 1, 1] ∧
    answerCapped (some 4) 0x10 0x00000002 [1, 1, 0, 0, 1] = failed .inputTooLong ∧
    answerCapped (some 4) 0x10 0x00000002 [1, 1, 0, 0] = ok [1, 0] := by decide
/-- V19, V20, W4, V111, V112: phase D. -/
theorem test_input_validation : answer 0x00 0x00000002 [255] = failed .invalidBit ∧
    answer 0x07 0x00000002 [1, 0, 128] = failed .invalidBit ∧
    answer 0x17 0x00000002 [2, 0, 0, 0] = failed .malformedSymbolSequence ∧
    answer 0x17 0x00000002 [1, 1, 0] = failed .malformedSymbolSequence ∧
    answer 0x17 0x00000002 [1, 0xFF] = failed .malformedSymbolSequence := by decide
/-- V21, V22, V23, V24: the phase order decides among several errors (R258). -/
theorem test_error_priority : answer 0x08 0x00000000 [2] = failed .unsupportedScheme ∧
    answer 0x01 0x00000003 [2] = failed .invalidConfig ∧
    answerCapped (some 2) 0x00 0x00000002 [2, 2, 2] = failed .inputTooLong ∧
    answer 0x17 0x00000001 [0, 0, 0, 0, 2] = failed .malformedSymbolSequence := by decide
/-- P1.1 just before commit (POL, ZRC, PSS), and P3.3 at the end (MLV, MLT). -/
theorem test_registers_at_the_end :
    (workAfter 0x07 0x00000201 [1, 0, 0, 0, 0, 1, 0, 0, 0, 0, 0]).map (fun w => (w.pol, w.zrc, w.pss)) =
      some (.minus, 1, 0) ∧
    (workAfter 0x06 0x00000001 [1, 1, 1, 1, 1]).map (fun w => (w.mlv, w.mlt)) = some (.plus, .minus) := by decide
/-- P1.1: the packed annotations. -/
theorem test_packed_annotations :
    ([⟨1, .balancing, .plus⟩, ⟨4, .violation, .minus⟩, ⟨6, .balancing, .plus⟩, ⟨9, .violation, .minus⟩] : List Annotation).map
      packAnnotation = [some 0xC0000001, some 0x00000004, some 0xC0000006, some 0x00000009] := by decide
/-- P2.4: a command starts from the per-command reset, whatever the working registers held. -/
theorem test_commands_are_independent :
    (match step (issue ⟨0x02, 0x00000002, [1, 0, 1]⟩
        { State.reset with work := { State.reset.work with pol := .plus, zrc := 3, dmode := .afterB2, out := [1] } }) with
      | .next t => t.response
      | .fault _ => none
      | .refused _ => none) = ok [1, 1, 0, 0, 0xFF, 0xFF] := by decide
/-- P1.1 and P3.6 as bytes. -/
theorem test_frame : encodeFrame ⟨0x07, 0x00000201, [1, 0]⟩ = [0x07, 0x01, 0x02, 0x00, 0x00, 0x01, 0x00] ∧
    decodeFrame [0x13, 0x03, 0x00, 0x00, 0x00, 0x00, 0x01] = some ⟨0x13, 0x00000003, [0, 1]⟩ ∧ decodeFrame [0x13, 0x03] = none := by
  decide
/-- R12, R60: element writes overwrite or append, and no other index exists. -/
theorem test_memory_elements : memWrite [1, 0] 1 0xFF = some [1, 0xFF] ∧ memWrite [1, 0] 2 0xFF = some [1, 0, 0xFF] ∧
    memWrite [1, 0] 3 0xFF = none ∧ memRead [1, 0] 2 = none := by decide
/-- R79, R80 with P4.1: the textual form, with the default word. -/
theorem test_assembler :
    assemble ⟨.encCmi, .options none none none, [1, 1, 0]⟩ = some ⟨0x03, 0x00000002, [1, 1, 0]⟩ ∧
    asmCfgWord (.options (some 1) (some .plus) (some true)) = 0x00000301 ∧
    assemble ⟨.decNrz, .word 2, [-1, -1]⟩ = some ⟨0x10, 0x00000002, [0xFF, 0xFF]⟩ ∧
    assemble ⟨.encNrz, .word 2, [256]⟩ = none := by decide
/-- R79: the text itself. -/
theorem test_text : commandText ⟨.decNrz, .word 0x0000001A, [-1, 0]⟩ = "DEC.NRZ cfg=0x0000001A, in=[-1, 0]" ∧
    responseText ⟨.ok, [1, 0xFF], []⟩ = "-> status=OK, out=[1, -1], ann=[]" := by decide +kernel
/-- R286: after three zeros the pending-buffer encoder has released nothing, after the fourth all four symbols. -/
theorem test_stream : streamRun ⟨1, .minus, true⟩ [false, false, false] (streamStart .minus) = ⟨[], 3, .minus, 0, []⟩ ∧
    streamRun ⟨1, .minus, true⟩ [false, false, false, false] (streamStart .minus) =
      ⟨[.zero, .zero, .zero, .minus], 0, .minus, 0, [⟨3, .violation, .minus⟩]⟩ := by decide
/-- The idle core, and the host reading its results: before any command there is nothing to read (R61). -/
theorem test_host_view : hostReadOut State.reset = none ∧ hostReadStatus State.reset = 0 ∧
    hostReadOut { State.reset with response := some ⟨.ok, [1], []⟩ } = some [1] ∧
    hostReadOut { State.reset with response := some ⟨.invalidBit, [], []⟩ } = none := by decide

/-! Witnesses: for each statement with hypotheses, and for each of its clauses, a state and operands that meet them. -/

/-- A cap that `n` elements pass. -/
theorem within {s : State} {n : Nat} (h : s.maxInputLen.all (fun cap => decide (n ≤ cap)) = true) : WithinCap s n := by
  intro cap hc
  simpa [hc] using h

/-- A cap that `n` elements exceed. -/
theorem beyond {s : State} {n : Nat} (h : s.maxInputLen.any (fun cap => decide (cap < n)) = true) : ¬ WithinCap s n := by
  intro hw
  cases hc : s.maxInputLen with
  | none => simp [hc] at h
  | some cap => have := hw cap hc; simp [hc] at h; omega

/-- `given` with a length cap of exactly the input's length. -/
def givenAtCap (cmd : Byte) (cfg : Word32) (inp : List Byte) : State := setLengthCap (some inp.length) (given cmd cfg inp)

/-- A working state with a mark of +1 last sent and the given run length, pulse count and decoder mode. -/
def midWork (zrc : Fin 4) (pss : Nat) (dmode : DMode) : Work :=
  { resetWork .plus with zrc := zrc, pss := pss, dmode := dmode, sym := [.plus, .zero, .zero, .zero] }

theorem witness_StepKeepsInvariant :
    ∃ s t, MachineInv s ∧ step s = .next t ∧ t.response = some ⟨.ok, [1, 1], []⟩ :=
  ⟨issue ⟨0x02, 0x00000002, [1]⟩ State.reset, _, ⟨by decide, by decide⟩, rfl, rfl⟩

theorem witness_StepRunsDecodedCommand :
    ∃ (s : State) (o : Operands) (rest : List Request) (i : Instr), s.pending = ⟨o, .waits⟩ :: rest ∧ decode o.cmd = .ok i :=
  ⟨issue ⟨0x17, 0x00000001, [1]⟩ State.reset, ⟨0x17, 0x00000001, [1]⟩, [], .decDb3, rfl, rfl⟩

theorem witness_UnsupportedWord_scheme :
    ∃ (s : State) (o : Operands) (rest : List Request), s.pending = ⟨o, .waits⟩ :: rest ∧
      8 ≤ (o.cmd.extractLsb' 0 4).toNat ∧ o.cmd.extractLsb' 5 3 = 0 :=
  ⟨issue ⟨0x08, 0x00000002, [0, 1]⟩ State.reset, ⟨0x08, 0x00000002, [0, 1]⟩, [], rfl, by decide, by decide⟩

theorem witness_UnsupportedWord_reserved :
    ∃ (s : State) (o : Operands) (rest : List Request), s.pending = ⟨o, .waits⟩ :: rest ∧
      o.cmd.extractLsb' 5 3 ≠ 0 ∧ (o.cmd.extractLsb' 0 4).toNat < 8 :=
  ⟨issue ⟨0x27, 0x00000002, [0, 1]⟩ State.reset, ⟨0x27, 0x00000002, [0, 1]⟩, [], rfl, by decide, by decide⟩

theorem witness_UndisciplinedHost (c : Conduct) :
    ∃ (s : State) (o : Operands) (rest : List Request), s.pending = ⟨o, c⟩ :: rest :=
  ⟨{ State.reset with pending := [⟨⟨0x00, 0x00000002, [1]⟩, c⟩] }, _, _, rfl⟩

theorem witness_DisciplinedHost : ∃ s : State, HostDisciplined s ∧ s.pending ≠ [] :=
  ⟨issue ⟨0x00, 0x00000002, [1]⟩ State.reset, by unfold HostDisciplined; decide, by decide⟩

theorem witness_InstancesShareNothing :
    ∃ (ps qs : List State) (k j : Nat) (s : State), platformStep k ps = .next qs ∧ j ≠ k ∧ ps[k]? = some s ∧ ps[j]?.isSome :=
  ⟨[State.reset, issue ⟨0x00, 0x00000002, [1]⟩ State.reset], _, 1, 0, _, rfl, by decide, rfl, rfl⟩

theorem witness_ResponseDependsOnOperandsOnly :
    ∃ (s₁ s₂ : State) (o : Operands) (rest₁ rest₂ : List Request), s₁.pending = ⟨o, .waits⟩ :: rest₁ ∧
      s₂.pending = ⟨o, .waits⟩ :: rest₂ ∧ s₁.maxInputLen = s₂.maxInputLen ∧ s₁.work ≠ s₂.work ∧ rest₁ ≠ rest₂ :=
  ⟨issue ⟨0x02, 0x00000002, [1]⟩ State.reset,
    issue ⟨0x03, 0x00000002, []⟩ (issue ⟨0x02, 0x00000002, [1]⟩ { State.reset with work := resetWork .plus }),
    ⟨0x02, 0x00000002, [1]⟩, _, _, rfl, rfl, rfl, by decide, by decide⟩

theorem witness_CommandWordMap_rest :
    ((0x08 : Byte).toNat = 0x08 ∧ (0x0F : Byte).toNat = 0x0F) ∧ ((0x18 : Byte).toNat = 0x18 ∧ (0x1F : Byte).toNat = 0x1F) ∧
      0x20 ≤ (0x20 : Byte).toNat ∧ 0x20 ≤ (0xFF : Byte).toNat := by decide

theorem witness_PackedAnnotation :
    (∃ a : Annotation, a.position < 2 ^ 30 ∧ ¬ a.position + 1 < 2 ^ 30) ∧ ∃ a : Annotation, 2 ^ 30 ≤ a.position ∧ a.position ≤ 2 ^ 30 :=
  ⟨⟨⟨2 ^ 30 - 1, .balancing, .plus⟩, by decide, by decide⟩, ⟨2 ^ 30, .violation, .minus⟩, by decide, by decide⟩

theorem witness_ConfigurationCheck :
    (0x00000402 : Word32).extractLsb' 10 22 ≠ 0 ∧ ((0x00000100 : Word32).extractLsb' 0 8).toNat = 0 ∧
      (Scheme.rz.wfTwoCell = true ∧ ((0x000000FF : Word32).extractLsb' 0 8).toNat % 2 = 1) ∧
      ¬ ((0x000003FF : Word32).extractLsb' 10 22 ≠ 0 ∨ ((0x000003FF : Word32).extractLsb' 0 8).toNat = 0 ∨
        (Scheme.db3.wfTwoCell = true ∧ ((0x000003FF : Word32).extractLsb' 0 8).toNat % 2 = 1)) := by decide

theorem witness_MapperExpands : (∃ S : Nat, S % 2 = 0 ∧ 0 < S ∧ S ≤ 255) ∧ ∃ S : Nat, S % 2 = 1 ∧ S ≤ 255 :=
  ⟨⟨254, by decide⟩, 255, by decide⟩

theorem witness_MapperCollapses_constant :
    ∃ (sch : Scheme) (S : Nat) (v : List Level), 0 < S ∧ (sch.wfTwoCell = true → S % 2 = 0) ∧ v.length % S = 0 ∧
      constantCells sch S v ∧ 0 < v.length / S :=
  ⟨.rz, 2, [.plus, .zero, .zero, .zero], by decide, by decide, by decide, by unfold constantCells; decide, by decide⟩

theorem witness_MapperCollapses_full :
    ∃ (sch : Scheme) (S : Nat) (v : List Level), 0 < S ∧ sch.wfTwoCell = false ∧ v.length % S = 0 ∧
      constantCells sch S v ∧ 0 < v.length / S :=
  ⟨.ami, 3, [.minus, .minus, .minus], by decide, by decide, by decide, by unfold constantCells; decide, by decide⟩

theorem witness_MapperCollapses_broken :
    ∃ (sch : Scheme) (S : Nat) (v : List Level), 0 < S ∧ (sch.wfTwoCell = true → S % 2 = 0) ∧ v.length % S = 0 ∧
      ¬ constantCells sch S v :=
  ⟨.rz, 4, [.plus, .plus, .zero, .plus], by decide, by decide, by decide, by unfold constantCells; decide⟩

theorem witness_EncodeOutcome :
    (∃ s : State, Instr.encRz.wfCfg s.cfg = false) ∧
    (∃ s : State, Instr.encRz.wfCfg s.cfg = true ∧ ¬ WithinCap s s.inp.length) ∧
    (∃ s : State, Instr.encRz.wfCfg s.cfg = true ∧ WithinCap s s.inp.length ∧ wfBits s.inp = false) ∧
    (∃ s : State, Instr.encRz.wfCfg s.cfg = true ∧ WithinCap s s.inp.length ∧ wfBits s.inp = true) :=
  ⟨⟨given 0x01 0x00000003 [1], by decide⟩,
    ⟨setLengthCap (some 2) (given 0x01 0x00000002 [1, 0, 1]), by decide, beyond (by decide)⟩,
    ⟨givenAtCap 0x01 0x00000002 [1, 2], by decide, within (by decide), by decide⟩,
    ⟨givenAtCap 0x01 0x00000002 [1, 0], by decide, within (by decide), by decide⟩⟩

theorem witness_DecodeOutcome_checks :
    (∃ s : State, Instr.decCmi.wfCfg s.cfg = false) ∧
    (∃ s : State, Instr.decCmi.wfCfg s.cfg = true ∧ ¬ WithinCap s s.inp.length) :=
  ⟨⟨given 0x13 0x00000001 [0, 1], by decide⟩,
    ⟨setLengthCap (some 1) (given 0x13 0x00000002 [0, 1]), by decide, beyond (by decide)⟩⟩

/-- Phase D refuses each of: a broken length, an element outside the alphabet, a cell that is not constant. -/
theorem witness_DecodeOutcome_phaseD :
    ¬ PassesPhaseD .nrz 2 [1] ∧ ¬ PassesPhaseD .nrz 1 [0xFF] ∧ ¬ PassesPhaseD .nrz 2 [1, 0] := by
  refine ⟨fun h => absurd h.1 (by decide), fun h => ?_, fun h => ?_⟩
  · rcases h.2.1 0xFF (by simp) with h | h <;> exact absurd h (by decide)
  · have := h.2.2 0 (by decide) 1 (by decide)
    simp [Scheme.wfTwoCell] at this

/-- Phase D passes, and the command then succeeds, fails as malformed, or fails as a bad substitution. -/
theorem witness_DecodeOutcome_passes :
    PassesPhaseD .ami 1 [1] ∧ answer 0x12 0x00000001 [1] = ok [1] ∧
    PassesPhaseD .ami 1 [0xFF] ∧ answer 0x12 0x00000001 [0xFF] = failed .malformedSymbolSequence ∧
    PassesPhaseD .db3 1 [0xFF] ∧ answer 0x17 0x00000001 [0xFF] = failed .invalidSubstitutionPattern := by
  refine ⟨⟨by decide, ?_, ?_⟩, by decide, ⟨by decide, ?_, ?_⟩, by decide, ⟨by decide, ?_, ?_⟩, by decide⟩ <;>
    first
      | (simp [inAlphabet]; done)
      | (unfold constantCells; decide)

theorem witness_FailedCommand : ∃ (i : Instr) (s t : State), exec i s = .next t ∧ t.lastStatus ≠ .ok :=
  ⟨.decAmi, given 0x12 0x00000001 [0xFF], _, rfl, by decide⟩

theorem witness_SuccessfulCommand :
    ∃ (s t : State), exec .encDb3 s = .next t ∧ t.lastStatus = .ok ∧ s.cfg.getLsbD 9 = true ∧ t.work.ann ≠ [] :=
  ⟨given 0x07 0x00000201 [0, 0, 0, 0], _, rfl, rfl, by decide, by decide⟩

theorem witness_EveryCommandCompletes :
    ∃ s t : State, exec .decDb3 s = .next t ∧ t.lastStatus = .ok ∧ t.work.idx * cfgSamples s.cfg = s.inp.length ∧ s.inp ≠ [] :=
  ⟨given 0x17 0x00000002 [1, 1, 0, 0], _, rfl, rfl, by decide, by decide⟩

/-- For EmptyInputGivesEmptyOutput and CommandStartsFromWorkingReset. -/
theorem witness_EmptyInput : ∃ (i : Instr) (s : State), i.wfCfg s.cfg = true ∧ s.inp = [] :=
  ⟨.encDiffManchester, given 0x05 0x000003FE [], by decide, rfl⟩

theorem witness_DiffManchesterSteps :
    (∃ h0 h1 : Sign, h1 = h0.negate) ∧ ∃ h0 h1 : Sign, h1 ≠ h0.negate :=
  ⟨⟨.plus, .minus, rfl⟩, .plus, .plus, by decide⟩

/-- The three decode clauses of Mlt3Steps, from MLV = 0 and from MLV = +1. -/
theorem witness_Mlt3Steps :
    let w := resetWork .minus
    let v := { resetWork .minus with mlv := .plus, mlt := .minus }
    (Level.zero = w.mlv ∧ Level.plus ≠ w.mlv ∧ Level.plus = w.mlt.level ∧ Level.minus ≠ w.mlv ∧ Level.minus ≠ w.mlt.level) ∧
      (Level.plus = v.mlv ∧ Level.zero ≠ v.mlv ∧ v.mlv ≠ .zero ∧ Level.minus ≠ v.mlv ∧ Level.minus ≠ .zero) := by decide

theorem witness_Db3EncodeSteps :
    (∃ z : Fin 4, z.val = (midWork 2 1 .normal).zrc.val + 1) ∧
      ((midWork 3 0 .normal).zrc = 3 ∧ (midWork 3 0 .normal).pss % 2 = 0) ∧
      ((midWork 3 1 .normal).zrc = 3 ∧ (midWork 3 1 .normal).pss % 2 = 1) := by decide

theorem witness_Db3DecodeSteps_normal :
    let w := midWork 3 0 .normal
    let v := midWork 0 1 .normal
    let u := midWork 3 1 .normal
    (w.dmode = .normal ∧ w.zrc = 3 ∧ Level.minus = w.pol.negate.level ∧ Level.plus = w.pol.level ∧ w.pss % 2 = 0) ∧
      (v.dmode = .normal ∧ v.zrc = 0 ∧ v.pss % 2 = 1 ∧ ∃ z : Fin 4, z.val = v.zrc.val + 1) ∧
      (u.dmode = .normal ∧ ¬ (u.zrc = 3 ∧ u.pss % 2 = 0) ∧ ¬ (u.zrc = 0 ∧ u.pss % 2 = 1)) := by decide

theorem witness_Db3DecodeSteps_template :
    (midWork 0 1 .afterB1).dmode = .afterB1 ∧ (midWork 0 1 .afterB2).dmode = .afterB2 ∧
      (midWork 0 1 .afterB3).dmode = .afterB3 ∧ (midWork 0 1 .afterB3).dmode ≠ .normal := by decide

/-- For StatelessEncodersComplete, MarkEncodersComplete, DiffManchesterEncoderCompletes and Mlt3EncoderCompletes, with the cap at
exactly the input's length. -/
theorem witness_EncodersComplete :
    ∃ (s : State) (bs : List Bit), WithinCap s s.inp.length ∧ s.inp = bitElements bs ∧ bs.length = 4 ∧ s.maxInputLen = some 4 ∧
      ∀ i : Instr, i.wfCfg s.cfg = true :=
  ⟨givenAtCap 0x00 0x00000302 [1, 0, 1, 1], [true, false, true, true], within (by decide), by decide, rfl, rfl,
    fun i => by cases i <;> decide⟩

theorem witness_Db3EncoderCompletes :
    ∃ (s : State) (bs : List Bit), Instr.encDb3.wfCfg s.cfg = true ∧ WithinCap s s.inp.length ∧ s.inp = bitElements bs ∧
      s.cfg.getLsbD 9 = true ∧ db3Notes 1 0 .minus false bs ≠ [] :=
  ⟨givenAtCap 0x07 0x00000201 [1, 0, 0, 0, 0], [true, false, false, false, false], by decide, within (by decide), by decide,
    by decide, by decide⟩

/-- Samples for the decoders' completion statements: bits 1, 0, 1 at S = 2 and sp = −1. -/
theorem witness_StatelessDecodersComplete :
    let bs := [true, false, true]
    (∃ s : State, WithinCap s s.inp.length ∧ Instr.decNrz.wfCfg s.cfg = true ∧
      s.inp = heldSamples (cfgSamples s.cfg) bs.length (nrzLevel bs)) ∧
    (∃ s : State, WithinCap s s.inp.length ∧ Instr.decRz.wfCfg s.cfg = true ∧
      s.inp = halfSamples (cfgSamples s.cfg) bs.length (rzHalves bs)) ∧
    (∃ s : State, WithinCap s s.inp.length ∧ Instr.decManchester.wfCfg s.cfg = true ∧
      s.inp = halfSamples (cfgSamples s.cfg) bs.length (manchesterHalves bs)) :=
  ⟨⟨givenAtCap 0x10 0x00000002 [1, 1, 0, 0, 1, 1], within (by decide), by decide, by decide⟩,
    ⟨givenAtCap 0x11 0x00000002 [1, 0, 0, 0, 1, 0], within (by decide), by decide, by decide⟩,
    ⟨givenAtCap 0x14 0x00000002 [0, 1, 1, 0, 0, 1], within (by decide), by decide, by decide⟩⟩

theorem witness_MarkDecodersComplete :
    let bs := [true, false, true]
    (∃ s : State, WithinCap s s.inp.length ∧ Instr.decAmi.wfCfg s.cfg = true ∧
      s.inp = heldSamples (cfgSamples s.cfg) bs.length (amiLevel (cfgPolarity s.cfg) bs)) ∧
    (∃ s : State, WithinCap s s.inp.length ∧ Instr.decCmi.wfCfg s.cfg = true ∧
      s.inp = halfSamples (cfgSamples s.cfg) bs.length (cmiHalves (cfgPolarity s.cfg) bs)) :=
  ⟨⟨givenAtCap 0x12 0x00000002 [1, 1, 0, 0, 0xFF, 0xFF], within (by decide), by decide, by decide⟩,
    ⟨givenAtCap 0x13 0x00000002 [1, 1, 0, 1, 0xFF, 0xFF], within (by decide), by decide, by decide⟩⟩

theorem witness_DiffManchesterDecoderCompletes :
    ∃ (s : State) (bs : List Bit), Instr.decDiffManchester.wfCfg s.cfg = true ∧ WithinCap s s.inp.length ∧
      s.inp = halfSamples (cfgSamples s.cfg) bs.length (diffHalves (cfgPolarity s.cfg) bs) ∧ bs ≠ [] :=
  ⟨givenAtCap 0x15 0x00000002 [0xFF, 1, 0xFF, 1], [true, false], by decide, within (by decide), by decide, by decide⟩

theorem witness_Mlt3DecoderCompletes :
    ∃ (s : State) (bs : List Bit), Instr.decMlt3.wfCfg s.cfg = true ∧ WithinCap s s.inp.length ∧
      s.inp = heldSamples (cfgSamples s.cfg) bs.length (mlt3Level (cfgPolarity s.cfg) bs) ∧ bs ≠ [] :=
  ⟨givenAtCap 0x16 0x00000001 [1, 0, 0, 0xFF, 0], [true, true, false, true, true], by decide, within (by decide), by decide,
    by decide⟩

theorem witness_Db3DecoderCompletes :
    ∃ (s : State) (bs : List Bit), Instr.decDb3.wfCfg s.cfg = true ∧ WithinCap s s.inp.length ∧
      s.inp = symbolSamples (cfgSamples s.cfg) (db3Symbols (cfgPolarity s.cfg) false bs) ∧ bs ≠ [] :=
  ⟨givenAtCap 0x17 0x00000001 [1, 1, 0, 0, 0xFF, 0, 0, 0, 0xFF],
    [true, false, false, false, false, false, false, false, false], by decide, within (by decide), by decide, by decide⟩

theorem witness_RoundTripLaw :
    ∃ (sch : Scheme) (s : State) (b : List Bit) (y : List Byte) (ann : List Annotation),
      Responds (exec (encOf sch) { s with inp := bitElements b }) ⟨.ok, y, ann⟩ ∧ WithinCap s y.length ∧ ann ≠ [] :=
  ⟨.db3, setLengthCap (some 5) (given 0x07 0x00000201 []), [true, false, false, false, false], _, _, ⟨_, rfl, rfl, rfl⟩,
    within (by decide), by decide⟩

theorem witness_DecodeAcceptsExactlyEncodeImage :
    ∃ (sch : Scheme) (s : State) (y : List Byte), (decOf sch).wfCfg s.cfg = true ∧ WithinCap s y.length ∧
      Responds (exec (decOf sch) { s with inp := y }) ⟨.ok, bitElements [true, false], []⟩ :=
  ⟨.diffManchester, setLengthCap (some 4) (given 0x15 0x00000002 []), [0xFF, 1, 0xFF, 1], by decide, within (by decide),
    ⟨_, rfl, rfl, rfl⟩⟩

/-- The other clause: a y that no input encodes to, since NRZ never sends −1. -/
theorem witness_DecodeAcceptsExactlyEncodeImage_rejected :
    ∃ (s : State) (y : List Byte), (decOf .nrz).wfCfg s.cfg = true ∧ WithinCap s y.length ∧
      ¬ ∃ b ann, Responds (exec (encOf .nrz) { s with inp := bitElements b }) ⟨.ok, y, ann⟩ := by
  refine ⟨setLengthCap (some 1) (given 0x10 0x00000001 []), [0xFF], by decide, within (by decide), ?_⟩
  rintro ⟨b, ann, t, h1, h2, h3⟩
  have hout : t.response.map (·.out) = some [0xFF] := by rw [h2]; rfl
  match b with
  | [] => cases h1; exact absurd hout (by decide)
  | [true] => cases h1; exact absurd hout (by decide)
  | [false] => cases h1; exact absurd hout (by decide)
  | x :: y :: bs =>
    have hlong := checkOperands_tooLong (i := .encNrz) (s := { setLengthCap (some 1) (given 0x10 0x00000001 []) with
      inp := bitElements (x :: y :: bs) }) (show Instr.encNrz.wfCfg 0x00000001 = true by decide) (beyond (by simp [setLengthCap, bitElements]))
    simp only [encOf, instrOf, exec, execEncNrz, runEncode, hlong] at h1
    cases h1
    exact absurd h3 (show Status.inputTooLong ≠ .ok by decide)

theorem witness_OutputLength :
    (∃ (s t : State) (out : List Byte) (ann : List Annotation), exec .encNrz s = .next t ∧ t.response = some ⟨.ok, out, ann⟩ ∧
      out ≠ []) ∧
    ∃ (s t : State) (out : List Byte) (ann : List Annotation), exec .decNrz s = .next t ∧ t.response = some ⟨.ok, out, ann⟩ ∧
      out ≠ [] :=
  ⟨⟨given 0x00 0x00000003 [1], _, _, _, rfl, rfl, by decide⟩, given 0x10 0x00000002 [1, 1], _, _, _, rfl, rfl, by decide⟩

theorem witness_AnnotationsAreSideChannel :
    (¬ (Instr.encDb3 = .encDb3 ∧ (given 0x07 0x00000001 [0]).cfg.getLsbD 9 = true)) ∧
      ¬ (Instr.decDb3 = .encDb3 ∧ (given 0x17 0x00000201 [0]).cfg.getLsbD 9 = true) := by decide

/-- Two marks with a 0 between, at S = 2. -/
theorem witness_AmiMarksAlternate :
    ∃ (s t : State) (out : List Byte) (ann : List Annotation), exec .encAmi s = .next t ∧ t.response = some ⟨.ok, out, ann⟩ ∧
      cfgSamples s.cfg = 2 ∧ out[1 * 2]? = some (sampleByte Sign.plus.level) ∧ out[0 * 2]? = some 0x00 ∧
      out[3 * 2]? = some (sampleByte Sign.minus.level) ∧ out[2 * 2]? = some 0x00 :=
  ⟨given 0x02 0x00000002 [0, 1, 0, 1], _, _, _, rfl, rfl, by decide, by decide, by decide, by decide, by decide⟩

theorem witness_DiffManchesterTransitions :
    ∃ (s t : State) (out : List Byte) (ann : List Annotation), exec .encDiffManchester s = .next t ∧
      t.response = some ⟨.ok, out, ann⟩ ∧ cfgSamples s.cfg = 2 ∧ s.inp = [0, 1] :=
  ⟨given 0x05 0x00000002 [0, 1], _, _, _, rfl, rfl, by decide, rfl⟩

theorem witness_Mlt3FollowsCycle :
    ∃ (s t : State) (bs : List Bit) (out : List Byte) (ann : List Annotation), s.inp = bitElements bs ∧
      exec .encMlt3 s = .next t ∧ t.response = some ⟨.ok, out, ann⟩ ∧ bs.length = 4 ∧
      out[(1 - 1) * cfgSamples s.cfg]? = some (sampleByte Sign.plus.level) :=
  ⟨given 0x06 0x00000001 [1, 0, 1, 1], _, [true, false, true, true], _, _, by decide, rfl, rfl, rfl, by decide⟩

/-- The clause that runs of three occur, at a cap of exactly their length. -/
theorem witness_Db3ZeroRunBound_attained :
    ∃ (s : State) (bs : List Bit), Instr.encDb3.wfCfg s.cfg = true ∧ WithinCap s bs.length ∧ bs = [false, false, false, false] :=
  ⟨setLengthCap (some 4) (given 0x07 0x000000FF []), [false, false, false, false], by decide, within (by decide), rfl⟩

/-- Five zeros at S = 2: both bounds have a place. -/
theorem witness_Db3ZeroRunBound :
    ∃ (s t : State) (out : List Byte) (ann : List Annotation), exec .encDb3 s = .next t ∧ t.response = some ⟨.ok, out, ann⟩ ∧
      1 + 4 ≤ s.inp.length ∧ 3 + (3 * cfgSamples s.cfg + 1) ≤ out.length :=
  ⟨given 0x07 0x00000002 [0, 0, 0, 0, 0], _, _, _, rfl, rfl, by decide, by decide⟩

/-- V77 without EMIT_ANNOT: data pulses with an odd template between them. -/
theorem witness_Db3DataPulsesAlternate :
    ∃ (s : State) (bs : List Bit) (out : List Byte) (ann : List Annotation), Db3Writes s bs out ann ∧ cfgSamples s.cfg = 1 ∧
      s.cfg.getLsbD 9 = false ∧ isOne bs 0 = true ∧ onesBefore bs 0 = 0 ∧ isOne bs 5 = true ∧
      (∀ k, 0 < k → k < 5 → isOne bs k = false) ∧
      (ann.filter fun x => x.kind == .balancing && decide (0 < x.position ∧ x.position < 5)) ≠ [] :=
  ⟨given 0x07 0x00000001 [1, 0, 0, 0, 0, 1], [true, false, false, false, false, true], _, _,
    ⟨by decide, ⟨_, _, rfl, rfl, rfl⟩, _, _, rfl, rfl, rfl⟩, by decide, by decide, by decide, by decide, by decide,
    fun k h1 h2 => by interval_cases k <;> rfl, by decide⟩

/-- Two data pulses with no template between them. -/
theorem witness_Db3DataPulsesAlternate_plain :
    ∃ (s : State) (bs : List Bit) (out : List Byte) (ann : List Annotation), Db3Writes s bs out ann ∧
      isOne bs 0 = true ∧ isOne bs 1 = true ∧ ann = [] :=
  ⟨given 0x07 0x00000201 [1, 1], [true, true], _, _, ⟨by decide, ⟨_, _, rfl, rfl, rfl⟩, _, _, rfl, rfl, rfl⟩, by decide,
    by decide, by decide⟩

/-- For Db3AnnotationConsistency, V79: a Balancing record, the Violation of its odd template, and the Violation of an even one. -/
theorem witness_Db3AnnotationConsistency :
    ∃ (s t : State) (bs : List Bit) (out : List Byte) (ann : List Annotation), s.inp = bitElements bs ∧
      s.cfg.getLsbD 9 = true ∧ exec .encDb3 s = .next t ∧ t.response = some ⟨.ok, out, ann⟩ ∧
      ⟨1 * cfgSamples s.cfg, .balancing, .plus⟩ ∈ ann ∧ ⟨(1 + 3) * cfgSamples s.cfg, .violation, .minus⟩ ∈ ann ∧
      ⟨(5 + 3) * cfgSamples s.cfg, .violation, .minus⟩ ∈ ann ∧ (∀ B, ⟨5 * cfgSamples s.cfg, .balancing, B⟩ ∉ ann) :=
  ⟨given 0x07 0x00000201 [1, 0, 0, 0, 0, 0, 0, 0, 0], _,
    [true, false, false, false, false, false, false, false, false], _, _, by decide, by decide, rfl, rfl,
    by decide, by decide, by decide, fun B => by cases B <;> decide⟩

/-- V79 without EMIT_ANNOT: an odd template at symbol 1 and an even one at symbol 5. -/
theorem witness_Db3TemplatePlacement :
    ∃ (s : State) (bs : List Bit) (out : List Byte) (ann : List Annotation), Db3Writes s bs out ann ∧
      ⟨1 * cfgSamples s.cfg, .balancing, .plus⟩ ∈ ann ∧ ⟨(5 + 3) * cfgSamples s.cfg, .violation, .minus⟩ ∈ ann ∧
      (∀ B, ⟨5 * cfgSamples s.cfg, .balancing, B⟩ ∉ ann) :=
  ⟨given 0x07 0x00000001 [1, 0, 0, 0, 0, 0, 0, 0, 0], [true, false, false, false, false, false, false, false, false], _, _,
    ⟨by decide, ⟨_, _, rfl, rfl, rfl⟩, _, _, rfl, rfl, rfl⟩, by decide, by decide, fun B => by cases B <;> decide⟩

theorem witness_Db3PendingBuffer : ∃ (bs : List Bit) (k : Nat), k + 3 < bs.length ∧ ¬ k + 1 + 3 < bs.length :=
  ⟨[false, false, false, false], 0, by decide, by decide⟩

theorem witness_Db3HasNoDcBalance :
    ∃ (s : State) (k : Nat), Instr.encDb3.wfCfg s.cfg = true ∧ WithinCap s s.inp.length ∧ s.inp = List.replicate (4 * k) 0x00 ∧
      0 < k :=
  ⟨givenAtCap 0x07 0x00000001 [0, 0, 0, 0, 0, 0, 0, 0], 2, by decide, within (by decide), by decide, by decide⟩

end Sys2Proof.Tests
end

section
/-! Separate instances share nothing (spec/20_memory.md R66). -/

namespace Sys2Proof.Machine

/-- All that a step of the platform can do: nothing where there is no such instance (log 15), or instance `k`'s own step,
written back in its place. -/
theorem platformStep_cases {k : Nat} {ps qs : List State} (h : platformStep k ps = .next qs) :
    (ps[k]? = none ∧ qs = ps) ∨ ∃ s t, ps[k]? = some s ∧ step s = .next t ∧ qs = ps.set k t := by
  unfold platformStep at h
  cases hs : ps[k]? with
  | none =>
    rw [hs] at h
    cases h
    exact .inl ⟨rfl, rfl⟩
  | some s =>
    cases ht : step s with
    | next t =>
      simp only [hs, ht] at h
      cases h
      exact .inr ⟨s, t, rfl, ht, rfl⟩
    | fault r => simp [hs, ht] at h
    | refused r => simp [hs, ht] at h

/-- Settles O9: a step either changes nothing or replaces the entry of instance `k` alone. -/
theorem instancesShareNothing : Obligations.InstancesShareNothing := by
  unfold Obligations.InstancesShareNothing
  intro ps qs k h
  obtain ⟨hnone, rfl⟩ | ⟨s, t, hs, ht, rfl⟩ := platformStep_cases h
  · exact ⟨rfl, fun _ _ => rfl, fun s hs => by simp [hnone] at hs⟩
  · obtain ⟨hlt, -⟩ := List.getElem?_eq_some_iff.mp hs
    refine ⟨List.length_set, fun j hj => List.getElem?_set_ne hj.symm, fun s' hs' => ⟨t, ?_, ?_⟩⟩
    · obtain rfl : s = s' := Option.some.inj (hs.symm.trans hs')
      exact ht
    · exact List.getElem?_set_self hlt

end Sys2Proof.Machine
end

section
/-! Which bytes the decoder rejects (spec/30_encoding.md R70, R71, R73, R76). -/

namespace Sys2Proof

/-- RSV = 000 exactly in the bytes below 0x20 (R70). -/
theorem cmdReserved_eq_zero_iff (w : Byte) : cmdReserved w = 0 ↔ w.toNat < 0x20 := by
  have hlt : w.toNat < 2 ^ 8 := w.isLt
  rw [← BitVec.toNat_inj]
  simp only [cmdReserved, BitVec.extractLsb'_toNat, Nat.shiftRight_eq_div_pow, BitVec.ofNat_eq_ofNat, BitVec.toNat_ofNat]
  omega

/-- SCHEME is the low four bits of the word (R70). -/
@[simp] theorem cmdScheme_toNat (w : Byte) : (cmdScheme w).toNat = w.toNat % 16 := by
  simp [cmdScheme, BitVec.extractLsb'_toNat]

/-- The values 8..15 name no scheme (R71). -/
theorem schemeOf_eq_none {n : BitVec 4} (h : 8 ≤ n.toNat) : schemeOf n = none := by
  unfold schemeOf
  split
  case h_9 => rfl
  all_goals omega

theorem decode_of_reserved {w : Byte} (h : cmdReserved w ≠ 0) : decode w = .error .reservedBitsSet := if_neg h

theorem decode_of_unknownScheme {w : Byte} (hrsv : cmdReserved w = 0) (hsch : schemeOf (cmdScheme w) = none) :
    decode w = .error .unknownScheme := by
  rw [decode, if_pos hrsv, hsch]

/-- A byte with a reserved bit set, or with a SCHEME above 7, is rejected (R73). -/
theorem decode_rejects {w : Byte} (h : 0x20 ≤ w.toNat ∨ 8 ≤ w.toNat % 16) : ∃ e, decode w = .error e := by
  by_cases hrsv : cmdReserved w = 0
  · have hlt := (cmdReserved_eq_zero_iff w).mp hrsv
    have hsch : 8 ≤ (cmdScheme w).toNat := by
      rw [cmdScheme_toNat]
      omega
    exact ⟨_, decode_of_unknownScheme hrsv (schemeOf_eq_none hsch)⟩
  · exact ⟨_, decode_of_reserved hrsv⟩

end Sys2Proof

namespace Sys2Proof.Machine

open Laws

/-- Either reason for a rejected word raises the same error (R73, R252). -/
@[simp] theorem decodeErrorKind_eq (e : DecodeError) : decodeErrorKind e = .unsupportedScheme := by
  cases e <;> rfl

/-- Settles O11: each of the sixteen bytes is its command's own word, and every other byte has a reserved bit set or a SCHEME
above 7. -/
theorem commandWordMap : Obligations.CommandWordMap := by
  unfold Obligations.CommandWordMap
  refine ⟨DecodeEncode.encNrz, DecodeEncode.encRz, DecodeEncode.encAmi, DecodeEncode.encCmi, DecodeEncode.encManchester,
    DecodeEncode.encDiffManchester, DecodeEncode.encMlt3, DecodeEncode.encDb3, DecodeEncode.decNrz, DecodeEncode.decRz,
    DecodeEncode.decAmi, DecodeEncode.decCmi, DecodeEncode.decManchester, DecodeEncode.decDiffManchester,
    DecodeEncode.decMlt3, DecodeEncode.decDb3, fun w hw => ?_⟩
  obtain ⟨e, he⟩ := decode_rejects (w := w) (by omega)
  exact ⟨e, he, decodeErrorKind_eq e⟩

end Sys2Proof.Machine
end

section
/-! Every command as one equation: the phases after the checks as a function of the parameters and the input, and the state
that the result ends in (spec/40_common.md R100, R112; spec/60_exceptions.md R259). -/

namespace Sys2Proof.Machine

/-- Phases F and G of the encode command of a scheme. -/
def encProc : Scheme → Params → List Bit → Work → Work
  | .nrz => fun p => processEncode encStepNrz p.samples
  | .rz => fun p => processEncode encStepRz p.samples
  | .ami => fun p => processEncode encStepAmi p.samples
  | .cmi => fun p => processEncode encStepCmi p.samples
  | .manchester => fun p => processEncode encStepManchester p.samples
  | .diffManchester => fun p => processEncode encStepDiffManchester p.samples
  | .mlt3 => fun p => processEncode encStepMlt3 p.samples
  | .db3 => fun p bits w => db3Flush p.samples (db3EncLoop p bits w)

/-- Phases F and G of the decode command of a scheme. -/
def decProc : Scheme → List Cell → Work → Except ErrorKind Work
  | .nrz => processDecode decStepNrz
  | .rz => processDecode decStepRz
  | .ami => processDecode decStepAmi
  | .cmi => processDecode decStepCmi
  | .manchester => processDecode decStepManchester
  | .diffManchester => processDecode decStepDiffManchester
  | .mlt3 => processDecode decStepMlt3
  | .db3 => db3Decode

theorem exec_encOf (sch : Scheme) (s : State) : exec (encOf sch) s = runEncode (encOf sch) (encProc sch) s := by
  cases sch <;> rfl

theorem exec_decOf (sch : Scheme) (s : State) : exec (decOf sch) s = runDecode (decOf sch) (decProc sch) s := by
  cases sch <;> rfl

@[simp] theorem instrOf_scheme (d : Direction) (sch : Scheme) : (instrOf d sch).scheme = sch := by
  cases d <;> cases sch <;> rfl

@[simp] theorem instrOf_dir (d : Direction) (sch : Scheme) : (instrOf d sch).dir = d := by
  cases d <;> cases sch <;> rfl

/-- A command is its direction and its scheme (R76). -/
theorem instrOf_dir_scheme (i : Instr) : instrOf i.dir i.scheme = i := by cases i <;> rfl

theorem exec_encode {i : Instr} (h : i.dir = .encode) (s : State) : exec i s = runEncode i (encProc i.scheme) s := by
  have := exec_encOf i.scheme s
  rwa [encOf, ← h, instrOf_dir_scheme] at this

theorem exec_decode {i : Instr} (h : i.dir = .decode) (s : State) : exec i s = runDecode i (decProc i.scheme) s := by
  have := exec_decOf i.scheme s
  rwa [decOf, ← h, instrOf_dir_scheme] at this

/-- Phases D to G: the working state at the end of a command, or the error that ends it (R105, R106, R110, R111). -/
def processInput (i : Instr) (p : Params) (inp : List Byte) : Except ErrorKind Work :=
  match i.dir with
  | .encode => (validateBits inp).map fun bits => encProc i.scheme p bits (resetWork p.sp)
  | .decode => (validateSamples i.scheme p.samples inp).bind fun cells => decProc i.scheme cells (resetWork p.sp)

theorem processInput_encode {i : Instr} (h : i.dir = .encode) (p : Params) (inp : List Byte) :
    processInput i p inp = (validateBits inp).map fun bits => encProc i.scheme p bits (resetWork p.sp) := by
  rw [processInput, h]

theorem processInput_decode {i : Instr} (h : i.dir = .decode) (p : Params) (inp : List Byte) :
    processInput i p inp =
      (validateSamples i.scheme p.samples inp).bind fun cells => decProc i.scheme cells (resetWork p.sp) := by
  rw [processInput, h]

/-- What a command computes: phase B's parameters and the working state of phase G, or the first error. -/
def commandResult (i : Instr) (s : State) : Except ErrorKind (Params × Work) :=
  (checkOperands i s).bind fun p => (processInput i p s.inp).map fun w => (p, w)

/-- The end of a command: Abort on an error (R259), else Commit (R112). -/
def finish (i : Instr) (s : State) : Except ErrorKind (Params × Work) → State
  | .error e => abort e s
  | .ok (p, w) => commit i p w s

/-- Every command completes, with Abort or Commit on what it computes (R100, R289). -/
theorem exec_eq_finish (i : Instr) (s : State) : exec i s = .next (finish i s (commandResult i s)) := by
  cases hd : i.dir with
  | encode =>
    rw [exec_encode hd, runEncode, commandResult]
    cases checkOperands i s with
    | error e => rfl
    | ok p =>
      simp only [Except.bind, processInput_encode hd]
      cases validateBits s.inp <;> rfl
  | decode =>
    rw [exec_decode hd, runDecode, commandResult]
    cases checkOperands i s with
    | error e => rfl
    | ok p =>
      simp only [Except.bind, processInput_decode hd]
      cases validateSamples i.scheme p.samples s.inp with
      | error e => rfl
      | ok cells =>
        dsimp only
        cases decProc i.scheme cells (resetWork p.sp) <;> rfl

theorem commandResult_of_error {i : Instr} {s : State} {e : ErrorKind} (h : checkOperands i s = .error e) :
    commandResult i s = .error e := by
  rw [commandResult, h]
  rfl

theorem commandResult_of_ok {i : Instr} {s : State} {p : Params} (h : checkOperands i s = .ok p) :
    commandResult i s = (processInput i p s.inp).map fun w => (p, w) := by
  rw [commandResult, h]
  rfl

/-- A command computes something only after phases B and C have passed. -/
theorem commandResult_eq_ok {i : Instr} {s : State} {p : Params} {w : Work} :
    commandResult i s = .ok (p, w) ↔ checkOperands i s = .ok p ∧ processInput i p s.inp = .ok w := by
  cases hc : checkOperands i s with
  | error e => simp [commandResult_of_error hc]
  | ok q =>
    rw [commandResult_of_ok hc]
    cases hw : processInput i q s.inp with
    | error e =>
      simp only [Except.map, reduceCtorEq, Except.ok.injEq, false_iff, not_and]
      rintro rfl
      simp [hw]
    | ok v =>
      simp only [Except.map, Except.ok.injEq, Prod.mk.injEq]
      refine and_congr_right ?_
      rintro rfl
      simp [hw]

/-- A successful response comes from operands that pass every phase, and carries what they compute (R112, R259). -/
theorem exec_success {i : Instr} {s t : State} {out : List Byte} {ann : List Annotation} (ht : exec i s = .next t)
    (hr : t.response = some ⟨.ok, out, ann⟩) :
    ∃ p w, checkOperands i s = .ok p ∧ processInput i p s.inp = .ok w ∧ w.out = out ∧ returnedAnn i p w = ann := by
  rw [exec_eq_finish] at ht
  cases ht
  cases hc : commandResult i s with
  | error e => simp [hc, finish] at hr
  | ok r =>
    obtain ⟨p, w⟩ := r
    obtain ⟨hp, hw⟩ := commandResult_eq_ok.mp hc
    rw [hc] at hr
    cases hr
    exact ⟨p, w, hp, hw, rfl, rfl⟩

/-- Operands that pass every phase give a successful response (R112). -/
theorem responds_ok {i : Instr} {s : State} {p : Params} {w : Work} (hp : checkOperands i s = .ok p)
    (hw : processInput i p s.inp = .ok w) : Responds (exec i s) ⟨.ok, w.out, returnedAnn i p w⟩ := by
  have hc := commandResult_eq_ok.mpr ⟨hp, hw⟩
  refine ⟨_, exec_eq_finish i s, ?_, ?_⟩ <;> rw [hc] <;> rfl

end Sys2Proof.Machine
end

section
/-! Phase B, the mapper's encode direction, an empty input and the result of an encode command (spec/40_common.md R102, R107,
R115, R119), and that a response depends on the operands alone (R114). -/

namespace Sys2Proof.Machine

/-- Settles O16: phase B passes exactly the words that meet its three conditions, and has one error. -/
theorem configurationCheck : Obligations.ConfigurationCheck := by
  unfold Obligations.ConfigurationCheck
  intro cfg sch
  refine ⟨fun hbad => ?_, fun hgood => ?_⟩
  · cases hc : checkConfig cfg sch with
    | error e => rw [checkConfig_eq_error hc]
    | ok p =>
      obtain ⟨hrsv, hS, heven, -⟩ := checkConfig_eq_ok hc
      rcases hbad with h | h | ⟨htwo, hodd⟩
      · exact absurd hrsv h
      · exact absurd h hS
      · have : cfgSamples cfg % 2 = 1 := hodd
        have := heven (twoCell_eq_wf sch ▸ htwo)
        omega
  · simp only [not_or, not_and, ne_eq, not_not] at hgood
    obtain ⟨hrsv, hS, heven⟩ := hgood
    exact checkConfig_ok hrsv hS fun htwo =>
      (Nat.mod_two_eq_zero_or_one _).resolve_right (heven (twoCell_eq_wf sch ▸ htwo))

/-- Expand for an odd S: S samples of the first half (R107). -/
theorem expand_odd {S : Nat} (h : S % 2 = 1) (c : Cell) : expand S c = List.replicate S c.h0 := by
  rw [expand, if_neg (by omega)]

/-- Settles O17: the two branches of Expand, and the cases in which they meet. -/
theorem mapperExpands : Obligations.MapperExpands := by
  unfold Obligations.MapperExpands
  intro S h0 h1
  exact ⟨fun h => expand_even h _, fun h => expand_odd h _, expand_full S h0, rfl⟩

/-- Every cell pair gives S samples (R107, R113). -/
theorem flatMap_expand_length (S : Nat) (cells : List Cell) : (cells.flatMap (expand S)).length = cells.length * S := by
  simp [List.length_flatMap, expand_length]

/-! An empty input. -/

/-- With no bit to process an encode command leaves the working state of phase E. -/
theorem encProc_nil (sch : Scheme) (p : Params) (sp : Sign) : encProc sch p [] (resetWork sp) = resetWork sp := by
  cases sch <;> rfl

/-- With no bit-cell to process a decode command leaves the working state of phase E. -/
theorem decProc_nil (sch : Scheme) (sp : Sign) : decProc sch [] (resetWork sp) = .ok (resetWork sp) := by
  cases sch <;> rfl

/-- An empty input ends with the working state of phase E (R109, R115). -/
theorem processInput_nil {i : Instr} {S : Nat} (hpos : 0 < S) (heven : twoCell i.scheme = true → S % 2 = 0) (sp : Sign)
    (a : Bool) : processInput i ⟨S, sp, a⟩ [] = .ok (resetWork sp) := by
  cases hd : i.dir with
  | encode =>
    have hbits : validateBits [] = .ok [] := rfl
    rw [processInput_encode hd, hbits]
    exact congrArg Except.ok (encProc_nil i.scheme _ sp)
  | decode =>
    have hcells : validateSamples i.scheme S [] = .ok [] :=
      validateSamples_expand (cells := []) hpos heven (by simp) (by simp)
    rw [processInput_decode hd, hcells]
    exact decProc_nil i.scheme sp

theorem withinCap_zero (s : State) : WithinCap s 0 := fun _ _ => Nat.zero_le _

/-- Settles O24: an empty input passes every check, and OUT and ANN stay as phase E leaves them. -/
theorem emptyInputGivesEmptyOutput : Obligations.EmptyInputGivesEmptyOutput := by
  unfold Obligations.EmptyInputGivesEmptyOutput
  intro i s hcfg hinp
  obtain ⟨hpos, heven⟩ := wfCfg_samples hcfg
  have hp := checkOperands_ok hcfg (by rw [hinp]; exact withinCap_zero s)
  have hw := processInput_nil hpos heven (cfgPolarity s.cfg) (cfgAnnot s.cfg)
  have hr := responds_ok hp (hinp ▸ hw)
  rwa [resetWork_out, returnedAnn, resetWork_ann, ite_self] at hr

/-! The result of an encode command. -/

/-- The elements that phase D for encode admits are the words of a bit sequence (R51, R105). -/
theorem wfBits_iff {inp : List Byte} : wfBits inp = true ↔ ∃ bits, inp = bitElements bits := by
  induction inp with
  | nil => simpa [wfBits] using ⟨[], rfl⟩
  | cons e es ih =>
    have hcons : wfBits (e :: es) = true ↔ (e = 0x00 ∨ e = 0x01) ∧ wfBits es = true := by simp [wfBits]
    rw [hcons, ih]
    constructor
    · rintro ⟨he | he, bits, rfl⟩
      · exact ⟨false :: bits, by simp [he, bitElements]⟩
      · exact ⟨true :: bits, by simp [he, bitElements]⟩
    · rintro ⟨bits, hbits⟩
      cases bits with
      | nil => cases hbits
      | cons b bits => cases hbits; exact ⟨by cases b <;> simp, bits, rfl⟩

/-- Phase D for encode refuses any other input, as InvalidBit (R105, R251). -/
theorem validateBits_of_not_wf {inp : List Byte} (h : wfBits inp = false) : validateBits inp = .error .invalidBit := by
  cases hv : validateBits inp with
  | error e => rw [readAll_eq_error hv]
  | ok bits => simp [wfBits_iff.mpr ⟨bits, validateBits_eq_ok.mp hv⟩] at h

/-- Settles O19: the three checks of an encode command in phase order; after them nothing can fail. -/
theorem encodeOutcome : Obligations.EncodeOutcome := by
  unfold Obligations.EncodeOutcome
  intro i s hd
  refine ⟨_, exec_eq_finish i s, fun hcfg => ?_, fun hcfg hcap => ?_, fun hcfg hcap hbits => ?_,
    fun hcfg hcap hbits => ?_⟩
  · rw [commandResult_of_error (checkOperands_badConfig (by simp [hcfg]))]
    rfl
  · rw [commandResult_of_error (checkOperands_tooLong hcfg hcap)]
    rfl
  · rw [commandResult_of_ok (checkOperands_ok hcfg hcap), processInput_encode hd, validateBits_of_not_wf hbits]
    rfl
  · obtain ⟨bits, hinp⟩ := wfBits_iff.mp hbits
    rw [commandResult_of_ok (checkOperands_ok hcfg hcap), processInput_encode hd, validateBits_eq_ok.mpr hinp]
    rfl

/-! What a response depends on. -/

/-- What a command computes depends on CFG, IN and MAX_INPUT_LEN alone (R114). -/
theorem commandResult_congr (i : Instr) {s₁ s₂ : State} (hcfg : s₁.cfg = s₂.cfg) (hinp : s₁.inp = s₂.inp)
    (hcap : s₁.maxInputLen = s₂.maxInputLen) : commandResult i s₁ = commandResult i s₂ := by
  simp only [commandResult, checkOperands, hcfg, hinp, hcap]

/-- The host observes nothing of the state that an abort starts from (R40, R259). -/
theorem observe_abort (e : ErrorKind) (s₁ s₂ : State) : observe (abort e s₁) = observe (abort e s₂) := rfl

/-- The host observes nothing of the state that a command starts from but what is computed from it (R40). -/
theorem observe_finish (i : Instr) (s₁ s₂ : State) (r : Except ErrorKind (Params × Work)) :
    observe (finish i s₁ r) = observe (finish i s₂ r) := by
  cases r with
  | error e => exact observe_abort e s₁ s₂
  | ok r => rfl

/-- Taking a command whose word is decoded (R74, R100). -/
theorem step_of_decoded {s : State} {o : Operands} {rest : List Request} {i : Instr}
    (hs : s.pending = ⟨o, .waits⟩ :: rest) (hd : decode o.cmd = .ok i) : step s = exec i (accept o rest s) := by
  simp [step, nextRequest, hs, conductRefusal, hd]

/-- Taking a command whose word is rejected (R74, R101). -/
theorem step_of_rejected {s : State} {o : Operands} {rest : List Request} {e : DecodeError}
    (hs : s.pending = ⟨o, .waits⟩ :: rest) (hd : decode o.cmd = .error e) :
    step s = .next (abort (decodeErrorKind e) (accept o rest s)) := by
  simp [step, nextRequest, hs, conductRefusal, hd]

/-- Settles O10: both instances take the same operands, so they compute the same result, or reject the same word. -/
theorem responseDependsOnOperandsOnly : Obligations.ResponseDependsOnOperandsOnly := by
  unfold Obligations.ResponseDependsOnOperandsOnly
  intro s₁ s₂ o rest₁ rest₂ h₁ h₂ hcap
  cases hd : decode o.cmd with
  | error e => exact ⟨_, _, step_of_rejected h₁ hd, step_of_rejected h₂ hd, observe_abort _ _ _⟩
  | ok i =>
    have hsame : commandResult i (accept o rest₁ s₁) = commandResult i (accept o rest₂ s₂) :=
      commandResult_congr i rfl rfl hcap
    refine ⟨_, _, (step_of_decoded h₁ hd).trans (exec_eq_finish _ _),
      (step_of_decoded h₂ hd).trans (exec_eq_finish _ _), ?_⟩
    rw [hsame]
    exact observe_finish _ _ _ _

end Sys2Proof.Machine
end

section
/-! What a decoder does to the samples of an encoder, for the seven schemes that work bit by bit (spec/40_common.md R110,
R116; spec/41_simple_codecs.md). -/

namespace Sys2Proof.Machine

/-- The cell pair may stand in the samples of the scheme: it fits the class, its levels are in the alphabet (R14, R103). -/
def CellOf (sch : Scheme) (c : Cell) : Prop := cellFits sch c ∧ c.h0 ∈ alphabet sch ∧ c.h1 ∈ alphabet sch

/-- Any level, held for a whole bit period, may stand in the samples of a scheme whose alphabet holds it. -/
theorem cellOf_full {sch : Scheme} {l : Level} (h : l ∈ alphabet sch) : CellOf sch ⟨l, l⟩ := ⟨.inr rfl, h, h⟩

/-- Two levels of the alphabet may stand in one bit period of a two-cell scheme. -/
theorem cellOf_twoCell {sch : Scheme} {a b : Level} (h : twoCell sch = true) (ha : a ∈ alphabet sch)
    (hb : b ∈ alphabet sch) : CellOf sch ⟨a, b⟩ := ⟨.inl h, ha, hb⟩

/-- An encode step and a decode step that are inverse to each other and leave OUT to the loops (R110). -/
structure StepsInvert (sch : Scheme) (enc : EncStep) (dec : DecStep) : Prop where
  /-- The encode step writes no sample itself. -/
  enc_out : ∀ b w, (enc b w).2.out = w.out
  /-- It gives cells of its scheme. -/
  enc_cell : ∀ b w, CellOf sch (enc b w).1
  /-- The decode step writes no bit itself. -/
  dec_out : ∀ {c w b w'}, dec c w = .ok (b, w') → w'.out = w.out
  /-- The decode step, from the same registers, gives back the bit and goes to the same registers. -/
  dec_enc : ∀ b w o, dec (enc b w).1 { w with out := o } = .ok (b, { (enc b w).2 with out := o })

/-- NRZ (R130, R131). -/
theorem nrz_stepsInvert : StepsInvert .nrz encStepNrz decStepNrz where
  enc_out b w := by cases b <;> rfl
  enc_cell b w := by cases b <;> exact cellOf_full (by decide)
  dec_out h := by
    unfold decStepNrz at h
    split_ifs at h <;> cases h <;> rfl
  dec_enc b w o := by cases b <;> rfl

/-- RZ (R134, R135). -/
theorem rz_stepsInvert : StepsInvert .rz encStepRz decStepRz where
  enc_out b w := by cases b <;> rfl
  enc_cell b w := by cases b <;> exact cellOf_twoCell rfl (by decide) (by decide)
  dec_out h := by
    unfold decStepRz at h
    split_ifs at h <;> cases h <;> rfl
  dec_enc b w o := by cases b <;> rfl

/-- AMI (R138, R139). -/
theorem ami_stepsInvert : StepsInvert .ami encStepAmi decStepAmi where
  enc_out b w := by cases b <;> rfl
  enc_cell b w := by
    cases b
    · exact cellOf_full (by decide)
    · exact cellOf_full (by cases w.pol <;> decide)
  dec_out h := by
    unfold decStepAmi at h
    split_ifs at h <;> cases h <;> rfl
  dec_enc b w o := by cases b <;> simp [encStepAmi, decStepAmi]

/-- CMI (R143, R144). -/
theorem cmi_stepsInvert : StepsInvert .cmi encStepCmi decStepCmi where
  enc_out b w := by cases b <;> rfl
  enc_cell b w := by
    cases b
    · exact cellOf_twoCell rfl (by decide) (by decide)
    · exact cellOf_full (by cases w.pol <;> decide)
  dec_out h := by
    unfold decStepCmi at h
    split_ifs at h <;> cases h <;> rfl
  dec_enc b w o := by cases b <;> simp [encStepCmi, decStepCmi]

/-- MANCHESTER (R147, R148). -/
theorem manchester_stepsInvert : StepsInvert .manchester encStepManchester decStepManchester where
  enc_out b w := by cases b <;> rfl
  enc_cell b w := by cases b <;> exact cellOf_twoCell rfl (by decide) (by decide)
  dec_out h := by
    unfold decStepManchester at h
    split_ifs at h <;> cases h <;> rfl
  dec_enc b w o := by cases b <;> rfl

theorem level_mem_alphabet_diffManchester (a : Sign) : a.level ∈ alphabet .diffManchester := by cases a <;> decide

/-- DIFF_MANCHESTER (R151, R152). -/
theorem diffManchester_stepsInvert : StepsInvert .diffManchester encStepDiffManchester decStepDiffManchester where
  enc_out b w := rfl
  enc_cell b w := cellOf_twoCell rfl (level_mem_alphabet_diffManchester _) (level_mem_alphabet_diffManchester _)
  dec_out h := by
    unfold decStepDiffManchester at h
    split at h
    · split_ifs at h <;> cases h <;> rfl
    · cases h
  dec_enc b w o := by cases b <;> simp [encStepDiffManchester, decStepDiffManchester, boundaryLevel]

theorem mem_alphabet_mlt3 (l : Level) : l ∈ alphabet .mlt3 := by cases l <;> decide

@[simp] theorem advanceCycle_out (w : Work) : (advanceCycle w).out = w.out := by
  unfold advanceCycle
  split <;> rfl

/-- MLT-3 (R156, R157): a 1 changes the level, so the decoder tells it from a 0. -/
theorem mlt3_stepsInvert : StepsInvert .mlt3 encStepMlt3 decStepMlt3 where
  enc_out b w := by cases b <;> simp [encStepMlt3]
  enc_cell b w := by cases b <;> exact cellOf_full (mem_alphabet_mlt3 _)
  dec_out h := by
    unfold decStepMlt3 at h
    split_ifs at h <;> cases h
    · rfl
    · exact advanceCycle_out _
    · exact advanceCycle_out _
  dec_enc b w o := by
    cases b
    · simp [encStepMlt3, decStepMlt3]
    · by_cases h : w.mlv = .zero
      · simp [encStepMlt3, decStepMlt3, advanceCycle, h]
      · simp [encStepMlt3, decStepMlt3, advanceCycle, h, Ne.symm h]

/-- A decode loop whose steps leave OUT alone gives one bit per bit-cell (R110, R113). -/
theorem processDecode_out_length {dec : DecStep} (hout : ∀ {c w b w'}, dec c w = .ok (b, w') → w'.out = w.out) :
    ∀ {cells : List Cell} {w w' : Work}, processDecode dec cells w = .ok w' →
      w'.out.length = w.out.length + cells.length := by
  intro cells
  induction cells with
  | nil =>
    intro w w' h
    cases h
    rfl
  | cons c cs ih =>
    intro w w' h
    cases hc : dec c w with
    | error e => simp [processDecode, hc] at h
    | ok r =>
      obtain ⟨b, w₁⟩ := r
      simp only [processDecode, hc] at h
      rw [ih h, advance_out, appendBit_out, hout hc, List.length_append, List.length_singleton, List.length_cons]
      omega

/-- The cell pairs that the encode loop maps to samples, in order (R110). -/
def encodedCells (step : EncStep) (S : Nat) : List Bit → Work → List Cell
  | [], _ => []
  | b :: bs, w =>
    (step b w).1 :: encodedCells step S bs (advance (appendSamples (expand S (step b w).1) (step b w).2))

theorem encodedCells_length (step : EncStep) (S : Nat) (bs : List Bit) (w : Work) :
    (encodedCells step S bs w).length = bs.length := by
  induction bs generalizing w with
  | nil => rfl
  | cons b bs ih => exact congrArg (· + 1) (ih _)

section
variable {sch : Scheme} {enc : EncStep} {dec : DecStep}

/-- The encode loop writes the expansions of its cells (R110). -/
theorem StepsInvert.processEncode_out (h : StepsInvert sch enc dec) (S : Nat) (bs : List Bit) (w : Work) :
    (processEncode enc S bs w).out = w.out ++ ((encodedCells enc S bs w).flatMap (expand S)).map levelByte := by
  induction bs generalizing w with
  | nil => simp [processEncode, encodedCells]
  | cons b bs ih => simp [processEncode, encodedCells, ih, h.enc_out]

theorem StepsInvert.encodedCells_cellOf (h : StepsInvert sch enc dec) (S : Nat) (bs : List Bit) (w : Work) :
    ∀ c ∈ encodedCells enc S bs w, CellOf sch c := by
  induction bs generalizing w with
  | nil => simp [encodedCells]
  | cons b bs ih => exact List.forall_mem_cons.mpr ⟨h.enc_cell b w, ih _⟩

/-- The decode loop runs through the registers of the encode loop and gives its bits back (R116). -/
theorem StepsInvert.processDecode_encodedCells (h : StepsInvert sch enc dec) (S : Nat) (bs : List Bit) (w : Work)
    (o : List Byte) :
    processDecode dec (encodedCells enc S bs w) { w with out := o } =
      .ok { processEncode enc S bs w with out := o ++ bitElements bs } := by
  induction bs generalizing w o with
  | nil => simp [encodedCells, processDecode, processEncode, bitElements]
  | cons b bs ih =>
    have hnext := ih (advance (appendSamples (expand S (enc b w).1) (enc b w).2)) (o ++ [bitByte b])
    simp only [encodedCells, processDecode, h.dec_enc, processEncode]
    refine hnext.trans ?_
    simp [bitElements, bitByte]

end

/-- The round trip below the phases of a command: the samples that the encode command of a scheme writes for `bits` are an
expansion of cells of that scheme, one per bit, which its decode command turns back into `bits` (R116). -/
def LoopsInvert (sch : Scheme) : Prop :=
  ∀ (p : Params) (bits : List Bit), ∃ cells : List Cell,
    (encProc sch p bits (resetWork p.sp)).out = (cells.flatMap (expand p.samples)).map levelByte ∧
    cells.length = bits.length ∧ (∀ c ∈ cells, CellOf sch c) ∧
    ∃ w, decProc sch cells (resetWork p.sp) = .ok w ∧ w.out = bitElements bits

/-- Steps that are inverse make loops that are. -/
theorem StepsInvert.loopsInvert {sch : Scheme} {enc : EncStep} {dec : DecStep} (h : StepsInvert sch enc dec)
    (henc : ∀ p, encProc sch p = processEncode enc p.samples) (hdec : decProc sch = processDecode dec) :
    LoopsInvert sch := by
  intro p bits
  rw [henc, hdec]
  exact ⟨_, h.processEncode_out _ _ _, encodedCells_length _ _ _ _, h.encodedCells_cellOf _ _ _, _,
    h.processDecode_encodedCells _ _ (resetWork p.sp) [], rfl⟩

end Sys2Proof.Machine
end

section
/-! The DB3 decoder follows the encoder (spec/42_db3.md R206, R215). The encoder rewrites the last three symbols when it
substitutes, so the decoder is followed up to the zeros of the current run. -/

namespace Sys2Proof.Machine

/-- The registers that the DB3 decoder uses (R30, R33, R34, R35). -/
structure Db3Regs where
  dmode : DMode
  pol : Sign
  pss : Nat
  zrc : Fin 4

/-- The working state of DEC.DB3 that has given `bits` and holds `r`: every other register is as phase E left it. -/
def db3DecWork (sp : Sign) (bits : List Bit) (r : Db3Regs) : Work :=
  { plainWork sp bits.length (bitElements bits) with dmode := r.dmode, pol := r.pol, pss := r.pss, zrc := r.zrc }

/-- From phase E on, the symbols `syms` take the DB3 decoder to the registers `r`, and it gives `bits`. -/
def Db3DecodesTo (sp : Sign) (syms : List Level) (bits : List Bit) (r : Db3Regs) : Prop :=
  processDecode db3DecStep (syms.map fun l => ⟨l, l⟩) (resetWork sp) = .ok (db3DecWork sp bits r)

theorem Db3DecodesTo.nil (sp : Sign) : Db3DecodesTo sp [] [] ⟨.normal, sp, 0, 0⟩ := rfl

/-- One symbol more. -/
theorem Db3DecodesTo.snoc {sp : Sign} {syms : List Level} {bits : List Bit} {r r' : Db3Regs} {l : Level} {b : Bit}
    (h : Db3DecodesTo sp syms bits r)
    (hstep : db3DecStep ⟨l, l⟩ (db3DecWork sp bits r) = .ok (b, db3DecWork sp bits r')) :
    Db3DecodesTo sp (syms ++ [l]) (bits ++ [b]) r' := by
  have hnext : advance (appendBit b (db3DecWork sp bits r')) = db3DecWork sp (bits ++ [b]) r' := by
    simp [advance, appendBit, db3DecWork, plainWork, bitElements, bitByte]
  unfold Db3DecodesTo at *
  simp only [List.map_append, processDecode_append, h, List.map_singleton, processDecode, hstep, hnext]

section
variable {sp pol : Sign} {bits : List Bit} {pss : Nat} {z : Fin 4}

/-- A zero, while the run is shorter than three (R216). -/
theorem db3DecStep_zero (hz : z.val < 3) :
    db3DecStep ⟨.zero, .zero⟩ (db3DecWork sp bits ⟨.normal, pol, pss, z⟩) =
      .ok (false, db3DecWork sp bits ⟨.normal, pol, pss, ⟨z.val + 1, by omega⟩⟩) := by
  simp [db3DecStep, db3DecNormal, db3DecWork, runLength_of_lt hz]

/-- A pulse that alternates is a 1 (R217). -/
theorem db3DecStep_dataPulse :
    db3DecStep ⟨pol.negate.level, pol.negate.level⟩ (db3DecWork sp bits ⟨.normal, pol, pss, z⟩) =
      .ok (true, db3DecWork sp bits ⟨.normal, pol.negate, pss + 1, 0⟩) := by
  simp [db3DecStep, db3DecNormal, db3DecWork]

/-- After three zeros and an even count of pulses, a repeated polarity ends `[0,0,0,V]` (R218). -/
theorem db3DecStep_evenViolation (hpss : pss % 2 = 0) :
    db3DecStep ⟨pol.level, pol.level⟩ (db3DecWork sp bits ⟨.normal, pol, pss, 3⟩) =
      .ok (false, db3DecWork sp bits ⟨.normal, pol, 0, 0⟩) := by
  simp [db3DecStep, db3DecNormal, db3DecWork, evenPss, hpss]

/-- With no zero before it and an odd count of pulses, a repeated polarity begins `[B,0,0,V]` (R218). -/
theorem db3DecStep_oddBalancing (hpss : pss % 2 = 1) :
    db3DecStep ⟨pol.level, pol.level⟩ (db3DecWork sp bits ⟨.normal, pol, pss, 0⟩) =
      .ok (false, db3DecWork sp bits ⟨.afterB1, pol, pss, 0⟩) := by
  simp [db3DecStep, db3DecNormal, db3DecWork, evenPss, hpss]

/-- The first zero of `[B,0,0,V]` (R219). -/
theorem db3DecStep_afterB1 :
    db3DecStep ⟨.zero, .zero⟩ (db3DecWork sp bits ⟨.afterB1, pol, pss, z⟩) =
      .ok (false, db3DecWork sp bits ⟨.afterB2, pol, pss, z⟩) := rfl

/-- The second zero of `[B,0,0,V]` (R219). -/
theorem db3DecStep_afterB2 :
    db3DecStep ⟨.zero, .zero⟩ (db3DecWork sp bits ⟨.afterB2, pol, pss, z⟩) =
      .ok (false, db3DecWork sp bits ⟨.afterB3, pol, pss, z⟩) := rfl

/-- The V of `[B,0,0,V]` (R220). -/
theorem db3DecStep_afterB3 :
    db3DecStep ⟨pol.negate.level, pol.negate.level⟩ (db3DecWork sp bits ⟨.afterB3, pol, pss, z⟩) =
      .ok (false, db3DecWork sp bits ⟨.normal, pol.negate, 0, 0⟩) := by
  simp [db3DecStep, db3DecWork]

variable {syms : List Level}

/-- Up to three zeros (R216). -/
theorem Db3DecodesTo.zeros (h : Db3DecodesTo sp syms bits ⟨.normal, pol, pss, 0⟩) (n : Nat) (hn : n < 4) :
    Db3DecodesTo sp (syms ++ List.replicate n .zero) (bits ++ List.replicate n false)
      ⟨.normal, pol, pss, ⟨n, hn⟩⟩ := by
  induction n with
  | zero => simpa using h
  | succ n ih =>
    have hlast := (ih (by omega)).snoc (db3DecStep_zero (by dsimp only; omega))
    simpa [List.replicate_succ'] using hlast

/-- A whole template `[0,0,0,V]` (R216, R218). -/
theorem Db3DecodesTo.evenTemplate (hpss : pss % 2 = 0) (h : Db3DecodesTo sp syms bits ⟨.normal, pol, pss, 0⟩) :
    Db3DecodesTo sp (syms ++ [.zero, .zero, .zero, pol.level]) (bits ++ List.replicate 4 false)
      ⟨.normal, pol, 0, 0⟩ := by
  simpa using (h.zeros 3 (by decide)).snoc (db3DecStep_evenViolation hpss)

/-- A whole template `[B,0,0,V]` (R218 to R220). -/
theorem Db3DecodesTo.oddTemplate (hpss : pss % 2 = 1) (h : Db3DecodesTo sp syms bits ⟨.normal, pol, pss, 0⟩) :
    Db3DecodesTo sp (syms ++ [pol.level, .zero, .zero, pol.negate.level]) (bits ++ List.replicate 4 false)
      ⟨.normal, pol.negate, 0, 0⟩ := by
  simpa using (((h.snoc (db3DecStep_oddBalancing hpss)).snoc db3DecStep_afterB1).snoc db3DecStep_afterB2).snoc
    db3DecStep_afterB3

end

/-! The encoder's side. -/

/-- A record is appended or not; nothing else changes (R207, R208). -/
theorem annotate_eq (p : Params) (as : List Annotation) (w : Work) :
    annotate p as w = { w with ann := if p.annot then w.ann ++ as else w.ann } := by
  unfold annotate
  split <;> rfl

/-- A substitution at an even count of pulses: all that it writes but ANN (R206, R207, R209). -/
theorem db3Substitute_even (p : Params) {w : Work} (h : w.pss % 2 = 0) : ∃ ann, db3Substitute p w =
    { w with sym := dropLast w.sym 3 ++ [.zero, .zero, .zero, w.pol.level], zrc := 0, pss := 0, ann := ann } := by
  simp [db3Substitute, evenPss, h, evenTemplate, annotate_eq]

/-- A substitution at an odd count of pulses: all that it writes but ANN (R206, R208, R209). -/
theorem db3Substitute_odd (p : Params) {w : Work} (h : w.pss % 2 = 1) : ∃ ann, db3Substitute p w =
    { w with sym := dropLast w.sym 3 ++ [w.pol.level, .zero, .zero, w.pol.negate.level], pol := w.pol.negate, zrc := 0,
             pss := 0, ann := ann } := by
  simp [db3Substitute, evenPss, h, oddTemplate, annotate_eq]

/-- An encode step on a 1 is a data pulse (R204). -/
theorem db3EncStep_one (p : Params) (w : Work) : db3EncStep p true w = db3DataPulse w := rfl

/-- An encode step on a 0, while the run is shorter than three (R205). -/
theorem db3EncStep_zero (p : Params) {w : Work} (h : w.zrc.val < 3) :
    db3EncStep p false w = { w with sym := w.sym ++ [.zero], zrc := ⟨w.zrc.val + 1, by omega⟩ } := by
  simp [db3EncStep, runLength_of_lt h]

/-- An encode step on the fourth 0 of a run (R206). -/
theorem db3EncStep_fourthZero (p : Params) {w : Work} (h : w.zrc.val = 3) : db3EncStep p false w = db3Substitute p w := by
  simp [db3EncStep, runLength_of_three h]

/-- The DB3 decode step writes no bit itself. -/
theorem db3DecStep_out {c : Cell} {w w' : Work} {b : Bit} (h : db3DecStep c w = .ok (b, w')) : w'.out = w.out := by
  unfold db3DecStep at h
  split at h
  · unfold db3DecNormal at h
    split_ifs at h
    · split at h
      · cases h
        rfl
      · cases h
    all_goals
      cases h
      rfl
  all_goals
    split_ifs at h
    cases h
    rfl

/-- DEC.DB3's end check changes nothing (R222). -/
theorem db3Decode_eq_ok {cells : List Cell} {w w' : Work} (h : db3Decode cells w = .ok w') :
    processDecode db3DecStep cells w = .ok w' := by
  unfold db3Decode at h
  split at h
  · cases h
  · next v hv =>
    unfold db3DecEnd at h
    split at h <;> cases h
    exact hv

/-- Symbols that leave the decoder in NORMAL pass its end check (R222). -/
theorem Db3DecodesTo.db3Decode {sp : Sign} {syms : List Level} {bits : List Bit} {r : Db3Regs} (hr : r.dmode = .normal)
    (h : Db3DecodesTo sp syms bits r) :
    db3Decode (syms.map fun l => ⟨l, l⟩) (resetWork sp) = .ok (db3DecWork sp bits r) := by
  rw [Machine.db3Decode, h]
  exact if_pos hr

/-- The encoder's symbols before the zeros of the current run decode to the bits before that run, and take the decoder to
the encoder's POL and PSS. -/
def Db3Tracked (sp : Sign) (bits : List Bit) (w : Work) : Prop :=
  ∃ syms bits₀, w.sym = syms ++ List.replicate w.zrc.val .zero ∧ bits = bits₀ ++ List.replicate w.zrc.val false ∧
    Db3DecodesTo sp syms bits₀ ⟨.normal, w.pol, w.pss, 0⟩

/-- With the zeros of the current run, all symbols decode to all bits (R215). -/
theorem Db3Tracked.decodesTo {sp : Sign} {bits : List Bit} {w : Work} (h : Db3Tracked sp bits w) :
    Db3DecodesTo sp w.sym bits ⟨.normal, w.pol, w.pss, w.zrc⟩ := by
  obtain ⟨syms, bits₀, hsym, rfl, hdec⟩ := h
  rw [hsym]
  exact hdec.zeros _ w.zrc.isLt

/-- Where a run has just ended, the decoder is at the encoder's registers. -/
theorem Db3DecodesTo.tracked {sp : Sign} {bits : List Bit} {w : Work} (hz : w.zrc = 0)
    (h : Db3DecodesTo sp w.sym bits ⟨.normal, w.pol, w.pss, 0⟩) : Db3Tracked sp bits w :=
  ⟨w.sym, bits, by simp [hz], by simp [hz], h⟩

/-- Every encode step keeps the decoder on the encoder's track (R204 to R209). -/
theorem Db3Tracked.step {sp : Sign} {bits : List Bit} {w : Work} (p : Params) (b : Bit) (h : Db3Tracked sp bits w) :
    Db3Tracked sp (bits ++ [b]) (db3EncStep p b w) := by
  cases b with
  | true =>
    rw [db3EncStep_one]
    exact (h.decodesTo.snoc db3DecStep_dataPulse).tracked rfl
  | false =>
    obtain ⟨syms, bits₀, hsym, rfl, hdec⟩ := h
    by_cases hz : w.zrc.val < 3
    · rw [db3EncStep_zero p hz]
      exact ⟨syms, bits₀, by simp [hsym, List.replicate_succ'], by simp [List.replicate_succ'], hdec⟩
    · have hz3 : w.zrc.val = 3 := by omega
      have hdrop : dropLast w.sym 3 = syms := by simp [dropLast, hsym, hz3]
      have hbits : bits₀ ++ List.replicate w.zrc.val false ++ [false] = bits₀ ++ List.replicate 4 false := by
        rw [hz3, List.append_assoc]
        rfl
      rw [db3EncStep_fourthZero p hz3, hbits]
      rcases Nat.mod_two_eq_zero_or_one w.pss with hpss | hpss
      · obtain ⟨ann, heq⟩ := db3Substitute_even p hpss
        rw [heq, hdrop]
        exact (hdec.evenTemplate hpss).tracked rfl
      · obtain ⟨ann, heq⟩ := db3Substitute_odd p hpss
        rw [heq, hdrop]
        exact (hdec.oddTemplate hpss).tracked rfl

/-- The encode loop keeps the decoder on the encoder's track (R110). -/
theorem Db3Tracked.loop {sp : Sign} {bits : List Bit} {w : Work} (p : Params) (more : List Bit)
    (h : Db3Tracked sp bits w) :
    Db3Tracked sp (bits ++ more) (db3EncLoop p more w) := by
  induction more generalizing bits w with
  | nil => simpa [db3EncLoop] using h
  | cons b more ih =>
    have hall := ih (bits := bits ++ [b]) (w := advance (db3EncStep p b w)) (h.step p b)
    rwa [List.append_assoc] at hall

/-- The DB3 decoder, given the symbols of any bit sequence, gives the bits back and ends in NORMAL with the encoder's POL,
PSS and ZRC (R215). -/
theorem db3DecodesTo_encLoop (p : Params) (sp : Sign) (bits : List Bit) :
    let w := db3EncLoop p bits (resetWork sp)
    Db3DecodesTo sp w.sym bits ⟨.normal, w.pol, w.pss, w.zrc⟩ :=
  (((Db3DecodesTo.nil sp).tracked (w := resetWork sp) rfl).loop p bits).decodesTo

/-- One bit of the decoder per symbol, so SYM has one symbol per bit (R37). -/
theorem Db3DecodesTo.length_eq {sp : Sign} {syms : List Level} {bits : List Bit} {r : Db3Regs}
    (h : Db3DecodesTo sp syms bits r) : syms.length = bits.length := by
  have hlen := processDecode_out_length db3DecStep_out h
  simpa [db3DecWork, plainWork, bitElements] using hlen.symm

theorem db3EncStep_out (p : Params) (b : Bit) (w : Work) : (db3EncStep p b w).out = w.out := by
  cases b with
  | true => rfl
  | false =>
    by_cases hz : w.zrc.val < 3
    · rw [db3EncStep_zero p hz]
    · rw [db3EncStep_fourthZero p (by omega)]
      rcases Nat.mod_two_eq_zero_or_one w.pss with hpss | hpss
      · obtain ⟨ann, heq⟩ := db3Substitute_even p hpss
        rw [heq]
      · obtain ⟨ann, heq⟩ := db3Substitute_odd p hpss
        rw [heq]

/-- Phase F of ENC.DB3 writes SYM only; OUT is written in phase G (R110, R111). -/
theorem db3EncLoop_out (p : Params) (bits : List Bit) (w : Work) : (db3EncLoop p bits w).out = w.out := by
  induction bits generalizing w with
  | nil => rfl
  | cons b bits ih =>
    rw [db3EncLoop, ih]
    exact db3EncStep_out p b w

/-- ENC.DB3 writes the expansion of its symbols, each held for a bit period (R111, R211). -/
theorem db3Flush_out (S : Nat) (w : Work) :
    (db3Flush S w).out = w.out ++ ((w.sym.map fun l => (⟨l, l⟩ : Cell)).flatMap (expand S)).map levelByte := by
  simp only [db3Flush, appendSamples_out, List.flatMap_map, expand_full]

theorem mem_alphabet_db3 (l : Level) : l ∈ alphabet .db3 := by cases l <;> decide

theorem db3_loopsInvert : LoopsInvert .db3 := by
  intro p bits
  have hdec := db3DecodesTo_encLoop p p.sp bits
  refine ⟨_, ?_, ?_, ?_, _, hdec.db3Decode rfl, rfl⟩
  · show (db3Flush _ _).out = _
    rw [db3Flush_out, db3EncLoop_out, resetWork_out, List.nil_append]
  · rw [List.length_map, hdec.length_eq]
  · intro c hc
    obtain ⟨l, -, rfl⟩ := List.mem_map.mp hc
    exact cellOf_full (mem_alphabet_db3 l)

/-- The round trip below the phases of a command, for every scheme (R116). -/
theorem loopsInvert (sch : Scheme) : LoopsInvert sch := by
  cases sch with
  | nrz => exact nrz_stepsInvert.loopsInvert (fun _ => rfl) rfl
  | rz => exact rz_stepsInvert.loopsInvert (fun _ => rfl) rfl
  | ami => exact ami_stepsInvert.loopsInvert (fun _ => rfl) rfl
  | cmi => exact cmi_stepsInvert.loopsInvert (fun _ => rfl) rfl
  | manchester => exact manchester_stepsInvert.loopsInvert (fun _ => rfl) rfl
  | diffManchester => exact diffManchester_stepsInvert.loopsInvert (fun _ => rfl) rfl
  | mlt3 => exact mlt3_stepsInvert.loopsInvert (fun _ => rfl) rfl
  | db3 => exact db3_loopsInvert

end Sys2Proof.Machine
end

section
/-! The round trip and the output length of the whole commands (spec/40_common.md R113, R116). -/

namespace Sys2Proof.Machine

/-- The two commands of a scheme admit the same configuration words (R102). -/
theorem wfCfg_decOf (sch : Scheme) (cfg : Word32) : (decOf sch).wfCfg cfg = (encOf sch).wfCfg cfg := by
  simp [Instr.wfCfg]

/-- A successful encode command: its input is a bit sequence, and OUT is what its loop writes for it (R112). -/
theorem encode_success {i : Instr} {s t : State} {out : List Byte} {ann : List Annotation} (hd : i.dir = .encode)
    (ht : exec i s = .next t) (hr : t.response = some ⟨.ok, out, ann⟩) :
    i.wfCfg s.cfg = true ∧ ∃ bits, s.inp = bitElements bits ∧
      (encProc i.scheme ⟨cfgSamples s.cfg, cfgPolarity s.cfg, cfgAnnot s.cfg⟩ bits
        (resetWork (cfgPolarity s.cfg))).out = out := by
  obtain ⟨p, w, hp, hw, rfl, -⟩ := exec_success ht hr
  obtain ⟨hcfg, -, rfl⟩ := checkOperands_eq_ok hp
  rw [processInput_encode hd] at hw
  cases hbits : validateBits s.inp with
  | error e => simp [hbits, Except.map] at hw
  | ok bits =>
    rw [hbits] at hw
    cases hw
    exact ⟨hcfg, bits, validateBits_eq_ok.mp hbits, rfl⟩

/-- A successful decode command: its input holds cell pairs, and OUT is what its loop gives for them (R112). -/
theorem decode_success {i : Instr} {s t : State} {out : List Byte} {ann : List Annotation} (hd : i.dir = .decode)
    (ht : exec i s = .next t) (hr : t.response = some ⟨.ok, out, ann⟩) :
    i.wfCfg s.cfg = true ∧ ∃ cells w, validateSamples i.scheme (cfgSamples s.cfg) s.inp = .ok cells ∧
      decProc i.scheme cells (resetWork (cfgPolarity s.cfg)) = .ok w ∧ w.out = out := by
  obtain ⟨p, w, hp, hw, rfl, -⟩ := exec_success ht hr
  obtain ⟨hcfg, -, rfl⟩ := checkOperands_eq_ok hp
  rw [processInput_decode hd] at hw
  cases hcells : validateSamples i.scheme (cfgSamples s.cfg) s.inp with
  | error e => simp [hcells, Except.bind] at hw
  | ok cells =>
    rw [hcells] at hw
    exact ⟨hcfg, cells, w, rfl, hw, rfl⟩

theorem bitElements_injective : Function.Injective bitElements :=
  List.map_injective_iff.mpr (by decide)

/-- Settles O42: the samples are the expansion of cells of the scheme, so they pass phase D, and the decode loop undoes the
encode loop. -/
theorem roundTripLaw : Obligations.RoundTripLaw := by
  unfold Obligations.RoundTripLaw
  rintro sch s b y ann ⟨t, ht, hr, -⟩ hcap
  obtain ⟨hcfg, bits, hinp, hy⟩ := encode_success (instrOf_dir _ _) ht hr
  obtain rfl : b = bits := bitElements_injective hinp
  rw [instrOf_scheme] at hy
  obtain ⟨cells, hout, -, hcells, w, hw, hbits⟩ :=
    loopsInvert sch ⟨cfgSamples s.cfg, cfgPolarity s.cfg, cfgAnnot s.cfg⟩ b
  rw [← instrOf_scheme .decode sch] at hcells
  have hnext := runDecode_succeeds (i := decOf sch) (s := { s with inp := y }) (wfCfg_decOf sch s.cfg ▸ hcfg) hcap
    (hy.symm.trans hout) (fun c hc => (hcells c hc).1) (fun c hc => (hcells c hc).2) (instrOf_dir _ _) hw
  exact ⟨_, (exec_decOf sch _).trans hnext, hbits ▸ rfl, rfl⟩

/-- A decode command gives one bit per bit-cell (R113). -/
theorem decProc_out_length {sch : Scheme} {sp : Sign} {cells : List Cell} {w : Work}
    (h : decProc sch cells (resetWork sp) = .ok w) : w.out.length = cells.length := by
  have hloop : ∃ dec : DecStep, (∀ {c w b w'}, dec c w = .ok (b, w') → w'.out = w.out) ∧
      processDecode dec cells (resetWork sp) = .ok w := by
    cases sch with
    | nrz => exact ⟨_, nrz_stepsInvert.dec_out, h⟩
    | rz => exact ⟨_, rz_stepsInvert.dec_out, h⟩
    | ami => exact ⟨_, ami_stepsInvert.dec_out, h⟩
    | cmi => exact ⟨_, cmi_stepsInvert.dec_out, h⟩
    | manchester => exact ⟨_, manchester_stepsInvert.dec_out, h⟩
    | diffManchester => exact ⟨_, diffManchester_stepsInvert.dec_out, h⟩
    | mlt3 => exact ⟨_, mlt3_stepsInvert.dec_out, h⟩
    | db3 => exact ⟨_, db3DecStep_out, db3Decode_eq_ok h⟩
  obtain ⟨dec, hout, hdec⟩ := hloop
  simpa using processDecode_out_length hout hdec

/-- Settles O44: encoding writes the expansion of one cell per bit, decoding gives one bit per cell of S samples. -/
theorem outputLength : Obligations.OutputLength := by
  unfold Obligations.OutputLength
  intro i s t out ann ht hr
  refine ⟨fun hd => ?_, fun hd => ?_⟩
  · obtain ⟨-, bits, hinp, rfl⟩ := encode_success hd ht hr
    obtain ⟨cells, hout, hlen, -⟩ := loopsInvert i.scheme ⟨cfgSamples s.cfg, cfgPolarity s.cfg, cfgAnnot s.cfg⟩ bits
    rw [hout, List.length_map, flatMap_expand_length, hlen, hinp, bitElements, List.length_map]
  · obtain ⟨hcfg, cells, w, hcells, hw, rfl⟩ := decode_success hd ht hr
    obtain ⟨hpos, heven⟩ := wfCfg_samples hcfg
    obtain ⟨-, -, -, hlen⟩ := validateSamples_eq_ok hpos heven hcells
    rw [decProc_out_length hw, ← hlen, Nat.mul_div_cancel _ hpos]

end Sys2Proof.Machine
end

section
/-! The mapper, decode direction: which samples collapse, and to which cell pairs (spec/40_common.md R108). -/

namespace Sys2Proof.Machine

/-- The offset in its bit-cell of the sample that sample `j` must equal: the start of the cell, or, in the second half of a
two-cell scheme's cell, the start of that half (R108). -/
def levelStart (sch : Scheme) (S j : Nat) : Nat := if twoCell sch = true ∧ S / 2 ≤ j then S / 2 else 0

theorem levelStart_lt {S j : Nat} (sch : Scheme) (hj : j < S) : levelStart sch S j < S := by
  unfold levelStart
  split <;> omega

/-- A sample of an expansion is h1 in the second half of a two-cell scheme's cell, else h0 (R107). -/
theorem expand_getElem? {sch : Scheme} {S : Nat} (heven : twoCell sch = true → S % 2 = 0) {c : Cell}
    (hfit : cellFits sch c) {j : Nat} (hj : j < S) :
    (expand S c)[j]? = some (if twoCell sch = true ∧ S / 2 ≤ j then c.h1 else c.h0) := by
  rcases hfit with htwo | hfull
  · rw [expand_even (heven htwo)]
    have := heven htwo
    by_cases hhalf : S / 2 ≤ j
    · rw [List.getElem?_append_right (by simpa using hhalf), if_pos ⟨htwo, hhalf⟩, List.length_replicate,
        List.getElem?_replicate_of_lt (by omega)]
    · rw [List.getElem?_append_left (by simpa using hhalf), if_neg (fun h => hhalf h.2),
        List.getElem?_replicate_of_lt (by omega)]
  · obtain ⟨a, b⟩ := c
    cases hfull
    rw [expand_full, List.getElem?_replicate_of_lt hj, ite_self]

/-- Each sample of an expansion equals the one at which its level starts. -/
theorem expand_getElem?_levelStart {sch : Scheme} {S : Nat} (heven : twoCell sch = true → S % 2 = 0) {c : Cell}
    (hfit : cellFits sch c) {j : Nat} (hj : j < S) : (expand S c)[j]? = (expand S c)[levelStart sch S j]? := by
  rw [expand_getElem? heven hfit hj, expand_getElem? heven hfit (levelStart_lt sch hj)]
  unfold levelStart
  split
  · next h => rw [if_pos ⟨h.1, le_rfl⟩]
  · next h => rw [if_neg (fun h' => h ⟨h'.1, by omega⟩)]

/-- Sample j of bit-cell q of an expansion is sample j of the expansion of cell pair q. -/
theorem flatMap_expand_getElem? {S j : Nat} (hj : j < S) (cells : List Cell) (q : Nat) :
    (cells.flatMap (expand S))[q * S + j]? = cells[q]?.bind fun c => (expand S c)[j]? := by
  induction cells generalizing q with
  | nil => simp
  | cons c cells ih =>
    rw [List.flatMap_cons]
    cases q with
    | zero => rw [List.getElem?_append_left (by rw [expand_length]; omega)]; simp
    | succ q =>
      have hle : (expand S c).length ≤ (q + 1) * S + j := by
        rw [expand_length, Nat.succ_mul]
        omega
      have hidx : (q + 1) * S + j - (expand S c).length = q * S + j := by
        rw [expand_length, Nat.succ_mul]
        omega
      rw [List.getElem?_append_right hle, hidx, ih, List.getElem?_cons_succ]

/-- Constant cells, in one equation for both classes (R108). -/
theorem constantCells_iff {α : Type} {sch : Scheme} {S : Nat} {v : List α} :
    constantCells sch S v ↔
      ∀ q < v.length / S, ∀ j < S, v[q * S + j]? = v[q * S + levelStart sch S j]? := by
  unfold constantCells levelStart
  rw [twoCell_eq_wf]
  refine forall₄_congr fun q _ j _ => ?_
  cases sch.wfTwoCell with
  | false => simp
  | true =>
    by_cases hhalf : S / 2 ≤ j
    · simp [hhalf]
    · simp [hhalf, Nat.lt_of_not_le hhalf]

/-- An expansion of cells that fit is constant over each cell, or each half (R107, R108). -/
theorem constantCells_expand {sch : Scheme} {S : Nat} (hpos : 0 < S) (heven : twoCell sch = true → S % 2 = 0)
    {cells : List Cell} (hfit : ∀ c ∈ cells, cellFits sch c) : constantCells sch S (cells.flatMap (expand S)) := by
  rw [constantCells_iff]
  intro q hq j hj
  rw [flatMap_expand_length, Nat.mul_div_cancel _ hpos] at hq
  rw [flatMap_expand_getElem? hj, flatMap_expand_getElem? (levelStart_lt sch hj), List.getElem?_eq_getElem hq]
  exact expand_getElem?_levelStart heven (hfit _ (List.getElem_mem hq)) hj

/-- The cell pair that bit-cell q starts with: the level at its start and, for a two-cell scheme, the one at its half. -/
def sampledCell (sch : Scheme) (S : Nat) (v : List Level) (q : Nat) : Cell :=
  ⟨v.getD (q * S) .zero, v.getD (q * S + if sch.wfTwoCell then S / 2 else 0) .zero⟩

theorem sampledCell_fits (sch : Scheme) (S : Nat) (v : List Level) (q : Nat) : cellFits sch (sampledCell sch S v q) := by
  unfold cellFits sampledCell
  rw [twoCell_eq_wf]
  cases sch.wfTwoCell <;> simp

/-- The samples of bit-cell q lie within a whole number of cells. -/
theorem cell_index_lt {n S q j : Nat} (hq : q < n) (hj : j < S) : q * S + j < n * S := by
  calc q * S + j < (q + 1) * S := by rw [Nat.succ_mul]; omega
    _ ≤ n * S := Nat.mul_le_mul_right S hq

/-- The two levels of `sampledCell` are samples. -/
theorem sampledCell_levels {sch : Scheme} {S : Nat} {v : List Level} {n q : Nat} (hpos : 0 < S) (hv : v.length = n * S)
    (hq : q < n) :
    v[q * S]? = some (sampledCell sch S v q).h0 ∧
      v[q * S + if sch.wfTwoCell then S / 2 else 0]? = some (sampledCell sch S v q).h1 := by
  have hget : ∀ j < S, v[q * S + j]? = some (v.getD (q * S + j) .zero) := fun j hj => by
    have hlt : q * S + j < v.length := hv ▸ cell_index_lt hq hj
    rw [List.getElem?_eq_getElem hlt, List.getD_eq_getElem _ _ hlt]
  exact ⟨hget 0 hpos, hget _ (by split <;> omega)⟩

/-- Samples that are constant over each cell, or each half, are the expansion of the cell pairs they start with (R108). -/
theorem constantCells_eq_expand {sch : Scheme} {S n : Nat} {v : List Level} (hpos : 0 < S)
    (heven : twoCell sch = true → S % 2 = 0) (hv : v.length = n * S) (hconst : constantCells sch S v) :
    v = ((List.range n).map (sampledCell sch S v)).flatMap (expand S) := by
  have hlen : (((List.range n).map (sampledCell sch S v)).flatMap (expand S)).length = v.length := by
    rw [flatMap_expand_length, List.length_map, List.length_range, hv]
  rw [constantCells_iff, hv, Nat.mul_div_cancel _ hpos] at hconst
  apply List.ext_getElem?
  intro k
  have hj : k % S < S := Nat.mod_lt k hpos
  have hk : k / S * S + k % S = k := by rw [Nat.mul_comm]; exact Nat.div_add_mod k S
  by_cases hq : k / S < n
  · have hcell : ((List.range n).map (sampledCell sch S v))[k / S]? = some (sampledCell sch S v (k / S)) := by
      simp [hq]
    obtain ⟨h0, h1⟩ := sampledCell_levels (sch := sch) hpos hv hq
    rw [← hk, hconst _ hq _ hj, flatMap_expand_getElem? hj, hcell, Option.bind_some,
      expand_getElem? heven (sampledCell_fits sch S v _) hj]
    unfold levelStart
    split
    · next h =>
      rw [twoCell_eq_wf] at h
      rwa [if_pos h.1] at h1
    · exact h0
  · have hge : v.length ≤ k := by
      rw [hv]
      exact (Nat.le_div_iff_mul_le hpos).mp (Nat.le_of_not_lt hq)
    rw [List.getElem?_eq_none hge, List.getElem?_eq_none (hlen.trans_le hge)]

/-- Settles O18: Collapse succeeds exactly on expansions, and the samples of an expansion are the constant ones. -/
theorem mapperCollapses : Obligations.MapperCollapses := by
  unfold Obligations.MapperCollapses
  intro sch S v hpos heven hmod
  rw [← twoCell_eq_wf] at heven
  have hv : v.length = v.length / S * S := (Nat.div_mul_cancel (Nat.dvd_of_mod_eq_zero hmod)).symm
  refine ⟨fun hconst => ?_, fun hconst => ?_⟩
  · have hcollapse := (collapseCells_eq_ok hpos heven _ hv).mpr
      ⟨constantCells_eq_expand hpos heven hv hconst, by simp, by simp [sampledCell_fits]⟩
    exact ⟨_, hcollapse, by simp, fun k hk => ⟨sampledCell sch S v k, by simp [hk], sampledCell_levels hpos hv hk⟩⟩
  · cases hc : collapse sch S v with
    | error e => rw [collapseCells_eq_error _ hc]
    | ok cells =>
      obtain ⟨hexp, -, hfit⟩ := (collapseCells_eq_ok hpos heven _ hv).mp hc
      exact absurd (hexp ▸ constantCells_expand hpos heven hfit) hconst

end Sys2Proof.Machine
end

section
/-! EMIT_ANNOT touches ANN alone (spec/40_common.md R118; spec/42_db3.md R207, R208). -/

namespace Sys2Proof.Machine

/-- A substitution does the same, but to ANN, with any parameters and any ANN. -/
theorem db3Substitute_annOnly (p q : Params) (w : Work) (a : List Annotation) :
    ∃ a', db3Substitute q { w with ann := a } = { db3Substitute p w with ann := a' } := by
  rcases Nat.mod_two_eq_zero_or_one w.pss with hpss | hpss
  · obtain ⟨b, hq⟩ := db3Substitute_even q (w := { w with ann := a }) hpss
    obtain ⟨c, hp⟩ := db3Substitute_even p hpss
    exact ⟨b, by rw [hq, hp]⟩
  · obtain ⟨b, hq⟩ := db3Substitute_odd q (w := { w with ann := a }) hpss
    obtain ⟨c, hp⟩ := db3Substitute_odd p hpss
    exact ⟨b, by rw [hq, hp]⟩

/-- An encode step does the same, but to ANN, with any parameters and any ANN. -/
theorem db3EncStep_annOnly (p q : Params) (b : Bit) (w : Work) (a : List Annotation) :
    ∃ a', db3EncStep q b { w with ann := a } = { db3EncStep p b w with ann := a' } := by
  cases b with
  | true => exact ⟨a, rfl⟩
  | false =>
    by_cases hz : w.zrc.val < 3
    · exact ⟨a, by rw [db3EncStep_zero p hz, db3EncStep_zero q (w := { w with ann := a }) hz]⟩
    · rw [db3EncStep_fourthZero p (by omega), db3EncStep_fourthZero q (w := { w with ann := a }) (by dsimp only; omega)]
      exact db3Substitute_annOnly p q w a

/-- The encode loop does the same, but to ANN, with any parameters and any ANN. -/
theorem db3EncLoop_annOnly (p q : Params) (bits : List Bit) (w : Work) (a : List Annotation) :
    ∃ a', db3EncLoop q bits { w with ann := a } = { db3EncLoop p bits w with ann := a' } := by
  induction bits generalizing w a with
  | nil => exact ⟨a, rfl⟩
  | cons b bits ih =>
    obtain ⟨a₁, h₁⟩ := db3EncStep_annOnly p q b w a
    obtain ⟨a', h'⟩ := ih (advance (db3EncStep p b w)) a₁
    refine ⟨a', ?_⟩
    rw [db3EncLoop, h₁]
    exact h'

/-- What an encode command writes to OUT does not depend on EMIT_ANNOT: only ENC.DB3 reads it, to write ANN. -/
theorem encProc_out_annot (sch : Scheme) (p : Params) (a : Bool) (bits : List Bit) (sp : Sign) :
    (encProc sch { p with annot := a } bits (resetWork sp)).out = (encProc sch p bits (resetWork sp)).out := by
  cases sch with
  | db3 =>
    obtain ⟨a', h⟩ := db3EncLoop_annOnly p { p with annot := a } bits (resetWork sp) []
    replace h : db3EncLoop { p with annot := a } bits (resetWork sp) =
        { db3EncLoop p bits (resetWork sp) with ann := a' } := h
    simp only [encProc, h]
    rfl
  | _ => rfl

/-- Phases D to G fail alike, or end with the same OUT, whatever EMIT_ANNOT is. -/
theorem processInput_out_annot (i : Instr) (p : Params) (a : Bool) (inp : List Byte) :
    (processInput i { p with annot := a } inp).map Work.out = (processInput i p inp).map Work.out := by
  cases hd : i.dir with
  | encode =>
    rw [processInput_encode hd, processInput_encode hd]
    cases validateBits inp with
    | error e => rfl
    | ok bits => exact congrArg Except.ok (encProc_out_annot i.scheme p a bits p.sp)
  | decode => rw [processInput_decode hd, processInput_decode hd]

/-! Inverting CFG[9] leaves the other fields as they were (R22 to R26). -/

theorem cfgReserved_xor_annot (cfg : Word32) : cfgReserved (cfg ^^^ 0x200) = cfgReserved cfg := by
  simp [cfgReserved, BitVec.extractLsb'_xor]

theorem cfgSamples_xor_annot (cfg : Word32) : cfgSamples (cfg ^^^ 0x200) = cfgSamples cfg := by
  have hmask : BitVec.extractLsb' 0 8 (0x200 : Word32) = 0 := by decide
  rw [cfgSamples, BitVec.extractLsb'_xor, hmask]
  simp [cfgSamples]

theorem cfgPolarity_xor_annot (cfg : Word32) : cfgPolarity (cfg ^^^ 0x200) = cfgPolarity cfg := by
  simp [cfgPolarity]

/-- Phase B admits the same words. -/
theorem wfCfg_xor_annot (i : Instr) (cfg : Word32) : i.wfCfg (cfg ^^^ 0x200) = i.wfCfg cfg := by
  rw [Bool.eq_iff_iff, wfCfg_iff, wfCfg_iff, cfgReserved_xor_annot, cfgSamples_xor_annot]

/-- What the host is given but for ANN: the error, or OUT. -/
def outcomeOf (r : Except ErrorKind (Params × Work)) : Except ErrorKind (List Byte) := r.map fun x => x.2.out

theorem outcomeOf_commandResult {i : Instr} {s : State} {p : Params} (h : checkOperands i s = .ok p) :
    outcomeOf (commandResult i s) = (processInput i p s.inp).map Work.out := by
  rw [commandResult_of_ok h]
  cases processInput i p s.inp <;> rfl

/-- The status and OUT that a command ends with are its outcome (R112, R259). -/
theorem finish_of_outcomeOf_eq {i : Instr} {s s' : State} {r r' : Except ErrorKind (Params × Work)}
    (h : outcomeOf r = outcomeOf r') :
    (finish i s r).lastStatus = (finish i s' r').lastStatus ∧
      (finish i s r).response.map (·.out) = (finish i s' r').response.map (·.out) := by
  cases r with
  | error e =>
    cases r' with
    | error e' =>
      cases h
      exact ⟨rfl, rfl⟩
    | ok x' => cases h
  | ok x =>
    cases r' with
    | error e' => cases h
    | ok x' => exact ⟨rfl, congrArg some (Except.ok.inj h)⟩

/-- The checks of phases B and C end alike with CFG[9] inverted, and phases D to G do not depend on it. -/
theorem outcomeOf_xor_annot (i : Instr) (s : State) :
    outcomeOf (commandResult i s) = outcomeOf (commandResult i { s with cfg := s.cfg ^^^ 0x200 }) := by
  have hwf : i.wfCfg { s with cfg := s.cfg ^^^ 0x200 }.cfg = i.wfCfg s.cfg := wfCfg_xor_annot i s.cfg
  by_cases hcfg : i.wfCfg s.cfg = true
  · by_cases hcap : WithinCap s s.inp.length
    · rw [outcomeOf_commandResult (checkOperands_ok hcfg hcap),
        outcomeOf_commandResult (checkOperands_ok (s := { s with cfg := _ }) (hwf.trans hcfg) hcap)]
      dsimp only
      rw [cfgSamples_xor_annot, cfgPolarity_xor_annot]
      exact (processInput_out_annot i ⟨_, _, _⟩ _ s.inp).symm
    · rw [commandResult_of_error (checkOperands_tooLong hcfg hcap),
        commandResult_of_error (checkOperands_tooLong (s := { s with cfg := _ }) (hwf.trans hcfg) hcap)]
  · rw [commandResult_of_error (checkOperands_badConfig hcfg),
      commandResult_of_error (checkOperands_badConfig (s := { s with cfg := _ }) (hwf ▸ hcfg))]

/-- Only ENC.DB3 with EMIT_ANNOT = 1 returns annotations (R112, R118). -/
theorem returnedAnn_eq_nil {i : Instr} {p : Params} (w : Work) (h : ¬ (i = .encDb3 ∧ p.annot = true)) :
    returnedAnn i p w = [] := by
  refine if_neg fun ⟨hdir, hsch, hann⟩ => h ⟨?_, hann⟩
  rw [← instrOf_dir_scheme i, hdir, hsch]
  rfl

/-- Settles O45: EMIT_ANNOT takes part in no check and reaches nothing but ANN, which one command alone returns. -/
theorem annotationsAreSideChannel : Obligations.AnnotationsAreSideChannel := by
  unfold Obligations.AnnotationsAreSideChannel
  intro i s
  obtain ⟨hstatus, hout⟩ := finish_of_outcomeOf_eq (i := i) (s := s) (s' := { s with cfg := s.cfg ^^^ 0x200 })
    (outcomeOf_xor_annot i s)
  refine ⟨_, _, exec_eq_finish i s, exec_eq_finish i _, hstatus, hout, fun hann => ?_⟩
  cases hc : commandResult i s with
  | error e => rfl
  | ok r =>
    obtain ⟨p, w⟩ := r
    obtain ⟨hp, -⟩ := commandResult_eq_ok.mp hc
    obtain ⟨-, -, rfl⟩ := checkOperands_eq_ok hp
    exact congrArg some (returnedAnn_eq_nil w hann)

end Sys2Proof.Machine
end

section
/-! The steps of the seven schemes that work bit by bit, case by case (spec/41_simple_codecs.md R130 to R157). -/

namespace Sys2Proof.Machine

/-- Settles O26: every step is a choice between constants, and a decode step's last arm takes every other cell. -/
theorem statelessSteps : Obligations.StatelessSteps := by
  unfold Obligations.StatelessSteps
  intro w
  refine ⟨⟨rfl, rfl⟩, ⟨rfl, rfl⟩, ⟨rfl, rfl⟩, ⟨rfl, rfl, ?_⟩, ⟨rfl, rfl, ?_⟩, ⟨rfl, rfl, ?_⟩⟩
  all_goals exact fun c hne₀ hne₁ => (if_neg hne₀).trans (if_neg hne₁)

/-- DecStep[AMI] on a cell of a mark: POL's opposite is a 1, POL itself does not alternate (R139). -/
theorem decStepAmi_mark (w : Work) :
    decStepAmi ⟨w.pol.negate.level, w.pol.negate.level⟩ w = .ok (true, { w with pol := w.pol.negate }) ∧
      decStepAmi ⟨w.pol.level, w.pol.level⟩ w = .error .malformedSymbolSequence := by
  simp [decStepAmi]

/-- DecStep[CMI] on a cell of a mark of POL's opposite (R144). -/
theorem decStepCmi_mark (w : Work) :
    decStepCmi ⟨w.pol.negate.level, w.pol.negate.level⟩ w = .ok (true, { w with pol := w.pol.negate }) := by
  simp [decStepCmi]

/-- DecStep[CMI] on any cell but the two of its code (R144). -/
theorem decStepCmi_other {c : Cell} {w : Work} (hspace : c ≠ ⟨.zero, .plus⟩)
    (hmark : c ≠ ⟨w.pol.negate.level, w.pol.negate.level⟩) : decStepCmi c w = .error .malformedSymbolSequence := by
  refine (if_neg hspace).trans (if_neg ?_)
  rintro ⟨hfull, hlevel⟩
  obtain ⟨h0, h1⟩ := c
  cases hfull
  exact hmark (congrArg (fun l => (⟨l, l⟩ : Cell)) hlevel)

/-- Settles O27: a mark is the one cell that writes POL, and the decode steps tell it by its polarity. -/
theorem markSteps : Obligations.MarkSteps := by
  unfold Obligations.MarkSteps
  intro w
  obtain ⟨hmark, hsame⟩ := decStepAmi_mark w
  exact ⟨⟨rfl, rfl⟩, ⟨rfl, rfl⟩, ⟨rfl, hmark, hsame⟩, rfl, decStepCmi_mark w, fun _ => decStepCmi_other⟩

/-- DecStep[DIFF_MANCHESTER] on a cell of two marks (R152). -/
theorem decStepDiffManchester_level (a d : Sign) (w : Work) : decStepDiffManchester ⟨a.level, d.level⟩ w =
    if d ≠ a.negate then .error .malformedSymbolSequence else .ok (a == w.dmq, { w with dmq := d }) := by
  have hbit : (if a ≠ w.dmq then false else true) = (a == w.dmq) := by by_cases h : a = w.dmq <;> simp [h]
  simp only [decStepDiffManchester, level_sign?, hbit]

/-- Settles O28: the encode step negates the boundary level twice or once, and the decode step is known on cells of marks. -/
theorem diffManchesterSteps : Obligations.DiffManchesterSteps := by
  unfold Obligations.DiffManchesterSteps
  intro w
  refine ⟨?_, rfl, fun h0 h1 => ⟨fun hmid => ?_, fun hmid => ?_⟩⟩
  · simp [encStepDiffManchester, boundaryLevel]
  · rw [decStepDiffManchester_level, if_neg (not_not.mpr hmid)]
  · rw [decStepDiffManchester_level, if_pos hmid]

/-- Settles O29: the three decode clauses are the three arms of the step, and a step along the cycle is `advanceCycle`. -/
theorem mlt3Steps : Obligations.Mlt3Steps := by
  unfold Obligations.Mlt3Steps
  intro w
  exact ⟨rfl, rfl, fun l => ⟨fun hheld => if_pos hheld, fun hmoved hnext => (if_neg hmoved).trans (if_pos hnext),
    fun hmoved hjump => (if_neg hmoved).trans (if_neg hjump)⟩⟩

end Sys2Proof.Machine
end

section
/-! The samples of the encoders with a memory, as closed forms, and how a law reads them off OUT (spec/41_simple_codecs.md R138,
R151, R156; spec/40_common.md R107, R110). -/

namespace Sys2Proof.Machine

/-! The encode loops follow the closed forms. -/

/-- The loop of ENC.AMI: the marks alternate, and POL ends as the last one's polarity (R138). -/
theorem processEncode_ami (S : Nat) (sp : Sign) (bs : List Bit) : processEncode encStepAmi S bs (resetWork sp) =
    { plainWork sp bs.length (heldSamples S bs.length (amiLevel sp bs)) with pol := flipped sp (bs.count true) } := by
  rw [heldSamples_eq_expand]
  refine processEncode_follows encStepAmi S sp (fun bs k => ⟨amiLevel sp bs k, amiLevel sp bs k⟩)
    (fun bs w => { w with pol := flipped sp (bs.count true) }) ?_ rfl ?_ ?_ bs
  · intro bs b k hk
    simp [amiLevel, isOne_append bs b hk, onesBefore_append bs b hk.le]
  · intro bs b L out
    cases b <;> simp [encStepAmi, amiLevel, onesBefore_append, flipped_succ]
  · intro bs b L out ls
    cases b <;> simp [encStepAmi, flipped_succ] <;> rfl

/-- The loop of ENC.DIFF_MANCHESTER, for an even S: DMQ ends as sp inverted once for each 1 (R151). -/
theorem processEncode_diffManchester {S : Nat} (heven : S % 2 = 0) (sp : Sign) (bs : List Bit) :
    processEncode encStepDiffManchester S bs (resetWork sp) =
      { plainWork sp bs.length (halfSamples S bs.length (diffHalves sp bs)) with
        dmq := flipped sp (bs.count true) } := by
  rw [halfSamples_eq_expand heven]
  refine processEncode_follows encStepDiffManchester S sp (fun bs k => ⟨(diffHalves sp bs k).1, (diffHalves sp bs k).2⟩)
    (fun bs w => { w with dmq := flipped sp (bs.count true) }) ?_ rfl ?_ ?_ bs
  · intro bs b k hk
    simp [diffHalves, isOne_append bs b hk, onesBefore_append bs b hk.le]
  · intro bs b L out
    cases b <;> simp [encStepDiffManchester, boundaryLevel, diffHalves, onesBefore_append]
  · intro bs b L out ls
    cases b <;> simp [encStepDiffManchester, boundaryLevel, flipped_succ] <;> rfl

/-- A step along the cycle takes MLV and MLT from their values after n steps to those after n + 1 (R156, R160). -/
theorem advanceCycle_mlt3 (sp : Sign) (n : Nat) (w : Work) :
    advanceCycle { w with mlv := mlt3Cycle sp n, mlt := mlt3Target sp n } =
      { w with mlv := mlt3Cycle sp (n + 1), mlt := mlt3Target sp (n + 1) } := by
  obtain ⟨hfromZero, hfromMark⟩ := mlt3Cycle_succ sp n
  by_cases h : mlt3Cycle sp n = .zero
  · obtain ⟨hlevel, htarget⟩ := hfromZero h
    simp [advanceCycle, h, hlevel, htarget]
  · obtain ⟨hlevel, htarget⟩ := hfromMark h
    simp [advanceCycle, h, hlevel, htarget]

/-- The loop of ENC.MLT3: MLV and MLT end where the cycle is after as many steps as 1s (R156). -/
theorem processEncode_mlt3 (S : Nat) (sp : Sign) (bs : List Bit) : processEncode encStepMlt3 S bs (resetWork sp) =
    { plainWork sp bs.length (heldSamples S bs.length (mlt3Level sp bs)) with
      mlv := mlt3Cycle sp (bs.count true), mlt := mlt3Target sp (bs.count true) } := by
  rw [heldSamples_eq_expand]
  refine processEncode_follows encStepMlt3 S sp (fun bs k => ⟨mlt3Level sp bs k, mlt3Level sp bs k⟩)
    (fun bs w => { w with mlv := mlt3Cycle sp (bs.count true), mlt := mlt3Target sp (bs.count true) }) ?_ rfl ?_ ?_ bs
  · intro bs b k hk
    simp [mlt3Level, onesBefore_append bs b hk]
  · intro bs b L out
    cases b <;> simp [encStepMlt3, mlt3Level, onesBefore_append_last, advanceCycle_mlt3]
  · intro bs b L out ls
    cases b <;> simp [encStepMlt3, advanceCycle_mlt3] <;> rfl

/-! Reading a level off OUT. -/

@[simp] theorem levelByte_inj {a b : Level} : levelByte a = levelByte b ↔ a = b :=
  ⟨fun h => Option.some.inj (by rw [← levelOf_sext8_levelByte a, h, levelOf_sext8_levelByte]), congrArg levelByte⟩

/-- The first sample of bit k tells its level (R107). -/
theorem heldSamples_getElem?_eq_some {S : Nat} (hpos : 0 < S) {L k : Nat} {f : Nat → Level} {l : Level} :
    (heldSamples S L f)[k * S]? = some (sampleByte l) ↔ k < L ∧ f k = l := by
  have hcell := flatMap_expand_getElem? hpos ((List.range L).map fun k => (⟨f k, f k⟩ : Cell)) k
  rw [heldSamples_eq_expand, List.getElem?_map, ← Nat.add_zero (k * S), hcell]
  by_cases hk : k < L
  · simp [hk, expand_full, hpos]
  · simp [hk]

/-- At S = 2 the samples of bit k are the levels of its two halves (R107). -/
theorem halfSamples_two_getElem? {L k : Nat} (hk : k < L) (f : Nat → Level × Level) :
    (halfSamples 2 L f)[2 * k]? = some (sampleByte (f k).1) ∧
      (halfSamples 2 L f)[2 * k + 1]? = some (sampleByte (f k).2) := by
  have hcell := fun j (hj : j < 2) =>
    flatMap_expand_getElem? hj ((List.range L).map fun k => (⟨(f k).1, (f k).2⟩ : Cell)) k
  have h0 := hcell 0 (by omega)
  have h1 := hcell 1 (by omega)
  rw [Nat.mul_comm k 2] at h0 h1
  rw [halfSamples_eq_expand rfl, List.getElem?_map, List.getElem?_map, h1, ← Nat.add_zero (2 * k), h0]
  simp [hk, expand]

/-! Counting the 1s. -/

/-- Bit k is counted from k + 1 on. -/
theorem onesBefore_succ (bs : List Bit) (k : Nat) :
    onesBefore bs (k + 1) = onesBefore bs k + if isOne bs k then 1 else 0 := by
  unfold onesBefore isOne
  rw [List.take_add_one, List.count_append]
  cases h : bs[k]? with
  | none => simp
  | some b => cases b <;> simp

/-- A run of 0s leaves the count of 1s. -/
theorem onesBefore_of_zeros {bs : List Bit} {i j : Nat} (hij : i ≤ j)
    (hzeros : ∀ k, i ≤ k → k < j → isOne bs k = false) : onesBefore bs j = onesBefore bs i := by
  induction j, hij using Nat.le_induction with
  | base => rfl
  | succ j hij ih =>
    rw [onesBefore_succ, hzeros j hij (by omega), ih fun k hk hkj => hzeros k hk (by omega)]
    rfl

/-- An element of the input is the 0 word exactly when its bit is no 1. -/
theorem bitElements_getElem?_eq_zero {bs : List Bit} {k : Nat} (hk : k < bs.length) :
    (bitElements bs)[k]? = some 0x00 ↔ isOne bs k = false := by
  simp [bitElements, isOne, hk]

end Sys2Proof.Machine
end

section
/-! The laws of the AMI, differential Manchester and MLT-3 outputs (spec/41_simple_codecs.md R142, R155, R160). -/

namespace Sys2Proof.Machine

/-! What a successful command writes, in closed form. -/

section
variable {s t : State} {out : List Byte} {ann : List Annotation}

/-- A successful ENC.AMI (R140). -/
theorem encAmi_success (ht : exec .encAmi s = .next t) (hr : t.response = some ⟨.ok, out, ann⟩) :
    0 < cfgSamples s.cfg ∧ ∃ bs, s.inp = bitElements bs ∧
      out = heldSamples (cfgSamples s.cfg) bs.length (amiLevel (cfgPolarity s.cfg) bs) := by
  obtain ⟨hcfg, bs, hinp, hout⟩ := encode_success rfl ht hr
  exact ⟨(wfCfg_samples hcfg).1, bs, hinp, hout.symm.trans (congrArg Work.out (processEncode_ami _ _ bs))⟩

/-- A successful ENC.DIFF_MANCHESTER (R153). -/
theorem encDiffManchester_success (ht : exec .encDiffManchester s = .next t)
    (hr : t.response = some ⟨.ok, out, ann⟩) :
    ∃ bs, s.inp = bitElements bs ∧
      out = halfSamples (cfgSamples s.cfg) bs.length (diffHalves (cfgPolarity s.cfg) bs) := by
  obtain ⟨hcfg, bs, hinp, hout⟩ := encode_success rfl ht hr
  have heven := (wfCfg_samples hcfg).2 rfl
  exact ⟨bs, hinp, hout.symm.trans (congrArg Work.out (processEncode_diffManchester heven _ bs))⟩

/-- A successful ENC.MLT3 (R158). -/
theorem encMlt3_success (ht : exec .encMlt3 s = .next t) (hr : t.response = some ⟨.ok, out, ann⟩) :
    0 < cfgSamples s.cfg ∧ ∃ bs, s.inp = bitElements bs ∧
      out = heldSamples (cfgSamples s.cfg) bs.length (mlt3Level (cfgPolarity s.cfg) bs) := by
  obtain ⟨hcfg, bs, hinp, hout⟩ := encode_success rfl ht hr
  exact ⟨(wfCfg_samples hcfg).1, bs, hinp, hout.symm.trans (congrArg Work.out (processEncode_mlt3 _ _ bs))⟩

end

/-! AMI. -/

/-- A mark of AMI has sp inverted once for it and once for each earlier 1. -/
theorem amiLevel_eq_level {sp d : Sign} {bs : List Bit} {k : Nat} :
    amiLevel sp bs k = d.level ↔ isOne bs k = true ∧ flipped sp (onesBefore bs k + 1) = d := by
  unfold amiLevel
  cases isOne bs k <;> simp

/-- AMI is at zero exactly where the bit is no 1. -/
theorem amiLevel_eq_zero {sp : Sign} {bs : List Bit} {k : Nat} : amiLevel sp bs k = .zero ↔ isOne bs k = false := by
  unfold amiLevel
  cases isOne bs k <;> simp

/-- Settles O46: a mark's polarity is sp inverted once per 1 up to it, and zeros between two marks are no 1s. -/
theorem amiMarksAlternate : Obligations.AmiMarksAlternate := by
  unfold Obligations.AmiMarksAlternate
  intro s t out ann ht hr S
  obtain ⟨hpos, bs, -, hout⟩ := encAmi_success ht hr
  have hlevel : ∀ {k l}, out[k * S]? = some (sampleByte l) → amiLevel (cfgPolarity s.cfg) bs k = l :=
    fun h => ((heldSamples_getElem?_eq_some hpos).mp (hout ▸ h)).2
  have hzero : ∀ {k}, out[k * S]? = some 0x00 → isOne bs k = false :=
    fun h => amiLevel_eq_zero.mp (hlevel (l := .zero) h)
  refine ⟨fun j d hj hzeros => ?_, fun i j a d hij hi hj hzeros => ?_⟩
  · obtain ⟨-, rfl⟩ := amiLevel_eq_level.mp (hlevel hj)
    rw [onesBefore_of_zeros (Nat.zero_le j) fun k _ hk => hzero (hzeros k hk)]
    exact flipped_succ _ 0
  · obtain ⟨hone, rfl⟩ := amiLevel_eq_level.mp (hlevel hi)
    obtain ⟨-, rfl⟩ := amiLevel_eq_level.mp (hlevel hj)
    rw [onesBefore_of_zeros hij fun k hik hkj => hzero (hzeros k hik hkj), onesBefore_succ, if_pos hone]
    exact flipped_succ _ _

/-! Differential Manchester. -/

/-- Bit k ends at sp inverted once for each 1 up to and with it, and starts at the opposite level (R151). -/
theorem diffHalves_eq (sp : Sign) (bs : List Bit) (k : Nat) : diffHalves sp bs k =
    ((flipped sp (onesBefore bs (k + 1))).negate.level, (flipped sp (onesBefore bs (k + 1))).level) := by
  rw [diffHalves, onesBefore_succ]
  cases isOne bs k <;> simp [flipped_succ]

/-- At S = 2 the two samples of bit k are opposite, and the second has sp inverted once for each 1 up to and with it. -/
theorem diffManchester_samples (sp : Sign) {bs : List Bit} {k : Nat} (hk : k < bs.length) :
    (halfSamples 2 bs.length (diffHalves sp bs))[2 * k]? =
        some (sampleByte (flipped sp (onesBefore bs (k + 1))).negate.level) ∧
      (halfSamples 2 bs.length (diffHalves sp bs))[2 * k + 1]? =
        some (sampleByte (flipped sp (onesBefore bs (k + 1))).level) := by
  have hhalves := halfSamples_two_getElem? hk (diffHalves sp bs)
  rwa [diffHalves_eq] at hhalves

/-- Settles O47: the level before bit k is sp inverted once per earlier 1, and bit k starts at the opposite of the level it
ends at. -/
theorem diffManchesterTransitions : Obligations.DiffManchesterTransitions := by
  unfold Obligations.DiffManchesterTransitions
  intro s t out ann ht hr hS k hk before
  obtain ⟨bs, hinp, hout⟩ := encDiffManchester_success ht hr
  rw [hS] at hout
  subst hout
  have hlen : k < bs.length := by simpa [hinp, bitElements] using hk
  have hbefore : before = some (sampleByte (flipped (cfgPolarity s.cfg) (onesBefore bs k)).level) := by
    cases k with
    | zero => rfl
    | succ k => exact (diffManchester_samples _ (Nat.lt_of_succ_lt hlen)).2
  obtain ⟨hfirst, hsecond⟩ := diffManchester_samples (cfgPolarity s.cfg) hlen
  simp only [hbefore, hfirst, hsecond, hinp, bitElements_getElem?_eq_zero hlen, ne_eq, Option.some_inj, sampleByte_eq,
    levelByte_inj, level_eq_level, onesBefore_succ]
  refine ⟨negate_ne _, ?_⟩
  cases isOne bs k <;> simp [flipped_succ]

/-! MLT-3. -/

/-- A step along the MLT-3 cycle always changes the level, and never to the opposite mark (R160). -/
theorem mlt3Cycle_step (sp : Sign) (n : Nat) : mlt3Cycle sp (n + 1) ≠ mlt3Cycle sp n ∧
    ∀ a : Sign, mlt3Cycle sp n = a.level → mlt3Cycle sp (n + 1) ≠ a.negate.level := by
  obtain ⟨hfromZero, hfromMark⟩ := mlt3Cycle_succ sp n
  by_cases h : mlt3Cycle sp n = .zero
  · rw [(hfromZero h).1, h]
    exact ⟨level_ne_zero _, fun a ha => absurd ha (zero_ne_level a)⟩
  · rw [(hfromMark h).1]
    exact ⟨Ne.symm h, fun a _ => zero_ne_level _⟩

/-- Settles O48: the level before bit k is the cycle after the earlier 1s, and bit k takes one more step when it is a 1. -/
theorem mlt3FollowsCycle : Obligations.Mlt3FollowsCycle := by
  unfold Obligations.Mlt3FollowsCycle
  intro s t bs out ann hinp ht hr S sp k hk before
  obtain ⟨hpos, bits, hbits, hout⟩ := encMlt3_success ht hr
  obtain rfl : bs = bits := bitElements_injective (hinp.symm.trans hbits)
  have hsample : ∀ j < bs.length, out[j * S]? = some (sampleByte (mlt3Cycle sp (onesBefore bs (j + 1)))) :=
    fun j hj => hout ▸ (heldSamples_getElem?_eq_some hpos).mpr ⟨hj, rfl⟩
  have hbefore : before = some (sampleByte (mlt3Cycle sp (onesBefore bs k))) := by
    cases k with
    | zero => rfl
    | succ k => exact hsample k (Nat.lt_of_succ_lt hk)
  obtain ⟨hchange, hmark⟩ := mlt3Cycle_step sp (onesBefore bs k)
  refine ⟨hsample k hk, ?_⟩
  simp only [hsample k hk, hbefore, ne_eq, Option.some_inj, sampleByte_eq, levelByte_inj, onesBefore_succ]
  cases isOne bs k with
  | false => simp +contextual
  | true => simpa using ⟨hchange, hmark⟩

end Sys2Proof.Machine
end

section
/-! The DB3 steps, case by case (spec/42_db3.md R204 to R222). -/

namespace Sys2Proof.Machine

/-- The detector counts, where the count fits ZRC (R202). -/
theorem runLength_eq_some {z z' : Fin 4} (h : z'.val = z.val + 1) : runLength z = some z' := by
  have hlt : z.val < 3 := by omega
  rw [runLength_of_lt hlt]
  exact congrArg some (Fin.ext h.symm)

/-- A substitution at an even count of pulses (R206, R207, R209, R210). -/
theorem db3Substitute_of_even (p : Params) {w : Work} (h : w.pss % 2 = 0) : db3Substitute p w =
    { w with
      sym := dropLast w.sym 3 ++ [.zero, .zero, .zero, w.pol.level], zrc := 0, pss := 0
      ann := if p.annot then w.ann ++ [⟨((dropLast w.sym 3).length + 3) * p.samples, .violation, w.pol⟩]
        else w.ann } := by
  simp [db3Substitute, evenPss, h, evenTemplate, annotate_eq]

/-- A substitution at an odd count of pulses (R206, R208, R209, R210). -/
theorem db3Substitute_of_odd (p : Params) {w : Work} (h : w.pss % 2 = 1) : db3Substitute p w =
    { w with
      sym := dropLast w.sym 3 ++ [w.pol.level, .zero, .zero, w.pol.negate.level], pol := w.pol.negate, zrc := 0
      pss := 0
      ann := if p.annot then
          w.ann ++ [⟨(dropLast w.sym 3).length * p.samples, .balancing, w.pol⟩,
            ⟨((dropLast w.sym 3).length + 3) * p.samples, .violation, w.pol.negate⟩]
        else w.ann } := by
  simp [db3Substitute, evenPss, h, oddTemplate, annotate_eq]

/-- Settles O30: the step's four cases are its own lemmas. -/
theorem db3EncodeSteps : Obligations.Db3EncodeSteps := by
  unfold Obligations.Db3EncodeSteps
  intro p w
  refine ⟨db3EncStep_one p w, fun z hz => ?_, fun hz hpss => ?_, fun hz hpss => ?_⟩
  · simp [db3EncStep, runLength_eq_some hz]
  · exact (db3EncStep_fourthZero p (congrArg Fin.val hz)).trans (db3Substitute_of_even p hpss)
  · exact (db3EncStep_fourthZero p (congrArg Fin.val hz)).trans (db3Substitute_of_odd p hpss)

theorem db3DecStep_normal {c : Cell} {w : Work} (h : w.dmode = .normal) : db3DecStep c w = db3DecNormal c.h0 w := by
  rw [db3DecStep, h]

/-- The decoder in NORMAL counts a zero (R216). -/
theorem db3DecNormal_zero {w : Work} {z : Fin 4} (h : runLength w.zrc = some z) :
    db3DecNormal .zero w = .ok (false, { w with zrc := z }) := by
  simp [db3DecNormal, h]

/-- The decoder in NORMAL refuses a fourth zero (R216). -/
theorem db3DecNormal_fourthZero {w : Work} (h : runLength w.zrc = none) :
    db3DecNormal .zero w = .error .invalidSubstitutionPattern := by
  simp [db3DecNormal, h]

/-- The decoder in NORMAL on a pulse that alternates (R217). -/
theorem db3DecNormal_dataPulse (w : Work) : db3DecNormal w.pol.negate.level w =
    .ok (true, { w with zrc := 0, pol := w.pol.negate, pss := w.pss + 1 }) := by
  simp [db3DecNormal]

/-- The decoder in NORMAL on a violation (R218). -/
theorem db3DecNormal_violation (w : Work) : db3DecNormal w.pol.level w =
    if w.zrc = 3 ∧ w.pss % 2 = 0 then .ok (false, { w with zrc := 0, pss := 0 })
    else if w.zrc = 0 ∧ w.pss % 2 = 1 then .ok (false, { w with dmode := .afterB1 })
    else .error .invalidSubstitutionPattern := by
  simp [db3DecNormal, evenPss]

/-- Settles O31: NORMAL has a zero, an alternating pulse and a violation; each other mode admits one symbol. -/
theorem db3DecodeSteps : Obligations.Db3DecodeSteps := by
  unfold Obligations.Db3DecodeSteps
  intro w l bad
  refine ⟨fun hmode => ?_, fun hmode => ?_, fun hmode => ?_, fun hmode => ?_, fun hmode => if_pos hmode,
    fun hmode => if_neg hmode⟩
  · simp only [db3DecStep_normal hmode]
    refine ⟨fun z hz => db3DecNormal_zero (runLength_eq_some hz),
      fun hz => db3DecNormal_fourthZero (runLength_of_three (congrArg Fin.val hz)), ?_, ?_⟩
    · rintro rfl
      exact db3DecNormal_dataPulse w
    · rintro rfl
      rw [db3DecNormal_violation]
      refine ⟨fun hz hpss => if_pos ⟨hz, hpss⟩, fun hz hpss => ?_, fun heven hodd => ?_⟩
      · rw [if_neg (by simp [hpss]), if_pos ⟨hz, hpss⟩]
      · rw [if_neg heven, if_neg hodd]
  all_goals rw [db3DecStep, hmode]

end Sys2Proof.Machine
end

section
/-! The pending-buffer realisation of the DB3 encoder (spec/42_db3.md R212). -/

namespace Sys2Proof.Machine

/-! One bit of the pending buffer. -/

theorem streamStep_one (p : Params) (d : Db3Stream) : streamStep p true d =
    { d with released := d.released ++ List.replicate d.held .zero ++ [d.pol.negate.level], held := 0,
             pol := d.pol.negate, pss := d.pss + 1 } := rfl

theorem streamStep_zero (p : Params) {d : Db3Stream} (h : d.held < 3) :
    streamStep p false d = { d with held := d.held + 1 } := by
  simp [streamStep, h]

theorem streamStep_even (p : Params) {d : Db3Stream} (h : ¬ d.held < 3) (hpss : d.pss % 2 = 0) :
    streamStep p false d =
      { d with
        released := d.released ++ [.zero, .zero, .zero, d.pol.level], held := 0, pss := 0
        ann := if p.annot then d.ann ++ [⟨(d.released.length + 3) * p.samples, .violation, d.pol⟩] else d.ann } := by
  simp [streamStep, h, hpss]

theorem streamStep_odd (p : Params) {d : Db3Stream} (h : ¬ d.held < 3) (hpss : d.pss % 2 = 1) :
    streamStep p false d =
      { d with
        released := d.released ++ [d.pol.level, .zero, .zero, d.pol.negate.level], held := 0, pss := 0
        pol := d.pol.negate
        ann := if p.annot then
            d.ann ++ [⟨d.released.length * p.samples, .balancing, d.pol⟩,
              ⟨(d.released.length + 3) * p.samples, .violation, d.pol.negate⟩]
          else d.ann } := by
  simp [streamStep, h, hpss]

theorem streamRun_append (p : Params) (as bs : List Bit) (d : Db3Stream) :
    streamRun p (as ++ bs) d = streamRun p bs (streamRun p as d) := by
  induction as generalizing d with
  | nil => rfl
  | cons a as ih => exact ih _

/-- No step takes back a released symbol (R212). -/
theorem streamStep_released_prefix (p : Params) (b : Bit) (d : Db3Stream) :
    d.released <+: (streamStep p b d).released := by
  cases b with
  | true => exact (List.prefix_append _ _).trans (List.prefix_append _ _)
  | false =>
    by_cases h : d.held < 3
    · rw [streamStep_zero p h]
    · rcases Nat.mod_two_eq_zero_or_one d.pss with hpss | hpss
      · rw [streamStep_even p h hpss]
        exact List.prefix_append _ _
      · rw [streamStep_odd p h hpss]
        exact List.prefix_append _ _

theorem streamRun_released_prefix (p : Params) (bs : List Bit) (d : Db3Stream) :
    d.released <+: (streamRun p bs d).released := by
  induction bs generalizing d with
  | nil => exact List.prefix_rfl
  | cons b bs ih => exact (streamStep_released_prefix p b d).trans (ih _)

/-! The pending buffer and the engine. -/

/-- The pending buffer `d` and the engine's working state `w` hold the same symbols, annotations and registers. -/
structure Db3Agrees (d : Db3Stream) (w : Work) : Prop where
  sym : w.sym = d.released ++ List.replicate d.held .zero
  ann : d.ann = w.ann
  held : d.held = w.zrc.val
  pol : d.pol = w.pol
  pss : d.pss = w.pss

/-- The three symbols that the engine removes are the zeros that the pending buffer holds back (R206, R212). -/
theorem Db3Agrees.dropLast_eq {d : Db3Stream} {w : Work} (h : Db3Agrees d w) (hz : w.zrc.val = 3) :
    dropLast w.sym 3 = d.released := by
  simp [dropLast, h.sym, h.held, hz]

/-- Both take the same step (R204 to R210, R212). -/
theorem Db3Agrees.step {d : Db3Stream} {w : Work} (p : Params) (b : Bit) (h : Db3Agrees d w) :
    Db3Agrees (streamStep p b d) (db3EncStep p b w) := by
  obtain ⟨released, held, pol, pss, ann⟩ := d
  obtain ⟨hsym, rfl, rfl, rfl, rfl⟩ := id h
  cases b with
  | true => exact ⟨by rw [streamStep_one, db3EncStep_one]; simp [db3DataPulse, hsym], rfl, rfl, rfl, rfl⟩
  | false =>
    by_cases hz : w.zrc.val < 3
    · rw [streamStep_zero p hz, db3EncStep_zero p hz]
      exact ⟨by simp [hsym, List.replicate_succ'], rfl, rfl, rfl, rfl⟩
    · have hz3 : w.zrc.val = 3 := by omega
      rw [db3EncStep_fourthZero p hz3]
      rcases Nat.mod_two_eq_zero_or_one w.pss with hpss | hpss
      · rw [streamStep_even p hz hpss, db3Substitute_of_even p hpss, h.dropLast_eq hz3]
        exact ⟨by simp, rfl, rfl, rfl, rfl⟩
      · rw [streamStep_odd p hz hpss, db3Substitute_of_odd p hpss, h.dropLast_eq hz3]
        exact ⟨by simp, rfl, rfl, rfl, rfl⟩

/-- Both run through all bits alike (R110, R212). -/
theorem Db3Agrees.loop {d : Db3Stream} {w : Work} (p : Params) (bs : List Bit) (h : Db3Agrees d w) :
    Db3Agrees (streamRun p bs d) (db3EncLoop p bs w) := by
  induction bs generalizing d w with
  | nil => exact h
  | cons b bs ih =>
    obtain ⟨hsym, hann, hheld, hpol, hpss⟩ := h.step p b
    exact ih ⟨hsym, hann, hheld, hpol, hpss⟩

/-- From phase E on, the pending buffer agrees with the engine (R212). -/
theorem db3Agrees_loop (p : Params) (sp : Sign) (bs : List Bit) :
    Db3Agrees (streamRun p bs (streamStart sp)) (db3EncLoop p bs (resetWork sp)) :=
  Db3Agrees.loop p bs ⟨rfl, rfl, rfl, rfl, rfl⟩

/-- Every symbol but the last three has been released (R212). -/
theorem lt_released_length {p : Params} {sp : Sign} {bs : List Bit} {k : Nat} (h : k + 3 < bs.length) :
    k < (streamRun p bs (streamStart sp)).released.length := by
  have hagree := db3Agrees_loop p sp bs
  have hlen := (db3DecodesTo_encLoop p sp bs).length_eq
  have hz := (db3EncLoop p bs (resetWork sp)).zrc.isLt
  simp only [hagree.sym, List.length_append, List.length_replicate, hagree.held] at hlen
  omega

/-- Settles O53: the pending buffer simulates the engine, and what it has released stays, which is all but three symbols. -/
theorem db3PendingBufferGivesSameSymbols : Obligations.Db3PendingBufferGivesSameSymbols := by
  unfold Obligations.Db3PendingBufferGivesSameSymbols
  intro p sp bs more w d
  have hagree := db3Agrees_loop p sp bs
  have hmore := db3Agrees_loop p sp (bs ++ more)
  have hkept : d.released <+: (streamRun p (bs ++ more) (streamStart sp)).released :=
    streamRun_append p bs more _ ▸ streamRun_released_prefix p more d
  refine ⟨hagree.sym.symm, hagree.ann, hagree.held, hagree.held ▸ Nat.le_of_lt_succ w.zrc.isLt, hkept,
    fun k hk => ?_⟩
  have hlt : k < d.released.length := lt_released_length hk
  rw [hmore.sym, hagree.sym, List.getElem?_append_left hlt,
    List.getElem?_append_left (hlt.trans_le hkept.length_le)]
  exact (List.prefix_iff_getElem?.mp hkept k hlt).trans (List.getElem?_eq_getElem hlt).symm

end Sys2Proof.Machine
end

section
/-! Reading a list that has grown at its end: its elements, and the 1s of a bit sequence. -/

namespace Sys2Proof.Machine

theorem getElem?_of_prefix {α : Type} {as bs : List α} {k : Nat} {a : α} (h : as <+: bs) (hk : as[k]? = some a) :
    bs[k]? = some a := by
  obtain ⟨cs, rfl⟩ := h
  obtain ⟨hlt, -⟩ := List.getElem?_eq_some_iff.mp hk
  rw [List.getElem?_append_left hlt, hk]

theorem getElem?_append_length_add {α : Type} (as bs : List α) (j : Nat) : (as ++ bs)[as.length + j]? = bs[j]? := by
  rw [List.getElem?_append_right (by omega), Nat.add_sub_cancel_left]

theorem isOne_of_prefix {as bs : List Bit} {k : Nat} (h : as <+: bs) (hk : k < as.length) :
    isOne bs k = isOne as k := by
  obtain ⟨cs, rfl⟩ := h
  simp [isOne, List.getElem?_append_left hk]

theorem isOne_of_length_le {bs : List Bit} {k : Nat} (h : bs.length ≤ k) : isOne bs k = false := by
  simp [isOne, List.getElem?_eq_none h]

/-- Only a bit of the sequence is a 1. -/
theorem lt_length_of_isOne {bs : List Bit} {k : Nat} (h : isOne bs k = true) : k < bs.length := by
  by_contra hk
  rw [isOne_of_length_le (Nat.le_of_not_lt hk)] at h
  cases h

/-- Zeros at the end are no 1s. -/
@[simp] theorem isOne_append_zeros (bs : List Bit) (n k : Nat) :
    isOne (bs ++ List.replicate n false) k = isOne bs k := by
  by_cases hk : k < bs.length
  · exact isOne_of_prefix (List.prefix_append _ _) hk
  · have hnone := List.getElem?_eq_none (Nat.le_of_not_lt hk)
    rw [isOne, isOne, List.getElem?_append_right (Nat.le_of_not_lt hk), hnone, List.getElem?_replicate]
    split <;> rfl

/-- Before the first 1 there is none. -/
theorem isOne_eq_false_of_onesBefore {bs : List Bit} {j k : Nat} (h : onesBefore bs j = 0) (hk : k < j) :
    isOne bs k = false := by
  rw [Bool.eq_false_iff]
  intro hone
  refine List.count_eq_zero.mp h (List.mem_iff_getElem?.mpr ⟨k, ?_⟩)
  rw [List.getElem?_take_of_lt hk]
  simpa [isOne] using hone

end Sys2Proof.Machine
end

section
/-! The history of a DB3 output (spec/42_db3.md R204 to R210): what the encoder has made final is a sequence of pulses, each
after at most three zeros, and of templates. The laws of the output are read off it. -/

namespace Sys2Proof.Machine

/-- The bits whose symbols are final, those symbols, the records of their templates, and POL and PSS after them. -/
structure Db3History where
  bits : List Bit
  syms : List Level
  notes : List Annotation
  pol : Sign
  pss : Nat

namespace Db3History

/-- Plain zeros (R205). -/
def hold (n : Nat) (h : Db3History) : Db3History :=
  { h with bits := h.bits ++ List.replicate n false, syms := h.syms ++ List.replicate n .zero }

/-- A data pulse (R204). -/
def pulse (h : Db3History) : Db3History :=
  { h with bits := h.bits ++ [true], syms := h.syms ++ [h.pol.negate.level], pol := h.pol.negate, pss := h.pss + 1 }

/-- A template `[0,0,0,V]` and its record (R207, R209, R210). -/
def even (S : Nat) (h : Db3History) : Db3History :=
  { h with
    bits := h.bits ++ List.replicate 4 false, syms := h.syms ++ [.zero, .zero, .zero, h.pol.level]
    notes := h.notes ++ [⟨(h.syms.length + 3) * S, .violation, h.pol⟩], pss := 0 }

/-- A template `[B,0,0,V]` and its records (R208, R209, R210). -/
def odd (S : Nat) (h : Db3History) : Db3History :=
  { bits := h.bits ++ List.replicate 4 false, syms := h.syms ++ [h.pol.level, .zero, .zero, h.pol.negate.level]
    notes := h.notes ++ [⟨h.syms.length * S, .balancing, h.pol⟩,
      ⟨(h.syms.length + 3) * S, .violation, h.pol.negate⟩]
    pol := h.pol.negate, pss := 0 }

/-- The histories that the encoder can have, from phase E on. -/
inductive Reached (S : Nat) (sp : Sign) : Db3History → Prop
  | start : Reached S sp ⟨[], [], [], sp, 0⟩
  | pulse {h : Db3History} {n : Nat} (hr : Reached S sp h) (hn : n ≤ 3) : Reached S sp (h.hold n).pulse
  | even {h : Db3History} (hr : Reached S sp h) (hpss : h.pss % 2 = 0) : Reached S sp (h.even S)
  | odd {h : Db3History} (hr : Reached S sp h) (hpss : h.pss % 2 = 1) : Reached S sp (h.odd S)

/-! The encoder makes such a history. -/

/-- The pending buffer with this history and `n` zeros held back. -/
def stream (p : Params) (n : Nat) (h : Db3History) : Db3Stream :=
  ⟨h.syms, n, h.pol, h.pss, if p.annot then h.notes else []⟩

theorem streamStep_stream_one (p : Params) (n : Nat) (h : Db3History) :
    streamStep p true (h.stream p n) = (h.hold n).pulse.stream p 0 := rfl

theorem streamStep_stream_even (p : Params) {h : Db3History} (hpss : h.pss % 2 = 0) :
    streamStep p false (h.stream p 3) = (h.even p.samples).stream p 0 := by
  rw [Machine.streamStep_even p (lt_irrefl 3) hpss]
  cases ha : p.annot <;> simp [stream, even, ha]

theorem streamStep_stream_odd (p : Params) {h : Db3History} (hpss : h.pss % 2 = 1) :
    streamStep p false (h.stream p 3) = (h.odd p.samples).stream p 0 := by
  rw [Machine.streamStep_odd p (lt_irrefl 3) hpss]
  cases ha : p.annot <;> simp [stream, odd, ha]

/-- After any bits the pending buffer has a reached history and holds at most three zeros back (R202, R212). -/
theorem exists_stream (p : Params) (sp : Sign) (bs : List Bit) : ∃ h n, Reached p.samples sp h ∧ n ≤ 3 ∧
    streamRun p bs (streamStart sp) = h.stream p n ∧ bs = (h.hold n).bits := by
  induction bs using List.reverseRecOn with
  | nil => exact ⟨_, 0, .start, by omega, by simp [streamRun, streamStart, stream], rfl⟩
  | append_singleton bs b ih =>
    obtain ⟨h, n, hr, hn, hrun, rfl⟩ := ih
    have hlast : streamRun p ((h.hold n).bits ++ [b]) (streamStart sp) = streamStep p b (h.stream p n) := by
      rw [streamRun_append, hrun]
      rfl
    rw [hlast]
    cases b with
    | true => exact ⟨_, 0, hr.pulse hn, by omega, streamStep_stream_one p n h, (List.append_nil _).symm⟩
    | false =>
      by_cases hlt : n < 3
      · exact ⟨h, n + 1, hr, hlt, streamStep_zero p hlt, by simp [hold, List.replicate_succ']⟩
      · obtain rfl : n = 3 := by omega
        rcases Nat.mod_two_eq_zero_or_one h.pss with hpss | hpss
        · exact ⟨_, 0, hr.even hpss, by omega, streamStep_stream_even p hpss, by simp [hold, Db3History.even]⟩
        · exact ⟨_, 0, hr.odd hpss, by omega, streamStep_stream_odd p hpss, by simp [hold, Db3History.odd]⟩

/-- A history as it stands at the end of the input: up to three plain zeros may follow (R211). -/
def Finished (S : Nat) (sp : Sign) (f : Db3History) : Prop := ∃ h n, Reached S sp h ∧ n ≤ 3 ∧ f = h.hold n

/-- The engine's SYM and ANN are those of a finished history. -/
theorem exists_finished (p : Params) (sp : Sign) (bs : List Bit) : ∃ f, Finished p.samples sp f ∧ f.bits = bs ∧
    (db3EncLoop p bs (resetWork sp)).sym = f.syms ∧
    (db3EncLoop p bs (resetWork sp)).ann = if p.annot then f.notes else [] := by
  obtain ⟨h, n, hr, hn, hrun, hbits⟩ := exists_stream p sp bs
  have hagree := db3Agrees_loop p sp bs
  rw [hrun] at hagree
  exact ⟨_, ⟨h, n, hr, hn, rfl⟩, hbits.symm, hagree.sym, hagree.ann.symm⟩

@[simp] theorem hold_pol (n : Nat) (h : Db3History) : (h.hold n).pol = h.pol := rfl
@[simp] theorem hold_notes (n : Nat) (h : Db3History) : (h.hold n).notes = h.notes := rfl
@[simp] theorem hold_length (n : Nat) (h : Db3History) : (h.hold n).syms.length = h.syms.length + n := by
  simp [hold]
@[simp] theorem pulse_length (h : Db3History) : h.pulse.syms.length = h.syms.length + 1 := by simp [pulse]
@[simp] theorem even_length (S : Nat) (h : Db3History) : (h.even S).syms.length = h.syms.length + 4 := by simp [even]
@[simp] theorem odd_length (S : Nat) (h : Db3History) : (h.odd S).syms.length = h.syms.length + 4 := by simp [odd]

/-! Later histories. -/

/-- `h'` continues `h`: it only adds to it, with records for later symbols. -/
structure Extends (S : Nat) (h h' : Db3History) : Prop where
  bits : h.bits <+: h'.bits
  syms : h.syms <+: h'.syms
  notes : ∃ more, h'.notes = h.notes ++ more ∧ ∀ x ∈ more, h.syms.length * S ≤ x.position

section
variable {S : Nat} {sp : Sign} {h h' h'' : Db3History}

theorem Extends.refl : Extends S h h :=
  ⟨List.prefix_rfl, List.prefix_rfl, [], by simp, by simp⟩

theorem Extends.trans (h₁ : Extends S h h') (h₂ : Extends S h' h'') : Extends S h h'' := by
  obtain ⟨more₁, hnotes₁, hlate₁⟩ := h₁.notes
  obtain ⟨more₂, hnotes₂, hlate₂⟩ := h₂.notes
  have hlen := Nat.mul_le_mul_right S h₁.syms.length_le
  refine ⟨h₁.bits.trans h₂.bits, h₁.syms.trans h₂.syms, more₁ ++ more₂, by simp [hnotes₁, hnotes₂], fun x hx => ?_⟩
  rcases List.mem_append.mp hx with hx | hx
  · exact hlate₁ x hx
  · exact hlen.trans (hlate₂ x hx)

theorem Extends.hold (n : Nat) : Extends S h (h.hold n) :=
  ⟨List.prefix_append _ _, List.prefix_append _ _, [], by simp, by simp⟩

theorem Extends.pulse : Extends S h h.pulse :=
  ⟨List.prefix_append _ _, List.prefix_append _ _, [], by simp [Db3History.pulse], by simp⟩

theorem Extends.even : Extends S h (h.even S) := by
  refine ⟨List.prefix_append _ _, List.prefix_append _ _, _, rfl, ?_⟩
  simp [Nat.mul_le_mul_right]

theorem Extends.odd : Extends S h (h.odd S) := by
  refine ⟨List.prefix_append _ _, List.prefix_append _ _, _, rfl, ?_⟩
  simp [Nat.mul_le_mul_right]

theorem Extends.mem_notes (hext : Extends S h h') {x : Annotation} (hx : x ∈ h.notes) : x ∈ h'.notes := by
  obtain ⟨more, hnotes, -⟩ := hext.notes
  rw [hnotes]
  exact List.mem_append_left _ hx

/-! What every reached history keeps. -/

/-- One symbol per bit (R37). -/
theorem Reached.length_eq (hr : Reached S sp h) : h.bits.length = h.syms.length := by
  induction hr with
  | start => rfl
  | pulse _ _ ih => simpa [Db3History.pulse, Db3History.hold] using ih
  | even _ _ ih => simpa [Db3History.even] using ih
  | odd _ _ ih => simpa [Db3History.odd] using ih

/-- The records are for symbols of the history (R210). -/
theorem Reached.position_lt (hpos : 0 < S) (hr : Reached S sp h) :
    ∀ x ∈ h.notes, x.position < h.syms.length * S := by
  induction hr with
  | start => simp
  | @pulse h n hr hn ih =>
    intro x hx
    exact (ih x hx).trans_le (Nat.mul_le_mul_right S (by simp; omega))
  | @even h hr hpss ih =>
    intro x hx
    rw [even_length]
    rcases List.mem_append.mp hx with hx | hx
    · exact (ih x hx).trans_le (Nat.mul_le_mul_right S (by omega))
    · obtain rfl := List.mem_singleton.mp hx
      exact Nat.mul_lt_mul_of_pos_right (by omega) hpos
  | @odd h hr hpss ih =>
    intro x hx
    rw [odd_length]
    rcases List.mem_append.mp hx with hx | hx
    · exact (ih x hx).trans_le (Nat.mul_le_mul_right S (by omega))
    · rcases List.mem_pair.mp hx with rfl | rfl <;> exact Nat.mul_lt_mul_of_pos_right (by omega) hpos

/-- POL is the polarity of the last mark (R30). -/
theorem Reached.pol_eq_lastMark (hr : Reached S sp h) : h.pol = lastMark sp h.syms := by
  induction hr with
  | start => rfl
  | pulse _ _ ih => simp [Db3History.pulse, Db3History.hold]
  | even _ _ ih => simp [Db3History.even]
  | odd _ _ ih => simp [Db3History.odd]

/-- The pulse that has just been written is for a 1 (R204). -/
theorem Reached.isOne_pulse (hr : Reached S sp h) (n : Nat) :
    isOne (h.hold n).pulse.bits (h.hold n).syms.length = true := by
  have hlen : (h.hold n).syms.length = (h.hold n).bits.length := by simp [Db3History.hold, hr.length_eq]
  rw [hlen]
  exact isOne_append_last _ _

/-- An odd count of pulses means that the last symbol is a data pulse (R203, R209). -/
theorem Reached.last_of_odd (hr : Reached S sp h) (hpss : h.pss % 2 = 1) :
    ∃ i, i + 1 = h.syms.length ∧ isOne h.bits i = true ∧ h.syms[i]? = some h.pol.level := by
  cases hr with
  | start => cases hpss
  | @pulse h n hr hn => exact ⟨(h.hold n).syms.length, by simp, hr.isOne_pulse n, getElem?_append_length_add _ _ 0⟩
  | even => cases hpss
  | odd => cases hpss

/-- A reached history is empty, or ends in a data pulse or in the V of a template. -/
theorem Reached.last (hr : Reached S sp h) : h.syms.length = 0 ∨
    ∃ i, i + 1 = h.syms.length ∧ (isOne h.bits i = true ∨ ∃ V, ⟨i * S, .violation, V⟩ ∈ h.notes) := by
  cases hr with
  | start => exact .inl rfl
  | @pulse h n hr hn => exact .inr ⟨(h.hold n).syms.length, by simp, .inl (hr.isOne_pulse n)⟩
  | @even h hr hpss => exact .inr ⟨h.syms.length + 3, by simp, .inr ⟨h.pol, by simp [Db3History.even]⟩⟩
  | @odd h hr hpss => exact .inr ⟨h.syms.length + 3, by simp, .inr ⟨h.pol.negate, by simp [Db3History.odd]⟩⟩

end

end Db3History

end Sys2Proof.Machine
end

section
/-! Where the pulses and the records of a DB3 output come from, and what lies between two data pulses (spec/42_db3.md R224
to R228). -/

namespace Sys2Proof.Machine

namespace Db3History

section
variable {S : Nat} {sp : Sign} {h f : Db3History}

/-- The symbols of a chunk that stands after `h`. -/
theorem getElem?_of_chunk {chunk : List Level} (hprefix : h.syms ++ chunk <+: f.syms) {j : Nat} {l : Level}
    (hl : chunk[j]? = some l) : f.syms[h.syms.length + j]? = some l :=
  getElem?_of_prefix hprefix ((getElem?_append_length_add _ _ _).trans hl)

theorem Finished.length_eq (hf : Finished S sp f) : f.bits.length = f.syms.length := by
  obtain ⟨h, n, hr, -, rfl⟩ := hf
  simp [hold, hr.length_eq]

theorem Finished.position_lt (hpos : 0 < S) (hf : Finished S sp f) :
    ∀ x ∈ f.notes, x.position < f.syms.length * S := by
  obtain ⟨h, n, hr, -, rfl⟩ := hf
  exact fun x hx => (hr.position_lt hpos x hx).trans_le (Nat.mul_le_mul_right S (by simp))

/-! The zero-run bound. -/

/-- Within four symbols of the start of `k` there is a mark. -/
def MarkWithin (h : Db3History) (k : Nat) : Prop := ∃ j < 4, ∃ a : Sign, h.syms[k + j]? = some a.level

/-- A chunk that ends, at symbol `e`, in a mark brings a mark within four symbols of each of its symbols. -/
theorem markWithin_of_chunk {a : Sign} {e : Nat} (hext : h.syms <+: f.syms) (hmark : f.syms[e]? = some a.level)
    (hlong : e < h.syms.length + 4) (hend : f.syms.length ≤ e + 1) (ih : ∀ k < h.syms.length, h.MarkWithin k) :
    ∀ k < f.syms.length, f.MarkWithin k := by
  intro k hk
  by_cases hbefore : k < h.syms.length
  · obtain ⟨j, hj, b, hb⟩ := ih k hbefore
    exact ⟨j, hj, b, getElem?_of_prefix hext hb⟩
  · refine ⟨e - k, by omega, a, ?_⟩
    rwa [show k + (e - k) = e by omega]

/-- Every data pulse and every template ends in a mark, at most three symbols after its first (R224). -/
theorem Reached.markWithin (hr : Reached S sp h) : ∀ k < h.syms.length, h.MarkWithin k := by
  induction hr with
  | start => simp
  | @pulse h n _ hn ih =>
    exact markWithin_of_chunk (e := h.syms.length + n) ((Extends.hold (S := S) n).trans .pulse).syms
      (hold_length n h ▸ getElem?_append_length_add _ _ 0) (by omega) (by simp) ih
  | @even h hr hpss ih =>
    exact markWithin_of_chunk Extends.even.syms (getElem?_append_length_add _ _ 3) (by omega) (by simp) ih
  | @odd h hr hpss ih =>
    exact markWithin_of_chunk Extends.odd.syms (getElem?_append_length_add _ _ 3) (by omega) (by simp) ih

/-- Of four symbols in a row, one is a mark (R224). -/
theorem Finished.markWithin (hf : Finished S sp f) {k : Nat} (hk : k + 4 ≤ f.syms.length) : f.MarkWithin k := by
  obtain ⟨h, n, hr, hn, rfl⟩ := hf
  rw [hold_length] at hk
  obtain ⟨j, hj, a, ha⟩ := hr.markWithin k (by omega)
  exact ⟨j, hj, a, getElem?_of_prefix (Extends.hold (S := S) n).syms ha⟩

/-! The template of a record. -/

/-- After `h` comes a template `[0,0,0,V]` of `f`. -/
structure EvenAt (S : Nat) (sp : Sign) (h f : Db3History) : Prop where
  reached : Reached S sp h
  ext : Extends S (h.even S) f

/-- After `h` comes a template `[B,0,0,V]` of `f`. -/
structure OddAt (S : Nat) (sp : Sign) (h f : Db3History) : Prop where
  reached : Reached S sp h
  pss : h.pss % 2 = 1
  ext : Extends S (h.odd S) f

/-- The record `x` is one of a template of `f` (R210). -/
inductive RecordOf (S : Nat) (sp : Sign) (f : Db3History) (x : Annotation) : Prop
  | even {h : Db3History} (hat : EvenAt S sp h f) (hx : x = ⟨(h.syms.length + 3) * S, .violation, h.pol⟩)
  | oddBalancing {h : Db3History} (hat : OddAt S sp h f) (hx : x = ⟨h.syms.length * S, .balancing, h.pol⟩)
  | oddViolation {h : Db3History} (hat : OddAt S sp h f)
      (hx : x = ⟨(h.syms.length + 3) * S, .violation, h.pol.negate⟩)

variable {x : Annotation}

theorem RecordOf.later (hx : RecordOf S sp h x) (hext : Extends S h f) : RecordOf S sp f x := by
  cases hx with
  | even hat hx => exact .even ⟨hat.reached, hat.ext.trans hext⟩ hx
  | oddBalancing hat hx => exact .oddBalancing ⟨hat.reached, hat.pss, hat.ext.trans hext⟩ hx
  | oddViolation hat hx => exact .oddViolation ⟨hat.reached, hat.pss, hat.ext.trans hext⟩ hx

/-- Every record is one of a template (R207, R208). -/
theorem Reached.recordOf (hr : Reached S sp h) (hx : x ∈ h.notes) : RecordOf S sp h x := by
  induction hr with
  | start => cases hx
  | pulse _ _ ih => exact (ih hx).later ((Extends.hold _).trans .pulse)
  | even hr hpss ih =>
    rcases List.mem_append.mp hx with hx | hx
    · exact (ih hx).later .even
    · exact .even ⟨hr, .refl⟩ (List.mem_singleton.mp hx)
  | odd hr hpss ih =>
    rcases List.mem_append.mp hx with hx | hx
    · exact (ih hx).later .odd
    · rcases List.mem_pair.mp hx with hx | hx
      · exact .oddBalancing ⟨hr, hpss, .refl⟩ hx
      · exact .oddViolation ⟨hr, hpss, .refl⟩ hx

theorem Finished.recordOf (hf : Finished S sp f) (hx : x ∈ f.notes) : RecordOf S sp f x := by
  obtain ⟨h, n, hr, -, rfl⟩ := hf
  exact (hr.recordOf hx).later (.hold n)

/-- The bits of a template are zeros. -/
theorem isOne_of_template (hr : Reached S sp h) (hbits : h.bits ++ List.replicate 4 false <+: f.bits) {j : Nat}
    (hj : j < 4) : h.syms.length + j < f.bits.length ∧ isOne f.bits (h.syms.length + j) = false := by
  have hlt : h.syms.length + j < (h.bits ++ List.replicate 4 false).length := by simp [hr.length_eq, hj]
  refine ⟨hlt.trans_le hbits.length_le, ?_⟩
  rw [isOne_of_prefix hbits hlt, isOne_append_zeros, isOne_of_length_le (by rw [hr.length_eq]; omega)]

/-- The records of an odd template. -/
theorem OddAt.balancing_mem (hat : OddAt S sp h f) : ⟨h.syms.length * S, .balancing, h.pol⟩ ∈ f.notes :=
  hat.ext.mem_notes (by simp [odd])

theorem OddAt.violation_mem (hat : OddAt S sp h f) :
    ⟨(h.syms.length + 3) * S, .violation, h.pol.negate⟩ ∈ f.notes :=
  hat.ext.mem_notes (by simp [odd])

/-- An odd template stands right after a data pulse of the polarity of its B (R208, R228). -/
theorem OddAt.after_pulse (hat : OddAt S sp h f) :
    ∃ i, i + 1 = h.syms.length ∧ isOne f.bits i = true ∧ f.syms[i]? = some h.pol.level := by
  have hext : Extends S h f := Extends.odd.trans hat.ext
  obtain ⟨i, hi, hone, hsym⟩ := hat.reached.last_of_odd hat.pss
  exact ⟨i, hi, (isOne_of_prefix hext.bits (lt_length_of_isOne hone)).trans hone,
    getElem?_of_prefix hext.syms hsym⟩

/-- An even template has no record but at its V. -/
theorem EvenAt.position_ne (hpos : 0 < S) (hat : EvenAt S sp h f) :
    ∀ y ∈ f.notes, y.position ≠ h.syms.length * S := by
  intro y hy
  obtain ⟨more, hnotes, hlate⟩ := hat.ext.notes
  have hnext : h.syms.length * S < (h.syms.length + 3) * S := Nat.mul_lt_mul_of_pos_right (by omega) hpos
  rw [hnotes, even] at hy
  simp only [List.mem_append, List.mem_singleton] at hy
  rcases hy with (hy | rfl) | hy
  · exact (hat.reached.position_lt hpos y hy).ne
  · exact hnext.ne'
  · have hlast := hlate y hy
    rw [even_length] at hlast
    exact (hnext.trans_le ((Nat.mul_le_mul_right S (by omega)).trans hlast)).ne'

/-! Between two data pulses. -/

theorem Extends.isOne_eq_true (hext : Extends S h f) {k : Nat} (hone : isOne h.bits k = true) : isOne f.bits k = true :=
  (isOne_of_prefix hext.bits (lt_length_of_isOne hone)).trans hone

/-- Every 1 is a data pulse, after up to three plain zeros (R204, R205). -/
theorem Reached.exists_pulse (hr : Reached S sp h) {j : Nat} (hone : isOne h.bits j = true) :
    ∃ f, Finished S sp f ∧ j = f.syms.length ∧ Extends S f.pulse h := by
  induction hr with
  | start => cases hone
  | @pulse h n hr hn ih =>
    have hf : Finished S sp (h.hold n) := ⟨h, n, hr, hn, rfl⟩
    have hlt := lt_length_of_isOne hone
    rw [Db3History.pulse, List.length_append, List.length_singleton, hf.length_eq] at hlt
    by_cases hnew : j = (h.hold n).syms.length
    · exact ⟨_, hf, hnew, .refl⟩
    · have hbefore : j < (h.hold n).bits.length := by rw [hf.length_eq]; omega
      rw [isOne_of_prefix (Extends.pulse (S := S)).bits hbefore] at hone
      obtain ⟨f, hf, hj, hext⟩ := ih ((isOne_append_zeros _ n j).symm.trans hone)
      exact ⟨f, hf, hj, hext.trans ((Extends.hold n).trans .pulse)⟩
  | even _ _ ih =>
    obtain ⟨f, hf, hj, hext⟩ := ih ((isOne_append_zeros _ 4 j).symm.trans hone)
    exact ⟨f, hf, hj, hext.trans .even⟩
  | odd _ _ ih =>
    obtain ⟨f, hf, hj, hext⟩ := ih ((isOne_append_zeros _ 4 j).symm.trans hone)
    exact ⟨f, hf, hj, hext.trans .odd⟩

/-- Before the first data pulse POL is sp, nothing is counted and every record is a Violation (R225). -/
theorem Reached.of_no_ones (hr : Reached S sp h) (hnone : ∀ k, isOne h.bits k = false) :
    h.pol = sp ∧ h.pss = 0 ∧ ∀ x ∈ h.notes, x.kind = .violation := by
  induction hr with
  | start => simp
  | @pulse h n hr _ _ =>
    have hone := hr.isOne_pulse n
    rw [hnone] at hone
    cases hone
  | even _ _ ih =>
    obtain ⟨hpol, -, hkind⟩ := ih fun k => (isOne_append_zeros _ 4 k).symm.trans (hnone k)
    refine ⟨hpol, rfl, fun x hx => ?_⟩
    rcases List.mem_append.mp hx with hx | hx
    · exact hkind x hx
    · rw [List.mem_singleton.mp hx]
  | odd _ hpss ih =>
    obtain ⟨-, hzero, -⟩ := ih fun k => (isOne_append_zeros _ 4 k).symm.trans (hnone k)
    simp [hzero] at hpss

/-- The Balancing records after symbol `i`. -/
def balancingAfter (S i : Nat) (notes : List Annotation) : List Annotation :=
  notes.filter fun x => x.kind == .balancing && decide (i * S < x.position)

theorem balancingAfter_append (S i : Nat) (as bs : List Annotation) :
    balancingAfter S i (as ++ bs) = balancingAfter S i as ++ balancingAfter S i bs := List.filter_append ..

theorem balancingAfter_violation (S i q : Nat) (V : Sign) : balancingAfter S i [⟨q, .violation, V⟩] = [] := rfl

/-- Of the records of an odd template after symbol `i` the Balancing record counts. -/
theorem balancingAfter_odd {S i m : Nat} (hpos : 0 < S) (him : i < m) (q : Nat) (B V : Sign) :
    balancingAfter S i [⟨m * S, .balancing, B⟩, ⟨q, .violation, V⟩] = [⟨m * S, .balancing, B⟩] := by
  have hlt : i * S < m * S := Nat.mul_lt_mul_of_pos_right him hpos
  simp [balancingAfter, hlt]

theorem balancingAfter_eq_nil {S i : Nat} {notes : List Annotation} (hle : ∀ x ∈ notes, x.position ≤ i * S) :
    balancingAfter S i notes = [] := by
  refine List.filter_eq_nil_iff.mpr fun x hx => ?_
  simp [Nat.not_lt.mpr (hle x hx)]

/-- What has come since the data pulse `i`: no odd template, and POL is its polarity; or one, right after it, and POL is the
opposite (R225). -/
def SincePulse (S : Nat) (h : Db3History) (i : Nat) : Prop :=
  ∃ a : Sign, h.syms[i]? = some a.level ∧
    (balancingAfter S i h.notes = [] ∧ h.pol = a ∨
      (balancingAfter S i h.notes).map (·.position) = [(i + 1) * S] ∧ h.pol = a.negate ∧ h.pss % 2 = 0)

/-- An odd template makes the count of pulses even, so there is no second one before the next data pulse (R203, R209). -/
theorem Reached.sincePulse (hpos : 0 < S) (hr : Reached S sp h) {i : Nat} (hone : isOne h.bits i = true)
    (hlast : ∀ k, i < k → isOne h.bits k = false) : h.SincePulse S i := by
  induction hr with
  | start => cases hone
  | @pulse h n hr hn _ =>
    have hi : i = (h.hold n).syms.length := by
      have hle : (h.hold n).syms.length ≤ i := by
        by_contra hlt
        have hnot := hlast _ (Nat.lt_of_not_le hlt)
        rw [hr.isOne_pulse] at hnot
        cases hnot
      have hlt := lt_length_of_isOne hone
      rw [(hr.pulse hn).length_eq, pulse_length] at hlt
      omega
    subst hi
    refine ⟨h.pol.negate, getElem?_append_length_add _ _ 0, .inl ⟨balancingAfter_eq_nil fun x hx => ?_, rfl⟩⟩
    exact (hr.position_lt hpos x hx).le.trans (Nat.mul_le_mul_right S (by simp))
  | @even h _ _ ih =>
    obtain ⟨a, ha, hcases⟩ := ih ((isOne_append_zeros _ 4 i).symm.trans hone)
      fun k hk => (isOne_append_zeros _ 4 k).symm.trans (hlast k hk)
    have hnotes : balancingAfter S i (h.even S).notes = balancingAfter S i h.notes := by
      rw [Db3History.even, balancingAfter_append, balancingAfter_violation, List.append_nil]
    refine ⟨a, getElem?_of_prefix (Extends.even (S := S)).syms ha, ?_⟩
    rw [hnotes]
    exact hcases.imp_right fun ⟨hmap, hpol, _⟩ => ⟨hmap, hpol, rfl⟩
  | @odd h hr hpss ih =>
    have hzeros : ∀ k, i < k → isOne h.bits k = false :=
      fun k hk => (isOne_append_zeros _ 4 k).symm.trans (hlast k hk)
    have hone₀ : isOne h.bits i = true := (isOne_append_zeros _ 4 i).symm.trans hone
    obtain ⟨a, ha, ⟨hnil, hpol⟩ | ⟨-, -, heven⟩⟩ := ih hone₀ hzeros
    · obtain ⟨j, hj, hjone, -⟩ := hr.last_of_odd hpss
      have hi : i + 1 = h.syms.length := by
        have hlt := lt_length_of_isOne hone₀
        rw [hr.length_eq] at hlt
        by_contra hne
        rw [hzeros j (by omega)] at hjone
        cases hjone
      refine ⟨a, getElem?_of_prefix (Extends.odd (S := S)).syms ha, .inr ⟨?_, congrArg Sign.negate hpol, rfl⟩⟩
      rw [Db3History.odd, balancingAfter_append, hnil, balancingAfter_odd hpos (by omega), hi]
      rfl
    · omega

/-- The Balancing records between two symbols (R225). -/
def balancingBetween (S i j : Nat) (notes : List Annotation) : List Annotation :=
  notes.filter fun x => x.kind == .balancing && decide (i * S < x.position ∧ x.position < j * S)

/-- The records before the next symbol are those that `h` has. -/
theorem Extends.balancingBetween_eq (hpos : 0 < S) (hr : Finished S sp h) (hext : Extends S h f) (i : Nat) :
    balancingBetween S i h.syms.length f.notes = balancingAfter S i h.notes := by
  obtain ⟨more, hnotes, hlate⟩ := hext.notes
  have hnone : balancingBetween S i h.syms.length more = [] := by
    refine List.filter_eq_nil_iff.mpr fun x hx => ?_
    simp [Nat.not_lt.mpr (hlate x hx)]
  rw [hnotes, balancingBetween, List.filter_append]
  refine (congrArg _ hnone).trans ((List.append_nil _).trans (List.filter_congr fun x hx => ?_))
  simp [hr.position_lt hpos x hx]

/-- Records before symbol `h.syms.length` are records of `h`. -/
theorem Extends.mem_of_position_lt (hext : Extends S h f) {x : Annotation} (hx : x ∈ f.notes)
    (hlt : x.position < h.syms.length * S) : x ∈ h.notes := by
  obtain ⟨more, hnotes, hlate⟩ := hext.notes
  rw [hnotes] at hx
  exact (List.mem_append.mp hx).resolve_right fun hmore => absurd (hlate x hmore) (Nat.not_le.mpr hlt)

theorem Finished.exists_pulse (hf : Finished S sp f) {j : Nat} (hone : isOne f.bits j = true) :
    ∃ h, Finished S sp h ∧ j = h.syms.length ∧ Extends S h f ∧ f.syms[j]? = some h.pol.negate.level := by
  obtain ⟨h, n, hr, hn, rfl⟩ := hf
  obtain ⟨g, hg, rfl, hext⟩ := hr.exists_pulse ((isOne_append_zeros _ n j).symm.trans hone)
  have hext : Extends S g.pulse (h.hold n) := hext.trans (.hold n)
  exact ⟨g, hg, rfl, Extends.pulse.trans hext, getElem?_of_chunk (j := 0) hext.syms rfl⟩

/-- The first data pulse is −sp, and only even templates come before it (R225). -/
theorem Finished.first_pulse (hf : Finished S sp f) {j : Nat} (hone : isOne f.bits j = true)
    (hfirst : onesBefore f.bits j = 0) :
    f.syms[j]? = some sp.negate.level ∧ ∀ x ∈ f.notes, x.position < j * S → x.kind = .violation := by
  obtain ⟨_, ⟨h, n, hr, hn, rfl⟩, rfl, hext, hsym⟩ := hf.exists_pulse hone
  have hnone : ∀ k, isOne h.bits k = false := by
    intro k
    rw [Bool.eq_false_iff]
    intro hk
    have hlt : k < (h.hold n).syms.length := by
      have := lt_length_of_isOne hk
      rw [hr.length_eq] at this
      rw [hold_length]
      omega
    have hk' := ((Extends.hold n).trans hext).isOne_eq_true hk
    rw [isOne_eq_false_of_onesBefore hfirst hlt] at hk'
    cases hk'
  obtain ⟨hpol, -, hkind⟩ := hr.of_no_ones hnone
  exact ⟨hpol ▸ hsym, fun x hx hlt => hkind x (hext.mem_of_position_lt hx hlt)⟩

/-- Two data pulses in a row (R225). -/
theorem Finished.next_pulse (hpos : 0 < S) (hf : Finished S sp f) {i j : Nat} (hij : i < j)
    (hi : isOne f.bits i = true) (hj : isOne f.bits j = true)
    (hzeros : ∀ k, i < k → k < j → isOne f.bits k = false) :
    ∃ a d : Sign, f.syms[i]? = some a.level ∧ f.syms[j]? = some d.level ∧
      let odd := balancingBetween S i j f.notes
      (odd = [] → d = a.negate) ∧ (odd ≠ [] → d = a ∧ odd.map (·.position) = [(i + 1) * S]) := by
  obtain ⟨g, hg, rfl, hext, hsym⟩ := hf.exists_pulse hj
  obtain ⟨h, n, hr, hn, rfl⟩ := id hg
  rw [hext.balancingBetween_eq hpos hg]
  have hbefore : ∀ k < (h.hold n).syms.length, isOne h.bits k = isOne f.bits k := by
    intro k hk
    rw [← isOne_append_zeros h.bits n, isOne_of_prefix hext.bits (hg.length_eq ▸ hk)]
    rfl
  obtain ⟨a, ha, hcases⟩ := hr.sincePulse hpos ((hbefore i hij).trans hi) fun k hk => by
    by_cases hlt : k < (h.hold n).syms.length
    · rw [hbefore k hlt, hzeros k hk hlt]
    · rw [hold_length] at hlt
      exact isOne_of_length_le (by rw [hr.length_eq]; omega)
  refine ⟨a, h.pol.negate, getElem?_of_prefix ((Extends.hold n).trans hext).syms ha, hsym, ?_⟩
  rw [hold_notes]
  obtain ⟨hnil, hpol⟩ | ⟨hmap, hpol, -⟩ := hcases
  · simp [hnil, hpol]
  · have hne : balancingAfter S i h.notes ≠ [] := fun hnil => by simp [hnil] at hmap
    simp [hne, hmap, hpol]

end

end Db3History

end Sys2Proof.Machine
end

section
/-! The laws of DB3 output, read off its samples and records (spec/42_db3.md R224 to R228). -/

namespace Sys2Proof.Machine

open Db3History

/-! Symbols and samples. -/

/-- ENC.DB3's phase G writes the symbols' samples (R211). -/
theorem symbolSamples_eq_expand (S : Nat) (ls : List Level) :
    symbolSamples S ls = ((ls.map fun l => (⟨l, l⟩ : Cell)).flatMap (expand S)).map levelByte := by
  simp [symbolSamples, List.flatMap_map, List.map_flatMap, expand_full]

theorem symbolSamples_length (S : Nat) (ls : List Level) : (symbolSamples S ls).length = ls.length * S := by
  rw [symbolSamples_eq_expand, List.length_map, flatMap_expand_length, List.length_map]

/-- Each of the S samples of symbol `k` has its level. -/
theorem symbolSamples_getElem? {S j : Nat} (hj : j < S) (ls : List Level) (k : Nat) :
    (symbolSamples S ls)[k * S + j]? = ls[k]?.map sampleByte := by
  rw [symbolSamples_eq_expand, List.getElem?_map, flatMap_expand_getElem? hj, List.getElem?_map]
  cases ls[k]? <;> simp [expand_full, hj]

/-- The first sample of a symbol. -/
theorem symbolSamples_first {S : Nat} (hpos : 0 < S) {ls : List Level} {k : Nat} {l : Level} (h : ls[k]? = some l) :
    (symbolSamples S ls)[k * S]? = some (sampleByte l) := by
  rw [← Nat.add_zero (k * S), symbolSamples_getElem? hpos, h]
  rfl

/-- The symbols of an output can be read off it. -/
theorem symbolsOf_symbolSamples {S : Nat} (hpos : 0 < S) {ls : List Level} {m : Nat} (hm : m ≤ ls.length) :
    symbolsOf S (symbolSamples S ls) m = ls.take m := by
  apply List.ext_getElem
  · simp [symbolsOf, hm]
  · intro k hk _
    have hlt : k < ls.length := by simp [symbolsOf] at hk; omega
    have hfirst := symbolSamples_first hpos (List.getElem?_eq_getElem hlt)
    simp [symbolsOf, List.getD_eq_getElem?_getD, hfirst]

/-! What ENC.DB3 writes. -/

/-- Phases F and G of ENC.DB3 write the samples of SYM (R110, R111). -/
theorem encProc_db3_out (p : Params) (bits : List Bit) (sp : Sign) : (encProc .db3 p bits (resetWork sp)).out =
    symbolSamples p.samples (db3EncLoop p bits (resetWork sp)).sym := by
  show (db3Flush _ _).out = _
  rw [db3Flush_out, db3EncLoop_out, resetWork_out, List.nil_append, symbolSamples_eq_expand]

/-- A successful ENC.DB3 writes the samples of a finished history and, with EMIT_ANNOT = 1, its records (R214). -/
theorem encDb3_success {s t : State} {out : List Byte} {ann : List Annotation} (ht : exec .encDb3 s = .next t)
    (hr : t.response = some ⟨.ok, out, ann⟩) :
    0 < cfgSamples s.cfg ∧ ∃ f, Finished (cfgSamples s.cfg) (cfgPolarity s.cfg) f ∧ s.inp = bitElements f.bits ∧
      out = symbolSamples (cfgSamples s.cfg) f.syms ∧ (s.cfg.getLsbD 9 = true → ann = f.notes) := by
  obtain ⟨p, w, hp, hw, rfl, rfl⟩ := exec_success ht hr
  obtain ⟨hcfg, -, rfl⟩ := checkOperands_eq_ok hp
  rw [processInput_encode rfl] at hw
  cases hbits : validateBits s.inp with
  | error e => simp [hbits, Except.map] at hw
  | ok bits =>
    rw [hbits] at hw
    cases hw
    obtain ⟨f, hf, rfl, hsym, hann⟩ :=
      exists_finished ⟨cfgSamples s.cfg, cfgPolarity s.cfg, cfgAnnot s.cfg⟩ (cfgPolarity s.cfg) bits
    refine ⟨(wfCfg_samples hcfg).1, f, hf, validateBits_eq_ok.mp hbits, ?_, fun hset => ?_⟩
    · exact (encProc_db3_out _ _ _).trans (congrArg _ hsym)
    · have hset : cfgAnnot s.cfg = true := hset
      have hann : (db3EncLoop _ f.bits (resetWork _)).ann = f.notes := hann.trans (if_pos hset)
      exact (if_pos ⟨rfl, rfl, hset⟩).trans hann

/-! Setting CFG[9] leaves S and sp as they were (R23, R24). -/

theorem cfgSamples_or_annot (cfg : Word32) : cfgSamples (cfg ||| 0x200) = cfgSamples cfg := by
  have hmask : BitVec.extractLsb' 0 8 (0x200 : Word32) = 0 := by decide
  rw [cfgSamples, BitVec.extractLsb'_or, hmask]
  simp [cfgSamples]

theorem cfgPolarity_or_annot (cfg : Word32) : cfgPolarity (cfg ||| 0x200) = cfgPolarity cfg := by
  simp [cfgPolarity]

/-- EMIT_ANNOT does not change the samples that ENC.DB3 gives (R118). -/
theorem Db3Writes.out_eq {s : State} {bs : List Bit} {out o : List Byte} {ann a : List Annotation}
    (h : Db3Writes s bs out ann) (ho : Responds (exec .encDb3 { s with cfg := s.cfg ||| 0x200 }) ⟨.ok, o, a⟩) :
    out = o := by
  obtain ⟨-, ⟨_, t, ht, hr, -⟩, -⟩ := h
  obtain ⟨t', ht', hr', -⟩ := ho
  obtain ⟨-, bits, hinp, hout⟩ := encode_success rfl ht hr
  obtain ⟨-, bits', hinp', ho⟩ := encode_success rfl ht' hr'
  obtain rfl : bits = bits' := bitElements_injective (hinp.symm.trans hinp')
  dsimp only at ho
  rw [cfgSamples_or_annot, cfgPolarity_or_annot] at ho
  rw [← hout, ← ho]
  exact (encProc_out_annot .db3 ⟨cfgSamples s.cfg, cfgPolarity s.cfg, cfgAnnot s.cfg⟩ _ bits _).symm

/-- Samples and records that ENC.DB3 writes for `bs` are those of a finished history. -/
theorem Db3Writes.finished {s : State} {bs : List Bit} {out : List Byte} {ann : List Annotation}
    (h : Db3Writes s bs out ann) :
    0 < cfgSamples s.cfg ∧ ∃ f, Finished (cfgSamples s.cfg) (cfgPolarity s.cfg) f ∧ f.bits = bs ∧
      out = symbolSamples (cfgSamples s.cfg) f.syms ∧ ann = f.notes := by
  obtain ⟨hinp, -, o, ho⟩ := id h
  obtain rfl := h.out_eq ho
  obtain ⟨t, ht, hr, -⟩ := ho
  obtain ⟨hpos, f, hf, hbits, hout, hann⟩ := encDb3_success ht hr
  dsimp only at hpos hf hbits hout hann
  rw [cfgSamples_or_annot] at hpos hout
  rw [cfgSamples_or_annot, cfgPolarity_or_annot] at hf
  exact ⟨hpos, f, hf, bitElements_injective (hbits.symm.trans hinp), hout, hann (by simp)⟩

/-! The laws. -/

/-- Settles O50: each data pulse ends a history, whose POL tells what has come since the data pulse before it. -/
theorem db3DataPulsesAlternate : Obligations.Db3DataPulsesAlternate := by
  unfold Obligations.Db3DataPulsesAlternate
  intro s bs out ann h S
  obtain ⟨hpos, f, hf, rfl, rfl, rfl⟩ := h.finished
  refine ⟨fun j hone hfirst => ?_, fun i j hij hi hj hzeros => ?_⟩
  · obtain ⟨hsym, hkind⟩ := hf.first_pulse hone hfirst
    exact ⟨symbolSamples_first hpos hsym, hkind⟩
  · obtain ⟨a, d, ha, hd, hodd⟩ := hf.next_pulse hpos hij hi hj hzeros
    exact ⟨a, d, symbolSamples_first hpos ha, symbolSamples_first hpos hd, hodd⟩

/-- Settles O51: every record is one of a template, and the template tells what came before it. -/
theorem db3AnnotationConsistency : Obligations.Db3AnnotationConsistency := by
  unfold Obligations.Db3AnnotationConsistency
  intro s t bs out ann hinp hset ht hr S x hx
  obtain ⟨hpos, f, hf, hbits, rfl, hann⟩ := encDb3_success ht hr
  obtain rfl := bitElements_injective (hinp.symm.trans hbits)
  obtain rfl := hann hset
  cases hf.recordOf hx with
  | @even h hat hx =>
    obtain ⟨hlt, hzero⟩ := isOne_of_template hat.reached hat.ext.bits (j := 3) (by decide)
    have hV := getElem?_of_chunk (j := 3) hat.ext.syms rfl
    subst hx
    refine ⟨_, hlt, rfl, hzero, symbolSamples_first hpos hV, nofun, fun _ => ⟨_, rfl, .inr ⟨?_, ?_⟩⟩⟩
    · exact hat.position_ne hpos
    · have hprefix : h.syms <+: f.syms := (Extends.even.trans hat.ext).syms
      rw [symbolsOf_symbolSamples hpos hprefix.length_le, ← List.prefix_iff_eq_take.mp hprefix]
      exact hat.reached.pol_eq_lastMark
  | oddBalancing hat hx =>
    obtain ⟨hlt, hzero⟩ := isOne_of_template hat.reached hat.ext.bits (j := 0) (by decide)
    have hB := getElem?_of_chunk (j := 0) hat.ext.syms rfl
    obtain ⟨i, hi, hone, hsym⟩ := hat.after_pulse
    subst hx
    exact ⟨_, hlt, rfl, hzero, symbolSamples_first hpos hB,
      fun _ => ⟨i, hi.symm, hone, symbolSamples_first hpos hsym⟩, nofun⟩
  | oddViolation hat hx =>
    obtain ⟨hlt, hzero⟩ := isOne_of_template hat.reached hat.ext.bits (j := 3) (by decide)
    have hV := getElem?_of_chunk (j := 3) hat.ext.syms rfl
    subst hx
    refine ⟨_, hlt, rfl, hzero, symbolSamples_first hpos hV, nofun, fun _ => ⟨_, rfl, .inl ?_⟩⟩
    rw [negate_negate]
    exact hat.balancing_mem

/-- A Balancing record is one of an odd template that starts there. -/
theorem Db3History.Finished.oddAt_of_balancing {S m : Nat} {sp B : Sign} {f : Db3History} (hpos : 0 < S)
    (hf : Finished S sp f) (hx : ⟨m * S, .balancing, B⟩ ∈ f.notes) :
    ∃ h, OddAt S sp h f ∧ h.syms.length = m ∧ h.pol = B := by
  cases hf.recordOf hx with
  | even _ hx => simp at hx
  | @oddBalancing h hat hx =>
    simp only [Annotation.mk.injEq, true_and] at hx
    exact ⟨h, hat, (Nat.eq_of_mul_eq_mul_right hpos hx.1).symm, hx.2.symm⟩
  | oddViolation _ hx => simp at hx

/-- A Violation record is one of an even template, or of an odd one, that starts three symbols before. -/
theorem Db3History.Finished.at_of_violation {S m : Nat} {sp V : Sign} {f : Db3History} (hpos : 0 < S)
    (hf : Finished S sp f) (hx : ⟨(m + 3) * S, .violation, V⟩ ∈ f.notes) :
    (∃ h, EvenAt S sp h f ∧ h.syms.length = m ∧ h.pol = V) ∨
      ∃ h, OddAt S sp h f ∧ h.syms.length = m ∧ h.pol.negate = V := by
  cases hf.recordOf hx with
  | @even h hat hx =>
    simp only [Annotation.mk.injEq, true_and] at hx
    have hm := Nat.eq_of_mul_eq_mul_right hpos hx.1
    exact .inl ⟨h, hat, by omega, hx.2.symm⟩
  | oddBalancing _ hx => simp at hx
  | @oddViolation h hat hx =>
    simp only [Annotation.mk.injEq, true_and] at hx
    have hm := Nat.eq_of_mul_eq_mul_right hpos hx.1
    exact .inr ⟨h, hat, by omega, hx.2.symm⟩

/-- Settles O52: a template stands where a history ends, which is empty or ends in a data pulse or a template. -/
theorem db3TemplatePlacement : Obligations.Db3TemplatePlacement := by
  unfold Obligations.Db3TemplatePlacement
  intro s bs out ann h S
  obtain ⟨hpos, f, hf, rfl, rfl, rfl⟩ := h.finished
  have hread : ∀ {k l}, f.syms[k]? = some l → (symbolSamples S f.syms)[k * S]? = some (sampleByte l) :=
    symbolSamples_first hpos
  refine ⟨fun m B hB => ?_, fun m V hV hnone => ?_⟩
  · obtain ⟨h, hat, rfl, rfl⟩ := hf.oddAt_of_balancing hpos hB
    have hchunk : h.syms ++ [h.pol.level, .zero, .zero, h.pol.negate.level] <+: f.syms := hat.ext.syms
    obtain ⟨i, hi, hone, hsym⟩ := hat.after_pulse
    obtain rfl : i = h.syms.length - 1 := by omega
    exact ⟨by omega, hone, hread hsym, hread (getElem?_of_chunk (j := 0) hchunk rfl),
      hread (getElem?_of_chunk (j := 1) hchunk rfl), hread (getElem?_of_chunk (j := 2) hchunk rfl),
      hread (getElem?_of_chunk (j := 3) hchunk rfl), hat.violation_mem⟩
  · obtain ⟨h, hat, rfl, rfl⟩ | ⟨h, hat, rfl, -⟩ := hf.at_of_violation hpos hV
    · have hchunk : h.syms ++ [.zero, .zero, .zero, h.pol.level] <+: f.syms := hat.ext.syms
      refine ⟨hread (getElem?_of_chunk (j := 0) hchunk rfl), hread (getElem?_of_chunk (j := 1) hchunk rfl),
        hread (getElem?_of_chunk (j := 2) hchunk rfl), hread (getElem?_of_chunk (j := 3) hchunk rfl), ?_⟩
      have hext : Extends S h f := Extends.even.trans hat.ext
      refine hat.reached.last.imp_right fun ⟨i, hi, hlast⟩ => ?_
      obtain rfl : i = h.syms.length - 1 := by omega
      exact hlast.imp hext.isOne_eq_true fun ⟨V, hmem⟩ => ⟨V, hext.mem_notes hmem⟩
    · exact absurd hat.balancing_mem (hnone _)

/-- Among four samples at a distance of S from each other, one is of a mark (R224). -/
theorem Db3History.Finished.sample_ne_zero {S : Nat} {sp : Sign} {f : Db3History} (hpos : 0 < S)
    (hf : Finished S sp f) {k : Nat} (hk : k + 3 * S < f.syms.length * S) :
    ∃ j < 4, (symbolSamples S f.syms)[k + j * S]? ≠ some 0x00 := by
  have hq : k / S + 4 ≤ f.syms.length := by
    have hlt : (k + 3 * S) / S < f.syms.length := (Nat.div_lt_iff_lt_mul hpos).mpr hk
    rw [Nat.add_mul_div_right _ _ hpos] at hlt
    omega
  obtain ⟨j, hj, a, ha⟩ := hf.markWithin hq
  have hindex : k + j * S = (k / S + j) * S + k % S := by
    have := Nat.div_add_mod' k S
    rw [Nat.add_mul]
    omega
  refine ⟨j, hj, ?_⟩
  rw [hindex, symbolSamples_getElem? (Nat.mod_lt k hpos), ha]
  cases a <;> decide

/-- The samples that ENC.DB3 gives for well-formed operands (R214). -/
theorem encDb3_responds {s : State} {bs : List Bit} (hcfg : Instr.encDb3.wfCfg s.cfg = true)
    (hcap : WithinCap s s.inp.length) (hinp : s.inp = bitElements bs) :
    let p : Params := ⟨cfgSamples s.cfg, cfgPolarity s.cfg, cfgAnnot s.cfg⟩
    ∃ ann, Responds (exec .encDb3 s)
      ⟨.ok, symbolSamples p.samples (db3EncLoop p bs (resetWork p.sp)).sym, ann⟩ := by
  intro p
  have hw : processInput .encDb3 p s.inp = .ok (encProc .db3 p bs (resetWork p.sp)) := by
    rw [processInput_encode rfl, validateBits_eq_ok.mpr hinp]
    rfl
  exact ⟨_, encProc_db3_out _ _ _ ▸ responds_ok (checkOperands_ok hcfg hcap) hw⟩

end Sys2Proof.Machine
end

section
/-! Runs of zeros at the start of the input (spec/42_db3.md R224, R227). -/

namespace Sys2Proof.Machine

open Db3History

/-- Four zeros at an even count of pulses become a template `[0,0,0,V]` (R206, R207). -/
theorem streamRun_fourZeros (p : Params) {h : Db3History} (hpss : h.pss % 2 = 0) :
    streamRun p (List.replicate 4 false) (h.stream p 0) = (h.even p.samples).stream p 0 := by
  have hthree : streamRun p (List.replicate 3 false) (h.stream p 0) = h.stream p 3 := rfl
  rw [List.replicate_succ', streamRun_append, hthree]
  exact streamStep_stream_even p hpss

/-- The symbols of `k` templates `[0,0,0,V]`. -/
def evenTemplates (V : Level) (k : Nat) : List Level := (List.replicate k [.zero, .zero, .zero, V]).flatten

theorem evenTemplates_succ (V : Level) (k : Nat) :
    evenTemplates V (k + 1) = evenTemplates V k ++ [.zero, .zero, .zero, V] := by
  simp [evenTemplates, List.replicate_succ']

/-- From phase E on, 4k zeros become k templates `[0,0,0,V]` with V = sp, and PSS stays 0 (R227). -/
theorem exists_stream_zeros (p : Params) (sp : Sign) (k : Nat) : ∃ h : Db3History,
    streamRun p (List.replicate (4 * k) false) (streamStart sp) = h.stream p 0 ∧
      h.syms = evenTemplates sp.level k ∧ h.pol = sp ∧ h.pss = 0 := by
  induction k with
  | zero => exact ⟨⟨[], [], [], sp, 0⟩, by simp [streamRun, streamStart, stream], rfl, rfl, rfl⟩
  | succ k ih =>
    obtain ⟨h, hrun, hsyms, hpol, hpss⟩ := ih
    refine ⟨h.even p.samples, ?_, ?_, hpol, rfl⟩
    · rw [Nat.mul_succ, ← List.replicate_append_replicate, streamRun_append, hrun]
      exact streamRun_fourZeros p (by rw [hpss])
    · rw [evenTemplates_succ, ← hsyms, ← hpol]
      rfl

/-- The engine's symbols for 4k zeros (R227). -/
theorem db3EncLoop_zeros (p : Params) (sp : Sign) (k : Nat) :
    (db3EncLoop p (List.replicate (4 * k) false) (resetWork sp)).sym = evenTemplates sp.level k := by
  obtain ⟨h, hrun, hsyms, -⟩ := exists_stream_zeros p sp k
  have hsym := (db3Agrees_loop p sp (List.replicate (4 * k) false)).sym
  rw [hrun] at hsym
  rw [hsym, ← hsyms]
  exact List.append_nil _

/-- The engine's symbols for three zeros (R205). -/
theorem db3EncLoop_threeZeros (p : Params) (sp : Sign) :
    (db3EncLoop p [false, false, false] (resetWork sp)).sym = List.replicate 3 .zero :=
  (db3Agrees_loop p sp [false, false, false]).sym

/-! The zero-run bound. -/

/-- Three zero symbols are 3×S zero samples. -/
theorem symbolSamples_threeZeros {S k : Nat} {ls : List Level} (hls : List.replicate 3 .zero <+: ls) (hk : k < 3 * S) :
    (symbolSamples S ls)[k]? = some 0x00 := by
  have hpos : 0 < S := by omega
  have hzero : ls[k / S]? = some .zero := getElem?_of_prefix hls (by
    rw [List.getElem?_replicate_of_lt ((Nat.div_lt_iff_lt_mul hpos).mpr hk)])
  rw [← Nat.div_add_mod' k S, symbolSamples_getElem? (Nat.mod_lt k hpos), hzero]
  rfl

/-- Settles O49: every pulse and every template of a history ends in a mark at most three symbols after its first, and at most
three zeros follow. -/
theorem db3ZeroRunBound : Obligations.Db3ZeroRunBound := by
  unfold Obligations.Db3ZeroRunBound
  refine ⟨?_, fun s bs hcfg hcap hbs => ?_⟩
  · intro s t out ann ht hr S
    obtain ⟨hpos, f, hf, hinp, rfl, -⟩ := encDb3_success ht hr
    refine ⟨fun k hk => ?_, fun k hk => ?_⟩
    · have hlt : k + 3 < f.syms.length := by
        rw [hinp, bitElements, List.length_map, hf.length_eq] at hk
        omega
      have hlt := Nat.mul_lt_mul_of_pos_right hlt hpos
      obtain ⟨j, hj, hne⟩ := hf.sample_ne_zero hpos (k := k * S) (by rwa [← Nat.add_mul])
      exact ⟨j, hj, by rwa [Nat.add_mul]⟩
    · rw [symbolSamples_length] at hk
      obtain ⟨j, hj, hne⟩ := hf.sample_ne_zero hpos (k := k) (by omega)
      exact ⟨j * S, Nat.mul_le_mul_right S (by omega), hne⟩
  · obtain ⟨ann, hres⟩ := encDb3_responds (s := { s with inp := bitElements bs }) hcfg
      (fun cap h => (List.length_map _).trans_le (hcap cap h)) rfl
    refine ⟨_, ann, hres, fun k hk => symbolSamples_threeZeros ?_ hk⟩
    rcases hbs with rfl | rfl
    · rw [db3EncLoop_threeZeros]
    · rw [show [false, false, false, false] = List.replicate (4 * 1) false from rfl, db3EncLoop_zeros]
      exact List.prefix_append _ _

/-! The sum of the levels. -/

@[simp] theorem sext8_sampleByte (l : Level) : sext8 (sampleByte l) = l.val := by cases l <;> rfl

/-- Each symbol adds its level S times. -/
theorem levelSum_symbolSamples (S : Nat) (ls : List Level) :
    levelSum (symbolSamples S ls) = (ls.map Level.val).sum * S := by
  induction ls with
  | nil => simp [levelSum, symbolSamples]
  | cons l ls ih =>
    have hcons : levelSum (symbolSamples S (l :: ls)) = S * l.val + levelSum (symbolSamples S ls) := by
      simp only [levelSum, symbolSamples, List.flatMap_cons, List.map_append, List.map_replicate, List.sum_append,
        List.sum_replicate, sext8_sampleByte, nsmul_eq_mul]
    rw [hcons, ih, List.map_cons, List.sum_cons]
    ring

theorem evenTemplates_sum (V : Level) (k : Nat) : ((evenTemplates V k).map Level.val).sum = V.val * k := by
  induction k with
  | zero => simp [evenTemplates]
  | succ k ih =>
    have hchunk : (([.zero, .zero, .zero, V] : List Level).map Level.val).sum = V.val := by simp [Level.val]
    rw [evenTemplates_succ, List.map_append, List.sum_append, ih, hchunk]
    push_cast
    ring

/-- ENC.DB3 on 4k zeros: the samples of k templates `[0,0,0,V]`, and their sum (R227). -/
theorem encDb3_zeros {s : State} {k : Nat} (hcfg : Instr.encDb3.wfCfg s.cfg = true) (hcap : WithinCap s s.inp.length)
    (hinp : s.inp = List.replicate (4 * k) 0x00) : ∃ out ann, Responds (exec .encDb3 s) ⟨.ok, out, ann⟩ ∧
      out = symbolSamples (cfgSamples s.cfg) (evenTemplates (cfgPolarity s.cfg).level k) ∧
      levelSum out = (cfgPolarity s.cfg).level.val * (k * cfgSamples s.cfg) := by
  obtain ⟨ann, hres⟩ := encDb3_responds (bs := List.replicate (4 * k) false) hcfg hcap (by simp [hinp, bitElements])
  refine ⟨_, ann, hres, by rw [db3EncLoop_zeros], ?_⟩
  rw [levelSum_symbolSamples, db3EncLoop_zeros, evenTemplates_sum, mul_assoc]

/-- Settles O56: each four zeros add S times sp, so more zeros pass any bound. -/
theorem db3HasNoDcBalance : Obligations.Db3HasNoDcBalance := by
  unfold Obligations.Db3HasNoDcBalance
  refine ⟨fun s k hcfg hcap hinp => encDb3_zeros hcfg hcap hinp, fun bound => ?_⟩
  have hcfg : Instr.encDb3.wfCfg 0x00000001 = true := by decide
  have hS : cfgSamples 0x00000001 = 1 := by decide
  have hV : (cfgPolarity 0x00000001).level.val = -1 := by decide
  obtain ⟨out, ann, hres, -, hsum⟩ := encDb3_zeros
    (s := { State.reset with cfg := 0x00000001, inp := List.replicate (4 * (bound + 1)) 0x00 }) (k := bound + 1)
    hcfg nofun rfl
  refine ⟨_, out, ann, hres, ?_⟩
  rw [hsum]
  simp only [hS, hV]
  omega

end Sys2Proof.Machine
end

section
/-! Command words that select no command, by their fields (spec/30_encoding.md R70, R73; spec/60_exceptions.md R252). -/

namespace Sys2Proof

/-- A word whose SCHEME names no scheme, or with a reserved bit set, is rejected (R73). -/
theorem decode_rejects_of_fields {w : Byte} (h : 8 ≤ (cmdScheme w).toNat ∨ cmdReserved w ≠ 0) :
    ∃ e, decode w = .error e := by
  rcases h with hsch | hrsv
  · rw [cmdScheme_toNat] at hsch
    exact decode_rejects (.inr hsch)
  · exact ⟨_, decode_of_reserved hrsv⟩

end Sys2Proof

namespace Sys2Proof.Machine

/-- Taking a command whose word is rejected aborts with UnsupportedScheme, whatever the reason (R73, R252). -/
theorem step_of_unsupportedWord {s : State} {o : Operands} {rest : List Request} (hs : s.pending = ⟨o, .waits⟩ :: rest)
    (h : 8 ≤ (cmdScheme o.cmd).toNat ∨ cmdReserved o.cmd ≠ 0) :
    step s = .next (abort .unsupportedScheme (accept o rest s)) := by
  obtain ⟨e, he⟩ := decode_rejects_of_fields h
  rw [step_of_rejected hs he, decodeErrorKind_eq]

/-- Settles O6: the word is rejected, and the abort keeps the operands just taken, the other commands and MAX_INPUT_LEN. -/
theorem unsupportedWordAnswersCodeTwo : Obligations.UnsupportedWordAnswersCodeTwo := by
  unfold Obligations.UnsupportedWordAnswersCodeTwo
  intro s o rest hs hword
  exact ⟨_, step_of_unsupportedWord hs hword, rfl, rfl, rfl, rfl, rfl, rfl, rfl⟩

end Sys2Proof.Machine
end

section
/-! The DB3 code by looking ahead is what the engine writes by rewriting (spec/42_db3.md R204 to R211), and what the engine's
registers hold after any bits (R30, R33, R37, R202). -/

namespace Sys2Proof.Machine

open Db3History

/-! One pulse or template of the definitions that look ahead. -/

section
variable {n : Nat} (S k : Nat) (pol : Sign) (odd : Bool) (bs : List Bit)

/-- Up to three zeros before a 1 stay. -/
theorem db3Symbols_pulse (hn : n ≤ 3) : db3Symbols pol odd (List.replicate n false ++ true :: bs) =
    List.replicate n .zero ++ pol.negate.level :: db3Symbols pol.negate (!odd) bs := by
  interval_cases n <;> rfl

/-- Up to three zeros at the end stay. -/
theorem db3Symbols_zeros (hn : n ≤ 3) : db3Symbols pol odd (List.replicate n false) = List.replicate n .zero := by
  interval_cases n <;> rfl

theorem db3Symbols_even : db3Symbols pol false (List.replicate 4 false ++ bs) =
    [.zero, .zero, .zero, pol.level] ++ db3Symbols pol false bs := rfl

theorem db3Symbols_odd : db3Symbols pol true (List.replicate 4 false ++ bs) =
    [pol.level, .zero, .zero, pol.negate.level] ++ db3Symbols pol.negate false bs := rfl

/-- No record stands for a pulse or for the zeros before it. -/
theorem db3Notes_pulse (hn : n ≤ 3) : db3Notes S k pol odd (List.replicate n false ++ true :: bs) =
    db3Notes S (k + n + 1) pol.negate (!odd) bs := by
  interval_cases n <;> rfl

theorem db3Notes_zeros (hn : n ≤ 3) : db3Notes S k pol odd (List.replicate n false) = [] := by
  interval_cases n <;> rfl

theorem db3Notes_even : db3Notes S k pol false (List.replicate 4 false ++ bs) =
    [⟨(k + 3) * S, .violation, pol⟩] ++ db3Notes S (k + 4) pol false bs := rfl

theorem db3Notes_odd : db3Notes S k pol true (List.replicate 4 false ++ bs) =
    [⟨k * S, .balancing, pol⟩, ⟨(k + 3) * S, .violation, pol.negate⟩] ++ db3Notes S (k + 4) pol.negate false bs := rfl

end

@[simp] theorem trailingZeros_append_zeros (bs : List Bit) (n : Nat) :
    trailingZeros (bs ++ List.replicate n false) = trailingZeros bs + n := by
  induction n with
  | zero => simp
  | succ n ih => rw [List.replicate_succ', ← List.append_assoc, trailingZeros_zero, ih, Nat.add_assoc]

/-- A 1 turns the parity of the pulse count (R203). -/
theorem odd_succ (n : Nat) : ((n + 1) % 2 == 1) = !(n % 2 == 1) := by
  rcases Nat.mod_two_eq_zero_or_one n with h | h <;> simp [Nat.add_mod, h]

namespace Db3History

section
variable {S : Nat} {sp : Sign} {h f : Db3History}

/-- Looking ahead over the bits of a reached history gives its symbols, and goes on from its POL and its parity. -/
theorem Reached.db3Symbols_eq (hr : Reached S sp h) (rest : List Bit) :
    db3Symbols sp false (h.bits ++ rest) = h.syms ++ db3Symbols h.pol (h.pss % 2 == 1) rest := by
  induction hr generalizing rest with
  | start => rfl
  | @pulse h n hr hn ih =>
    simp [Db3History.pulse, hold, ih, db3Symbols_pulse _ _ _ hn, odd_succ]
  | @even h hr hpss ih =>
    simp only [Db3History.even, List.append_assoc, ih, hpss]
    exact congrArg _ (db3Symbols_even h.pol rest)
  | @odd h hr hpss ih =>
    simp only [Db3History.odd, List.append_assoc, ih, hpss]
    exact congrArg _ (db3Symbols_odd h.pol rest)

/-- Looking ahead over the bits of a reached history gives its records, and goes on from the next symbol. -/
theorem Reached.db3Notes_eq (hr : Reached S sp h) (rest : List Bit) :
    db3Notes S 0 sp false (h.bits ++ rest) =
      h.notes ++ db3Notes S h.syms.length h.pol (h.pss % 2 == 1) rest := by
  induction hr generalizing rest with
  | start => rfl
  | @pulse h n hr hn ih =>
    simp [Db3History.pulse, hold, ih, db3Notes_pulse _ _ _ _ _ hn, odd_succ, Nat.add_assoc]
  | @even h hr hpss ih =>
    rw [even_length]
    simp only [Db3History.even, List.append_assoc, ih, hpss]
    exact congrArg _ (db3Notes_even S h.syms.length h.pol rest)
  | @odd h hr hpss ih =>
    rw [odd_length]
    simp only [Db3History.odd, List.append_assoc, ih, hpss]
    exact congrArg _ (db3Notes_odd S h.syms.length h.pol rest)

/-- The symbols and the records of a history at the end of the input are those of the definitions that look ahead. -/
theorem Finished.lookAhead (hf : Finished S sp f) :
    f.syms = db3Symbols sp false f.bits ∧ f.notes = db3Notes S 0 sp false f.bits := by
  obtain ⟨h, n, hr, hn, rfl⟩ := hf
  have hsyms := hr.db3Symbols_eq (List.replicate n false)
  have hnotes := hr.db3Notes_eq (List.replicate n false)
  rw [db3Symbols_zeros _ _ hn] at hsyms
  rw [db3Notes_zeros _ _ _ _ hn, List.append_nil] at hnotes
  exact ⟨hsyms.symm, hnotes.symm⟩

/-- A reached history ends in whole runs of four zeros, if in zeros at all. -/
theorem Reached.trailingZeros_mod (hr : Reached S sp h) : trailingZeros h.bits % 4 = 0 := by
  induction hr with
  | start => rfl
  | pulse => simp [Db3History.pulse]
  | even _ _ ih => simp only [Db3History.even, trailingZeros_append_zeros, Nat.add_mod_right, ih]
  | odd _ _ ih => simp only [Db3History.odd, trailingZeros_append_zeros, Nat.add_mod_right, ih]

/-- The symbols of a reached history and of the zeros of the current run end in the polarity of the history. -/
theorem Reached.lastMark_hold (hr : Reached S sp h) (n : Nat) : lastMark sp (h.hold n).syms = h.pol := by
  simp [hold, hr.pol_eq_lastMark]

end

end Db3History

/-! The engine. -/

/-- After any bits the engine has a reached history and up to three zeros after it, whose number is ZRC. -/
theorem db3EncLoop_history (p : Params) (sp : Sign) (bs : List Bit) : ∃ h n, Reached p.samples sp h ∧ n ≤ 3 ∧
    (h.hold n).bits = bs ∧ (db3EncLoop p bs (resetWork sp)).sym = (h.hold n).syms ∧
    (db3EncLoop p bs (resetWork sp)).ann = (if p.annot then h.notes else []) ∧
    (db3EncLoop p bs (resetWork sp)).zrc.val = n ∧ (db3EncLoop p bs (resetWork sp)).pol = h.pol := by
  obtain ⟨h, n, hr, hn, hrun, rfl⟩ := exists_stream p sp bs
  have hagree := db3Agrees_loop p sp (h.hold n).bits
  rw [hrun] at hagree
  exact ⟨h, n, hr, hn, rfl, hagree.sym, hagree.ann.symm, hagree.held.symm, hagree.pol.symm⟩

/-- An encode step writes only the registers of DB3 (R204 to R209). -/
theorem db3EncStep_frame (p : Params) (b : Bit) (w : Work) : ∃ sym pol zrc pss ann,
    db3EncStep p b w = { w with sym := sym, pol := pol, zrc := zrc, pss := pss, ann := ann } := by
  cases b with
  | true => exact ⟨_, _, _, _, _, db3EncStep_one p w⟩
  | false =>
    by_cases hz : w.zrc.val < 3
    · exact ⟨_, _, _, _, _, db3EncStep_zero p hz⟩
    · rw [db3EncStep_fourthZero p (by omega)]
      rcases Nat.mod_two_eq_zero_or_one w.pss with hpss | hpss
      · exact ⟨_, _, _, _, _, db3Substitute_of_even p hpss⟩
      · exact ⟨_, _, _, _, _, db3Substitute_of_odd p hpss⟩

/-- The encode loop writes only the registers of DB3, and the cursor once per bit (R36, R110). -/
theorem db3EncLoop_frame (p : Params) (bs : List Bit) (w : Work) : ∃ sym pol zrc pss ann, db3EncLoop p bs w =
    { w with idx := w.idx + bs.length, sym := sym, pol := pol, zrc := zrc, pss := pss, ann := ann } := by
  induction bs generalizing w with
  | nil => exact ⟨_, _, _, _, _, rfl⟩
  | cons b bs ih =>
    obtain ⟨_, _, _, _, _, hstep⟩ := db3EncStep_frame p b w
    obtain ⟨_, _, _, _, _, hloop⟩ := ih (advance (db3EncStep p b w))
    rw [db3EncLoop, hloop, hstep, List.length_cons, Nat.add_comm bs.length, ← Nat.add_assoc]
    exact ⟨_, _, _, _, _, rfl⟩

/-- The working state of ENC.DB3 after any bits, in the words of the definitions that look ahead. -/
theorem db3EncLoop_eq (p : Params) (sp : Sign) (bs : List Bit) : ∃ zrc pss, db3EncLoop p bs (resetWork sp) =
      { plainWork sp bs.length [] with
        sym := db3Symbols sp false bs, ann := if p.annot then db3Notes p.samples 0 sp false bs else []
        pol := lastMark sp (db3Symbols sp false bs), zrc := zrc, pss := pss } ∧
    zrc.val = trailingZeros bs % 4 := by
  obtain ⟨h, n, hr, hn, rfl, hsym, hann, hzrc, hpol⟩ := db3EncLoop_history p sp bs
  obtain ⟨sym, pol, zrc, pss, ann, heq⟩ := db3EncLoop_frame p (h.hold n).bits (resetWork sp)
  obtain ⟨hsyms, hnotes⟩ := Finished.lookAhead ⟨h, n, hr, hn, rfl⟩
  rw [heq] at hsym hann hzrc hpol ⊢
  dsimp only at hsym hann hzrc hpol
  refine ⟨zrc, pss, ?_, ?_⟩
  · rw [← hsyms, ← hnotes, hr.lastMark_hold, hsym, hann, hpol]
    simp [resetWork, plainWork]
  · have htrail : trailingZeros (h.hold n).bits = trailingZeros h.bits + n := trailingZeros_append_zeros _ _
    have hmod := hr.trailingZeros_mod
    omega

/-- The engine's symbols are those of the definition that looks ahead. -/
theorem db3EncLoop_sym (p : Params) (sp : Sign) (bs : List Bit) :
    (db3EncLoop p bs (resetWork sp)).sym = db3Symbols sp false bs := by
  obtain ⟨zrc, pss, heq, -⟩ := db3EncLoop_eq p sp bs
  rw [heq]

/-- Phase G writes each symbol's samples, and nothing but OUT (R211). -/
theorem db3Flush_eq (S : Nat) (w : Work) : db3Flush S w = { w with out := w.out ++ symbolSamples S w.sym } := by
  simp [db3Flush, appendSamples, symbolSamples, List.map_flatMap]

/-- Operands that pass every phase take the machine to success with what they compute (R112). -/
theorem exec_succeeds {i : Instr} {s : State} {p : Params} {w : Work} (hp : checkOperands i s = .ok p)
    (hw : processInput i p s.inp = .ok w) : exec i s = .next (succeeded s w (returnedAnn i p w)) := by
  rw [exec_eq_finish, commandResult_eq_ok.mpr ⟨hp, hw⟩]
  rfl

/-- ENC.DB3 returns its records exactly with EMIT_ANNOT = 1 (R112). -/
theorem returnedAnn_encDb3 (p : Params) (w : Work) : returnedAnn .encDb3 p w = if p.annot then w.ann else [] := by
  simp [returnedAnn, Instr.dir, Instr.scheme]

/-- Settles O36: the engine makes a history, over which the definitions that look ahead go pulse by pulse and template by
template. -/
theorem db3EncoderCompletes : Obligations.Db3EncoderCompletes := by
  unfold Obligations.Db3EncoderCompletes
  intro s bs hcfg hcap hinp S sp syms notes
  obtain ⟨zrc, pss, heq, hzrc⟩ := db3EncLoop_eq ⟨S, sp, cfgAnnot s.cfg⟩ sp bs
  have hw : processInput .encDb3 ⟨S, sp, cfgAnnot s.cfg⟩ s.inp = .ok
      { plainWork sp bs.length (symbolSamples S syms) with
        sym := syms, ann := notes, pol := lastMark sp syms, zrc := zrc, pss := pss } := by
    rw [processInput_encode rfl, validateBits_eq_ok.mpr hinp]
    refine congrArg Except.ok ((congrArg (db3Flush S) heq).trans ?_)
    rw [db3Flush_eq]
    rfl
  have hann : (if cfgAnnot s.cfg then notes else []) = notes := by
    by_cases h : cfgAnnot s.cfg = true
    · exact if_pos h
    · exact (if_neg h).trans (if_neg h).symm
  have hnext := exec_succeeds (checkOperands_ok hcfg hcap) hw
  rw [returnedAnn_encDb3, hann] at hnext
  exact ⟨_, hnext, rfl, hzrc⟩

/-- Settles O54: the decoder is at the encoder's registers after every symbol that is final. -/
theorem db3DecoderTracksEncoder : Obligations.Db3DecoderTracksEncoder := by
  unfold Obligations.Db3DecoderTracksEncoder
  intro p sp bs e
  exact ⟨_, db3DecodesTo_encLoop p sp bs, rfl, rfl, rfl, rfl, rfl⟩

/-- Settles O55: ZRC counts the zeros after the engine's history, and POL is the history's. -/
theorem db3RegistersDescribeSymbols : Obligations.Db3RegistersDescribeSymbols := by
  unfold Obligations.Db3RegistersDescribeSymbols
  intro p sp bs w
  obtain ⟨zrc, pss, heq, htrail⟩ := db3EncLoop_eq p sp bs
  obtain ⟨h, n, -, -, -, hsym, -, hzrc, -⟩ := db3EncLoop_history p sp bs
  have hlen := (db3DecodesTo_encLoop p sp bs).length_eq
  have hw : w = _ := heq
  refine ⟨?_, hlen, ?_, ?_, ?_, ?_⟩
  · rw [hw]; exact htrail
  · rw [hw]; rfl
  · rw [hw]
  · simp [w, hsym, hzrc]
  · simp [w, hsym, hzrc, hold]

/-- Settles O41: the symbols are the encoder's, and the decoder follows the encoder's registers. -/
theorem db3DecoderCompletes : Obligations.Db3DecoderCompletes := by
  unfold Obligations.Db3DecoderCompletes
  intro s bs hcfg hcap sp syms hinp
  obtain ⟨zrc, pss, heq, hzrc⟩ := db3EncLoop_eq ⟨cfgSamples s.cfg, sp, false⟩ sp bs
  have hdec := db3DecodesTo_encLoop ⟨cfgSamples s.cfg, sp, false⟩ sp bs
  rw [heq] at hdec
  refine ⟨_, runDecode_succeeds hcfg hcap (hinp.trans (symbolSamples_eq_expand _ _)) ?_ ?_ rfl (hdec.db3Decode rfl),
    rfl, hzrc⟩
  · simp [cellFits]
  · simp [Instr.scheme, mem_alphabet_db3]

end Sys2Proof.Machine
end

section
/-! What a decoder accepts is what its encoder writes, for the seven schemes that work bit by bit (spec/40_common.md R110, R117;
spec/41_simple_codecs.md). -/

namespace Sys2Proof.Machine

/-- Steps that are inverse to each other, of which the decode step accepts a cell only if the encode step gives it: the decode
step adds no bit sequence of its own. -/
structure StepsExact (sch : Scheme) (enc : EncStep) (dec : DecStep) : Prop extends StepsInvert sch enc dec where
  /-- The encode step leaves the cursor and ANN to the loop. -/
  enc_frame : ∀ b w, (enc b w).2.idx = w.idx ∧ (enc b w).2.ann = w.ann
  /-- The encode step gives every cell that the decode step accepts, and goes to the same registers. -/
  enc_dec : ∀ {c w b w'}, cellFits sch c → dec c w = .ok (b, w') → enc b w = (c, w')
  /-- The decode step has one error. -/
  dec_error : ∀ {c w e}, dec c w = .error e → e = .malformedSymbolSequence

/-- NRZ (R130, R131). -/
theorem nrz_stepsExact : StepsExact .nrz encStepNrz decStepNrz where
  toStepsInvert := nrz_stepsInvert
  enc_frame b w := by cases b <;> exact ⟨rfl, rfl⟩
  enc_dec {c w b w'} _ h := by
    unfold decStepNrz at h
    split_ifs at h with hc hc <;> cases h <;> cases hc <;> rfl
  dec_error {c w e} h := by
    unfold decStepNrz at h
    split_ifs at h
    cases h
    rfl

/-- RZ (R134, R135). -/
theorem rz_stepsExact : StepsExact .rz encStepRz decStepRz where
  toStepsInvert := rz_stepsInvert
  enc_frame b w := by cases b <;> exact ⟨rfl, rfl⟩
  enc_dec {c w b w'} _ h := by
    unfold decStepRz at h
    split_ifs at h with hc hc <;> cases h <;> cases hc <;> rfl
  dec_error {c w e} h := by
    unfold decStepRz at h
    split_ifs at h
    cases h
    rfl

/-- A cell of a full-width scheme has one level. -/
theorem cellFits_full {sch : Scheme} {c : Cell} (hsch : twoCell sch = false) (h : cellFits sch c) : ∃ l, c = ⟨l, l⟩ := by
  obtain ⟨h0, h1⟩ := c
  rcases h with h | h
  · rw [hsch] at h
    cases h
  · exact ⟨h0, congrArg (Cell.mk h0) h.symm⟩

/-- AMI (R138, R139). -/
theorem ami_stepsExact : StepsExact .ami encStepAmi decStepAmi where
  toStepsInvert := ami_stepsInvert
  enc_frame b w := by cases b <;> exact ⟨rfl, rfl⟩
  enc_dec {c w b w'} hfit h := by
    obtain ⟨l, rfl⟩ := cellFits_full rfl hfit
    unfold decStepAmi at h
    split_ifs at h with hc hc <;> cases h <;> cases hc <;> rfl
  dec_error {c w e} h := by
    unfold decStepAmi at h
    split_ifs at h
    cases h
    rfl

/-- CMI (R143, R144). -/
theorem cmi_stepsExact : StepsExact .cmi encStepCmi decStepCmi where
  toStepsInvert := cmi_stepsInvert
  enc_frame b w := by cases b <;> exact ⟨rfl, rfl⟩
  enc_dec {c w b w'} _ h := by
    unfold decStepCmi at h
    split_ifs at h with hc hc <;> cases h
    · rw [hc]
      rfl
    · obtain ⟨h0, h1⟩ := c
      obtain ⟨hfull, hmark⟩ : h0 = h1 ∧ h0 = w.pol.negate.level := hc
      rw [← hfull, hmark]
      rfl
  dec_error {c w e} h := by
    unfold decStepCmi at h
    split_ifs at h
    cases h
    rfl

/-- MANCHESTER (R147, R148). -/
theorem manchester_stepsExact : StepsExact .manchester encStepManchester decStepManchester where
  toStepsInvert := manchester_stepsInvert
  enc_frame b w := by cases b <;> exact ⟨rfl, rfl⟩
  enc_dec {c w b w'} _ h := by
    unfold decStepManchester at h
    split_ifs at h with hc hc <;> cases h <;> cases hc <;> rfl
  dec_error {c w e} h := by
    unfold decStepManchester at h
    split_ifs at h
    cases h
    rfl

/-- A level that has a polarity is that polarity's level. -/
theorem sign?_eq_some {l : Level} {a : Sign} : l.sign? = some a ↔ l = a.level := by
  cases l <;> cases a <;> decide

/-- A polarity that is not the one is the other. -/
theorem eq_negate_of_ne {a d : Sign} (h : a ≠ d) : a = d.negate := by
  revert h
  cases a <;> cases d <;> decide

/-- DecStep[DIFF_MANCHESTER] accepts only cells of two marks (R152). -/
theorem decStepDiffManchester_marks {c : Cell} {w : Work} {r : Bit × Work} (h : decStepDiffManchester c w = .ok r) :
    ∃ a d : Sign, c = ⟨a.level, d.level⟩ := by
  obtain ⟨h0, h1⟩ := c
  unfold decStepDiffManchester at h
  split at h
  · next a d ha hd =>
    exact ⟨a, d, by rw [← sign?_eq_some.mp ha, ← sign?_eq_some.mp hd]⟩
  · cases h

/-- DIFF_MANCHESTER (R151, R152). -/
theorem diffManchester_stepsExact : StepsExact .diffManchester encStepDiffManchester decStepDiffManchester where
  toStepsInvert := diffManchester_stepsInvert
  enc_frame b w := ⟨rfl, rfl⟩
  enc_dec {c w b w'} _ h := by
    obtain ⟨a, d, rfl⟩ := decStepDiffManchester_marks h
    rw [decStepDiffManchester_level] at h
    split_ifs at h with hmid
    cases h
    obtain rfl : d = a.negate := not_not.mp hmid
    by_cases hbit : a = w.dmq
    · simp [encStepDiffManchester, boundaryLevel, hbit]
    · obtain rfl := eq_negate_of_ne hbit
      simp [encStepDiffManchester, boundaryLevel]
  dec_error {c w e} h := by
    unfold decStepDiffManchester at h
    split at h
    · split_ifs at h
      cases h
      rfl
    · cases h
      rfl

/-- The level one step along the cycle (R156, R157). -/
theorem advanceCycle_mlv (w : Work) : (advanceCycle w).mlv = if w.mlv = .zero then w.mlt.level else .zero := by
  unfold advanceCycle
  split <;> rfl

/-- MLT-3 (R156, R157). -/
theorem mlt3_stepsExact : StepsExact .mlt3 encStepMlt3 decStepMlt3 where
  toStepsInvert := mlt3_stepsInvert
  enc_frame b w := by
    cases b
    · exact ⟨rfl, rfl⟩
    · show (advanceCycle w).idx = _ ∧ (advanceCycle w).ann = _
      unfold advanceCycle
      split <;> exact ⟨rfl, rfl⟩
  enc_dec {c w b w'} hfit h := by
    obtain ⟨l, rfl⟩ := cellFits_full rfl hfit
    rw [decStepMlt3, ← advanceCycle_mlv] at h
    split_ifs at h with hc hc <;> cases h <;> cases hc <;> rfl
  dec_error {c w e} h := by
    rw [decStepMlt3, ← advanceCycle_mlv] at h
    split_ifs at h
    cases h
    rfl

section
variable {sch : Scheme} {enc : EncStep} {dec : DecStep}

/-- The encode step does not read OUT. -/
theorem StepsExact.enc_outFree (h : StepsExact sch enc dec) (b : Bit) (w : Work) (o : List Byte) :
    enc b { w with out := o } = ((enc b w).1, { (enc b w).2 with out := o }) :=
  h.enc_dec (h.enc_cell b w).1 (h.dec_enc b w o)

/-- The encode loop advances the cursor once per bit and leaves ANN alone (R36, R110). -/
theorem StepsExact.processEncode_frame (h : StepsExact sch enc dec) (S : Nat) (bs : List Bit) (w : Work) :
    (processEncode enc S bs w).idx = w.idx + bs.length ∧ (processEncode enc S bs w).ann = w.ann := by
  induction bs generalizing w with
  | nil => exact ⟨rfl, rfl⟩
  | cons b bs ih =>
    obtain ⟨hidx, hann⟩ := h.enc_frame b w
    obtain ⟨ihidx, ihann⟩ := ih (advance (appendSamples (expand S (enc b w).1) (enc b w).2))
    refine ⟨ihidx.trans ?_, ihann.trans hann⟩
    simp [hidx, Nat.add_assoc, Nat.add_comm 1]

/-- Cells that the decode loop accepts are the encode loop's for the bits that it gives, and it ends at that loop's
registers: the converse of `StepsInvert.processDecode_encodedCells`. -/
theorem StepsExact.processDecode_eq_ok (h : StepsExact sch enc dec) (S : Nat) {cells : List Cell} {w w' : Work}
    (o : List Byte) (hfit : ∀ c ∈ cells, cellFits sch c) (hdec : processDecode dec cells w = .ok w') :
    ∃ bits, encodedCells enc S bits { w with out := o } = cells ∧
      w' = { processEncode enc S bits { w with out := o } with out := w.out ++ bitElements bits } := by
  induction cells generalizing w o with
  | nil =>
    cases hdec
    exact ⟨[], rfl, by simp [processEncode, bitElements]⟩
  | cons c cells ih =>
    obtain ⟨hc, hcells⟩ := List.forall_mem_cons.mp hfit
    cases hstep : dec c w with
    | error e => simp [processDecode, hstep] at hdec
    | ok r =>
      obtain ⟨b, w₁⟩ := r
      simp only [processDecode, hstep] at hdec
      have henc : enc b { w with out := o } = (c, { w₁ with out := o }) := by
        rw [h.enc_outFree, h.enc_dec hc hstep]
      obtain ⟨bits, hbits, hw'⟩ := ih (o ++ (expand S c).map levelByte) hcells hdec
      refine ⟨b :: bits, ?_, ?_⟩
      · rw [encodedCells, henc]
        exact congrArg (c :: ·) hbits
      · have hout : (advance (appendBit b w₁)).out ++ bitElements bits = w.out ++ bitElements (b :: bits) := by
          simp [h.dec_out hstep, bitElements, bitByte]
        rw [hw', hout, processEncode, henc]
        rfl

end

end Sys2Proof.Machine
end

section
/-! What the DB3 decoder accepts is what the DB3 encoder writes (spec/42_db3.md R215 to R222, R229). The decoder is followed
from one final history of the encoder to the next, through the zeros of a run and the symbols of an odd template. -/

namespace Sys2Proof.Machine

open Db3History

/-- Where the symbols `syms` and the bits `bits`, taken by the DB3 decoder to the registers `r`, stand in an output of the
encoder: after a history and the zeros of a run (R216), or inside a template `[B,0,0,V]` after it (R218 to R220). -/
inductive Db3Follows (S : Nat) (sp : Sign) : List Level → List Bit → Db3Regs → Prop
  | normal {h : Db3History} (hr : Reached S sp h) (z : Fin 4) :
    Db3Follows S sp (h.hold z).syms (h.hold z).bits ⟨.normal, h.pol, h.pss, z⟩
  | afterB1 {h : Db3History} (hr : Reached S sp h) (hpss : h.pss % 2 = 1) :
    Db3Follows S sp (h.syms ++ [h.pol.level]) (h.bits ++ [false]) ⟨.afterB1, h.pol, h.pss, 0⟩
  | afterB2 {h : Db3History} (hr : Reached S sp h) (hpss : h.pss % 2 = 1) :
    Db3Follows S sp (h.syms ++ [h.pol.level, .zero]) (h.bits ++ [false, false]) ⟨.afterB2, h.pol, h.pss, 0⟩
  | afterB3 {h : Db3History} (hr : Reached S sp h) (hpss : h.pss % 2 = 1) :
    Db3Follows S sp (h.syms ++ [h.pol.level, .zero, .zero]) (h.bits ++ [false, false, false])
      ⟨.afterB3, h.pol, h.pss, 0⟩

section
variable {S : Nat} {sp : Sign} {syms : List Level} {bits : List Bit}

/-- A history that has just been made final. -/
theorem Db3Follows.of_reached {h : Db3History} (hr : Reached S sp h) (hsyms : syms = h.syms) (hbits : bits = h.bits) :
    Db3Follows S sp syms bits ⟨.normal, h.pol, h.pss, 0⟩ := by
  have hnormal := Db3Follows.normal hr 0
  simp only [hold, Fin.val_zero, List.replicate_zero, List.append_nil] at hnormal
  rwa [hsyms, hbits]

/-- A repeated polarity in NORMAL (R218). -/
theorem db3DecStep_violation {pol : Sign} {pss : Nat} {z : Fin 4} :
    db3DecStep ⟨pol.level, pol.level⟩ (db3DecWork sp bits ⟨.normal, pol, pss, z⟩) =
      if z = 3 ∧ pss % 2 = 0 then .ok (false, db3DecWork sp bits ⟨.normal, pol, 0, 0⟩)
      else if z = 0 ∧ pss % 2 = 1 then .ok (false, db3DecWork sp bits ⟨.afterB1, pol, pss, z⟩)
      else .error .invalidSubstitutionPattern :=
  db3DecNormal_violation (db3DecWork sp bits ⟨.normal, pol, pss, z⟩)

/-- A symbol that the decoder accepts in NORMAL (R216 to R218). -/
theorem Db3Follows.normal_step {h : Db3History} (hr : Reached S sp h) (z : Fin 4) {l : Level} {b : Bit} {w : Work}
    (hstep : db3DecStep ⟨l, l⟩ (db3DecWork sp bits ⟨.normal, h.pol, h.pss, z⟩) = .ok (b, w))
    (hbits : bits = (h.hold z).bits) :
    ∃ r, w = db3DecWork sp bits r ∧ Db3Follows S sp ((h.hold z).syms ++ [l]) (bits ++ [b]) r := by
  subst hbits
  obtain rfl | rfl | rfl := level_cases h.pol l
  · by_cases hz : z.val < 3
    · rw [db3DecStep_zero hz] at hstep
      cases hstep
      refine ⟨_, rfl, ?_⟩
      have hnext := Db3Follows.normal hr ⟨z.val + 1, by omega⟩
      simpa [hold, List.replicate_succ'] using hnext
    · have hz3 : z.val = 3 := by omega
      rw [db3DecStep_normal rfl, db3DecNormal_fourthZero (runLength_of_three hz3)] at hstep
      cases hstep
  · rw [db3DecStep_violation] at hstep
    split_ifs at hstep with heven hodd
    · obtain ⟨hz, hpss⟩ := heven
      obtain rfl : z = 3 := hz
      cases hstep
      exact ⟨⟨.normal, h.pol, 0, 0⟩, rfl, .of_reached (hr.even hpss) (by simp [hold, Db3History.even])
        (by simp [hold, Db3History.even])⟩
    · obtain ⟨hz, hpss⟩ := hodd
      obtain rfl : z = 0 := hz
      cases hstep
      refine ⟨⟨.afterB1, h.pol, h.pss, 0⟩, rfl, ?_⟩
      simpa [hold] using Db3Follows.afterB1 hr hpss
  · rw [db3DecStep_dataPulse] at hstep
    cases hstep
    exact ⟨_, rfl, .of_reached (hr.pulse (Nat.le_of_lt_succ z.isLt)) rfl rfl⟩

/-- Every symbol that the decoder accepts keeps it on a track of the encoder. -/
theorem Db3Follows.step {r : Db3Regs} (hf : Db3Follows S sp syms bits r) {l : Level} {b : Bit} {w : Work}
    (hstep : db3DecStep ⟨l, l⟩ (db3DecWork sp bits r) = .ok (b, w)) :
    ∃ r', w = db3DecWork sp bits r' ∧ Db3Follows S sp (syms ++ [l]) (bits ++ [b]) r' := by
  obtain ⟨-, hB1, hB2, hB3, -⟩ := db3DecodeSteps (db3DecWork sp bits r) l
  cases hf with
  | normal hr z => exact normal_step hr z hstep rfl
  | @afterB1 h hr hpss =>
    rw [hB1 rfl] at hstep
    split_ifs at hstep with hl
    cases hstep
    cases hl
    exact ⟨⟨.afterB2, h.pol, h.pss, 0⟩, rfl, by simpa using Db3Follows.afterB2 hr hpss⟩
  | @afterB2 h hr hpss =>
    rw [hB2 rfl] at hstep
    split_ifs at hstep with hl
    cases hstep
    cases hl
    exact ⟨⟨.afterB3, h.pol, h.pss, 0⟩, rfl, by simpa using Db3Follows.afterB3 hr hpss⟩
  | @afterB3 h hr hpss =>
    rw [hB3 rfl] at hstep
    split_ifs at hstep with hl
    cases hstep
    cases hl
    exact ⟨⟨.normal, h.pol.negate, 0, 0⟩, rfl, .of_reached (hr.odd hpss)
      (by simp [Db3History.odd, db3DecWork]) (by simp [Db3History.odd])⟩

/-- A decode loop one bit-cell longer. -/
theorem processDecode_snoc {dec : DecStep} {cells : List Cell} {c : Cell} {w w' : Work}
    (h : processDecode dec (cells ++ [c]) w = .ok w') :
    ∃ w₁ b w₂, processDecode dec cells w = .ok w₁ ∧ dec c w₁ = .ok (b, w₂) ∧ w' = advance (appendBit b w₂) := by
  rw [processDecode_append] at h
  split at h
  · cases h
  · next w₁ hw₁ =>
    cases hc : dec c w₁ with
    | error e => simp [processDecode, hc] at h
    | ok r =>
      simp only [processDecode, hc] at h
      cases h
      exact ⟨w₁, r.1, r.2, hw₁, hc, rfl⟩

/-- Symbols that the decode loop accepts stand in an output of the encoder, for the bits that it gives. -/
theorem db3Follows_of_processDecode {w : Work}
    (h : processDecode db3DecStep (syms.map fun l => ⟨l, l⟩) (resetWork sp) = .ok w) :
    ∃ bits r, w = db3DecWork sp bits r ∧ Db3Follows S sp syms bits r := by
  induction syms using List.reverseRecOn generalizing w with
  | nil =>
    cases h
    exact ⟨[], ⟨.normal, sp, 0, 0⟩, rfl, .of_reached .start rfl rfl⟩
  | append_singleton syms l ih =>
    rw [List.map_append] at h
    obtain ⟨w₁, b, w₂, hsyms, hl, rfl⟩ := processDecode_snoc h
    obtain ⟨bits, r, rfl, hf⟩ := ih hsyms
    obtain ⟨r', rfl, hf'⟩ := hf.step hl
    refine ⟨bits ++ [b], r', ?_, hf'⟩
    simp [advance, appendBit, db3DecWork, plainWork, bitElements, bitByte]

/-- DEC.DB3 ends in NORMAL (R222). -/
theorem db3Decode_dmode {cells : List Cell} {w w' : Work} (h : db3Decode cells w = .ok w') : w'.dmode = .normal := by
  unfold db3Decode at h
  split at h
  · cases h
  · unfold db3DecEnd at h
    split_ifs at h with hmode
    cases h
    exact hmode

/-- In NORMAL the symbols are those that the encoder writes for the bits. -/
theorem Db3Follows.encLoop {p : Params} {r : Db3Regs} (hf : Db3Follows p.samples sp syms bits r)
    (hmode : r.dmode = .normal) : (db3EncLoop p bits (resetWork sp)).sym = syms := by
  cases hf with
  | @normal h hr z =>
    obtain ⟨hsyms, -⟩ := Finished.lookAhead ⟨h, z, hr, Nat.le_of_lt_succ z.isLt, rfl⟩
    rw [db3EncLoop_sym, hsyms]
  | _ => cases hmode

/-- Symbols that DEC.DB3 accepts are the encoder's for the bits that it gives, one per symbol (R229). -/
theorem db3Decode_eq_encLoop (p : Params) {w : Work}
    (h : db3Decode (syms.map fun l => ⟨l, l⟩) (resetWork sp) = .ok w) :
    ∃ bits r, w = db3DecWork sp bits r ∧ (db3EncLoop p bits (resetWork sp)).sym = syms := by
  obtain ⟨bits, r, rfl, hf⟩ := db3Follows_of_processDecode (S := p.samples) (db3Decode_eq_ok h)
  exact ⟨bits, r, rfl, hf.encLoop (db3Decode_dmode h)⟩

end

/-- The DB3 decode step has one error (R216 to R220). -/
theorem db3DecStep_error {c : Cell} {w : Work} {e : ErrorKind} (h : db3DecStep c w = .error e) :
    e = .invalidSubstitutionPattern := by
  unfold db3DecStep at h
  split at h
  · unfold db3DecNormal at h
    split_ifs at h
    · split at h <;> cases h
      rfl
    · cases h
      rfl
  all_goals
    split_ifs at h
    cases h
    rfl

end Sys2Proof.Machine
end

section
/-! Strict decoding of the whole commands (spec/40_common.md R117; spec/42_db3.md R229). -/

namespace Sys2Proof.Machine

/-- Strict decoding below the phases of a command: cells that the decode command of a scheme accepts have the samples that
its encode command writes for the bits that it gives, one per cell; it leaves ANN alone (R117). -/
def LoopsExact (sch : Scheme) : Prop :=
  ∀ (p : Params) (cells : List Cell) (w : Work), (∀ c ∈ cells, cellFits sch c) →
    decProc sch cells (resetWork p.sp) = .ok w → ∃ bits,
      (encProc sch p bits (resetWork p.sp)).out = (cells.flatMap (expand p.samples)).map levelByte ∧
      bits.length = cells.length ∧ w.out = bitElements bits ∧ w.idx = bits.length ∧ w.ann = []

/-- Steps that are exact make loops that are. -/
theorem StepsExact.loopsExact {sch : Scheme} {enc : EncStep} {dec : DecStep} (h : StepsExact sch enc dec)
    (henc : ∀ p, encProc sch p = processEncode enc p.samples) (hdec : decProc sch = processDecode dec) :
    LoopsExact sch := by
  intro p cells w hfit hw
  rw [hdec] at hw
  obtain ⟨bits, hcells, rfl⟩ := h.processDecode_eq_ok p.samples [] hfit hw
  obtain ⟨hidx, hann⟩ := h.processEncode_frame p.samples bits (resetWork p.sp)
  have hcells : encodedCells enc p.samples bits (resetWork p.sp) = cells := hcells
  refine ⟨bits, ?_, ?_, rfl, hidx.trans (Nat.zero_add _), hann⟩
  · rw [henc, h.processEncode_out, hcells]
    rfl
  · rw [← hcells, encodedCells_length]

/-- Cells of a full-width scheme are the cells of a symbol sequence. -/
theorem exists_symbols {sch : Scheme} (hsch : twoCell sch = false) {cells : List Cell}
    (hfit : ∀ c ∈ cells, cellFits sch c) : ∃ syms : List Level, cells = syms.map fun l => ⟨l, l⟩ := by
  induction cells with
  | nil => exact ⟨[], rfl⟩
  | cons c cells ih =>
    obtain ⟨hc, hcells⟩ := List.forall_mem_cons.mp hfit
    obtain ⟨l, rfl⟩ := cellFits_full hsch hc
    obtain ⟨syms, rfl⟩ := ih hcells
    exact ⟨l :: syms, rfl⟩

theorem db3_loopsExact : LoopsExact .db3 := by
  intro p cells w hfit hw
  obtain ⟨syms, rfl⟩ := exists_symbols rfl hfit
  obtain ⟨bits, r, rfl, hsym⟩ := db3Decode_eq_encLoop p hw
  have hlen := (db3DecodesTo_encLoop p p.sp bits).length_eq
  refine ⟨bits, ?_, ?_, rfl, rfl, rfl⟩
  · rw [encProc_db3_out, hsym, symbolSamples_eq_expand]
  · rw [List.length_map, ← hlen, hsym]

/-- Strict decoding below the phases of a command, for every scheme (R117). -/
theorem loopsExact (sch : Scheme) : LoopsExact sch := by
  cases sch with
  | nrz => exact nrz_stepsExact.loopsExact (fun _ => rfl) rfl
  | rz => exact rz_stepsExact.loopsExact (fun _ => rfl) rfl
  | ami => exact ami_stepsExact.loopsExact (fun _ => rfl) rfl
  | cmi => exact cmi_stepsExact.loopsExact (fun _ => rfl) rfl
  | manchester => exact manchester_stepsExact.loopsExact (fun _ => rfl) rfl
  | diffManchester => exact diffManchester_stepsExact.loopsExact (fun _ => rfl) rfl
  | mlt3 => exact mlt3_stepsExact.loopsExact (fun _ => rfl) rfl
  | db3 => exact db3_loopsExact

/-- The error that phases F and G of a decode command can raise: InvalidSubstitutionPattern for DB3, else
MalformedSymbolSequence (R253, R254). -/
def decStepError : Scheme → ErrorKind
  | .db3 => .invalidSubstitutionPattern
  | _ => .malformedSymbolSequence

theorem decProc_eq_error {sch : Scheme} {cells : List Cell} {w : Work} {e : ErrorKind}
    (h : decProc sch cells w = .error e) : e = decStepError sch := by
  cases sch with
  | nrz => exact processDecode_eq_error (fun _ _ _ => nrz_stepsExact.dec_error) h
  | rz => exact processDecode_eq_error (fun _ _ _ => rz_stepsExact.dec_error) h
  | ami => exact processDecode_eq_error (fun _ _ _ => ami_stepsExact.dec_error) h
  | cmi => exact processDecode_eq_error (fun _ _ _ => cmi_stepsExact.dec_error) h
  | manchester => exact processDecode_eq_error (fun _ _ _ => manchester_stepsExact.dec_error) h
  | diffManchester => exact processDecode_eq_error (fun _ _ _ => diffManchester_stepsExact.dec_error) h
  | mlt3 => exact processDecode_eq_error (fun _ _ _ => mlt3_stepsExact.dec_error) h
  | db3 =>
    have h : db3Decode cells w = .error e := h
    unfold db3Decode at h
    split at h
    · next hloop =>
      cases h
      exact processDecode_eq_error (fun _ _ _ => db3DecStep_error) hloop
    · unfold db3DecEnd at h
      split_ifs at h
      cases h
      rfl

/-- An outcome has one response. -/
theorem Responds.unique {o : Host.Outcome State Fault Refusal} {r r' : Response} (h : Responds o r)
    (h' : Responds o r') : r = r' := by
  obtain ⟨t, rfl, ht, -⟩ := h
  obtain ⟨t', ho, ht', -⟩ := h'
  cases ho
  exact Option.some.inj (ht.symm.trans ht')

/-- A command that ends in an error answers it with no data (R259). -/
theorem responds_error {i : Instr} {s : State} {e : ErrorKind} (h : commandResult i s = .error e) :
    Responds (exec i s) ⟨e.status, [], []⟩ := by
  refine ⟨_, exec_eq_finish i s, ?_, ?_⟩ <;> rw [h] <;> rfl

/-- A decode command returns no annotations (R112). -/
theorem returnedAnn_decode {i : Instr} (hd : i.dir = .decode) (p : Params) (w : Work) : returnedAnn i p w = [] := by
  simp [returnedAnn, hd]

/-- What a decode command computes from its input: bits for which the encode command of its scheme writes that input, one
per bit-cell, and no annotations (R112, R117). -/
theorem processInput_decode_eq_ok {i : Instr} (hd : i.dir = .decode) {p : Params} {inp : List Byte} {w : Work}
    (hpos : 0 < p.samples) (heven : twoCell i.scheme = true → p.samples % 2 = 0)
    (h : processInput i p inp = .ok w) :
    ∃ bits, inp = (encProc i.scheme p bits (resetWork p.sp)).out ∧ bits.length * p.samples = inp.length ∧
      w.out = bitElements bits ∧ w.idx = bits.length ∧ w.ann = [] := by
  rw [processInput_decode hd] at h
  cases hcells : validateSamples i.scheme p.samples inp with
  | error e =>
    rw [hcells] at h
    cases h
  | ok cells =>
    rw [hcells] at h
    obtain ⟨hinp, hfit, -, hlen⟩ := validateSamples_eq_ok hpos heven hcells
    obtain ⟨bits, hout, hbits, hw⟩ := loopsExact i.scheme p cells w hfit h
    exact ⟨bits, hinp.trans hout.symm, hbits ▸ hlen, hw⟩

/-- The errors that a decode command can raise after phases B and C (R253, R254). -/
theorem processInput_decode_eq_error {i : Instr} (hd : i.dir = .decode) {p : Params} {inp : List Byte} {e : ErrorKind}
    (h : processInput i p inp = .error e) : e = .malformedSymbolSequence ∨ e = decStepError i.scheme := by
  rw [processInput_decode hd] at h
  cases hcells : validateSamples i.scheme p.samples inp with
  | error e' =>
    rw [hcells] at h
    cases h
    exact .inl (validateSamples_eq_error hcells)
  | ok cells =>
    rw [hcells] at h
    exact .inr (decProc_eq_error h)

/-- A decode command answers an error, or bits for which the encode command of its scheme gives its input. -/
theorem decode_responds {sch : Scheme} {s : State} {y : List Byte} (hcfg : (decOf sch).wfCfg s.cfg = true)
    (hcap : WithinCap s y.length) :
    (∃ e : ErrorKind, (e = .malformedSymbolSequence ∨ e = decStepError sch) ∧
      Responds (exec (decOf sch) { s with inp := y }) ⟨e.status, [], []⟩) ∨
    ∃ b ann, Responds (exec (encOf sch) { s with inp := bitElements b }) ⟨.ok, y, ann⟩ ∧
      Responds (exec (decOf sch) { s with inp := y }) ⟨.ok, bitElements b, []⟩ := by
  have hd : (decOf sch).dir = .decode := instrOf_dir _ _
  have hp := checkOperands_ok (s := { s with inp := y }) hcfg hcap
  obtain ⟨hpos, heven⟩ := wfCfg_samples hcfg
  cases hw : processInput (decOf sch) ⟨cfgSamples s.cfg, cfgPolarity s.cfg, cfgAnnot s.cfg⟩ y with
  | error e =>
    have he := processInput_decode_eq_error hd hw
    rw [instrOf_scheme] at he
    exact .inl ⟨e, he, responds_error ((commandResult_of_ok hp).trans (congrArg _ hw))⟩
  | ok w =>
    obtain ⟨bits, hy, hlen, hout, -⟩ := processInput_decode_eq_ok hd hpos heven hw
    have hcap' : WithinCap s (bitElements bits).length := fun cap h => by
      rw [bitElements, List.length_map]
      exact (Nat.le_mul_of_pos_right _ hpos).trans (hlen.trans_le (hcap cap h))
    have hp' := checkOperands_ok (s := { s with inp := bitElements bits }) (wfCfg_decOf sch s.cfg ▸ hcfg) hcap'
    have henc := responds_ok hp' (by
      rw [processInput_encode (instrOf_dir _ _), validateBits_eq_ok.mpr rfl]
      rfl)
    have hdec := responds_ok hp hw
    rw [returnedAnn_decode hd, hout] at hdec
    rw [instrOf_scheme] at hy henc
    exact .inr ⟨bits, _, hy ▸ henc, hdec⟩

/-- Settles O43: what the decoder accepts is the encoder's, so the round-trip law says which bits the decoder gives. -/
theorem decodeAcceptsExactlyEncodeImage : Obligations.DecodeAcceptsExactlyEncodeImage := by
  unfold Obligations.DecodeAcceptsExactlyEncodeImage
  intro sch s y hcfg hcap
  obtain ⟨e, he, herr⟩ | ⟨b, ann, henc, hdec⟩ := decode_responds hcfg hcap
  · refine ⟨fun b => ⟨fun hdec => ?_, fun ⟨ann, henc⟩ => roundTripLaw sch s b y ann henc hcap⟩, fun _ => ?_⟩
    · exact absurd (congrArg Response.status (herr.unique hdec)) (status_ne_ok e)
    · rcases he with rfl | rfl
      · exact .inl herr
      · cases sch with
        | db3 => exact .inr ⟨rfl, herr⟩
        | _ => exact .inl herr
  · refine ⟨fun b' => ⟨fun hdec' => ⟨ann, ?_⟩, fun ⟨ann', henc'⟩ => roundTripLaw sch s b' y ann' henc' hcap⟩,
      fun hnone => absurd ⟨b, ann, henc⟩ hnone⟩
    obtain rfl : b = b' := bitElements_injective (congrArg Response.out (hdec.unique hdec'))
    exact henc

end Sys2Proof.Machine
end

section
/-! What every command leaves: the frames of failure and success, the cursor, and the machine's invariant (spec/40_common.md
R110, R112, R115; spec/60_exceptions.md R259; spec/70_reset_and_hazards.md R289). -/

namespace Sys2Proof.Machine

open Db3History

/-- A command ends aborted, or committed with what its input gives (R112, R259). -/
theorem exec_cases {i : Instr} {s t : State} (ht : exec i s = .next t) :
    (∃ e, t = abort e s) ∨ ∃ p w, checkOperands i s = .ok p ∧ processInput i p s.inp = .ok w ∧ t = commit i p w s := by
  rw [exec_eq_finish] at ht
  cases hc : commandResult i s with
  | error e =>
    rw [hc] at ht
    cases ht
    exact .inl ⟨e, rfl⟩
  | ok r =>
    obtain ⟨p, w⟩ := r
    obtain ⟨hp, hw⟩ := commandResult_eq_ok.mp hc
    rw [hc] at ht
    cases ht
    exact .inr ⟨p, w, hp, hw, rfl⟩

/-- Settles O21: a status other than OK is an abort's. -/
theorem failedCommandChangesNothingElse : Obligations.FailedCommandChangesNothingElse := by
  unfold Obligations.FailedCommandChangesNothingElse
  intro i s t ht hstatus
  obtain ⟨e, rfl⟩ | ⟨p, w, -, -, rfl⟩ := exec_cases ht
  · exact ⟨rfl, rfl, rfl⟩
  · exact absurd rfl hstatus

/-- ENC.DB3 is the one command of its direction and its scheme (R76). -/
theorem eq_encDb3_iff (i : Instr) : i = .encDb3 ↔ i.dir = .encode ∧ i.scheme = .db3 := by
  cases i <;> decide

/-- Settles O22: status OK is a commit's, and only ENC.DB3 with CFG[9] = 1 returns its annotations. -/
theorem successfulCommandChangesNothingElse : Obligations.SuccessfulCommandChangesNothingElse := by
  unfold Obligations.SuccessfulCommandChangesNothingElse
  intro i s t ht hstatus
  obtain ⟨e, rfl⟩ | ⟨p, w, hp, -, rfl⟩ := exec_cases ht
  · exact absurd hstatus (status_ne_ok e)
  · obtain ⟨-, -, rfl⟩ := checkOperands_eq_ok hp
    simp only [eq_encDb3_iff, and_assoc]
    rfl

/-- An encode loop that takes the cursor to the number of bits and leaves ANN in increasing position order (R56, R110). -/
def LoopFrames (sch : Scheme) : Prop :=
  ∀ (p : Params) (bits : List Bit), 0 < p.samples → (encProc sch p bits (resetWork p.sp)).idx = bits.length ∧
    risingPositions (encProc sch p bits (resetWork p.sp)).ann = true

theorem StepsExact.loopFrames {sch : Scheme} {enc : EncStep} {dec : DecStep} (h : StepsExact sch enc dec)
    (henc : ∀ p, encProc sch p = processEncode enc p.samples) : LoopFrames sch := by
  intro p bits _
  obtain ⟨hidx, hann⟩ := h.processEncode_frame p.samples bits (resetWork p.sp)
  rw [henc, hidx, hann]
  exact ⟨Nat.zero_add _, rfl⟩

/-- The records of a reached history are in increasing position order (R210). -/
theorem Db3History.Reached.rising {S : Nat} {sp : Sign} {h : Db3History} (hpos : 0 < S) (hr : Reached S sp h) :
    risingPositions h.notes = true := by
  induction hr with
  | start => rfl
  | pulse _ _ ih => exact ih
  | @even h hr hpss ih =>
    refine risingPositions_append ih rfl fun x hx y hy => ?_
    obtain rfl := List.mem_singleton.mp hy
    exact (hr.position_lt hpos x hx).trans_le (Nat.mul_le_mul_right S (by omega))
  | @odd h hr hpss ih =>
    have hpair : h.syms.length * S < (h.syms.length + 3) * S := Nat.mul_lt_mul_of_pos_right (by omega) hpos
    refine risingPositions_append ih (by simpa [risingPositions] using hpair) fun x hx y hy => ?_
    have hlt := hr.position_lt hpos x hx
    rcases List.mem_pair.mp hy with rfl | rfl
    · exact hlt
    · exact hlt.trans hpair

theorem db3_loopFrames : LoopFrames .db3 := by
  intro p bits hpos
  obtain ⟨h, n, hr, -, -, -, hann, -⟩ := db3EncLoop_history p p.sp bits
  obtain ⟨_, _, _, _, _, hframe⟩ := db3EncLoop_frame p bits (resetWork p.sp)
  refine ⟨(congrArg Work.idx hframe).trans (Nat.zero_add _), ?_⟩
  show risingPositions (db3EncLoop p bits (resetWork p.sp)).ann = true
  rw [hann]
  split
  · exact hr.rising hpos
  · rfl

theorem loopFrames (sch : Scheme) : LoopFrames sch := by
  cases sch with
  | nrz => exact nrz_stepsExact.loopFrames fun _ => rfl
  | rz => exact rz_stepsExact.loopFrames fun _ => rfl
  | ami => exact ami_stepsExact.loopFrames fun _ => rfl
  | cmi => exact cmi_stepsExact.loopFrames fun _ => rfl
  | manchester => exact manchester_stepsExact.loopFrames fun _ => rfl
  | diffManchester => exact diffManchester_stepsExact.loopFrames fun _ => rfl
  | mlt3 => exact mlt3_stepsExact.loopFrames fun _ => rfl
  | db3 => exact db3_loopFrames

/-- What an encode command computes from its input: phases F and G on its bits (R105, R110). -/
theorem processInput_encode_eq_ok {i : Instr} (hd : i.dir = .encode) {p : Params} {inp : List Byte} {w : Work}
    (h : processInput i p inp = .ok w) :
    ∃ bits, inp = bitElements bits ∧ w = encProc i.scheme p bits (resetWork p.sp) := by
  rw [processInput_encode hd] at h
  cases hbits : validateBits inp with
  | error e => simp [hbits, Except.map] at h
  | ok bits =>
    rw [hbits] at h
    cases h
    exact ⟨bits, validateBits_eq_ok.mp hbits, rfl⟩

/-- Settles O23: the loops advance the cursor once per bit, and a decode command gives one bit per S samples. -/
theorem everyCommandCompletes : Obligations.EveryCommandCompletes := by
  unfold Obligations.EveryCommandCompletes
  intro i s
  refine ⟨_, exec_eq_finish i s, fun hstatus => ?_⟩
  obtain ⟨e, ht⟩ | ⟨p, w, hp, hw, ht⟩ := exec_cases (exec_eq_finish i s)
  · rw [ht] at hstatus
    exact absurd hstatus (status_ne_ok e)
  · obtain ⟨hcfg, -, rfl⟩ := checkOperands_eq_ok hp
    obtain ⟨hpos, heven⟩ := wfCfg_samples hcfg
    rw [ht, commit_work]
    cases hd : i.dir with
    | encode =>
      obtain ⟨bits, hinp, rfl⟩ := processInput_encode_eq_ok hd hw
      obtain ⟨hidx, -⟩ := loopFrames i.scheme ⟨cfgSamples s.cfg, cfgPolarity s.cfg, cfgAnnot s.cfg⟩ bits hpos
      have hlen : bits.length = s.inp.length := by rw [hinp, bitElements, List.length_map]
      exact ⟨(hidx.trans hlen).le, fun _ => hidx.trans hlen, nofun⟩
    | decode =>
      obtain ⟨bits, -, hlen, -, hidx, -⟩ := processInput_decode_eq_ok hd hpos heven hw
      rw [hidx]
      exact ⟨(Nat.le_mul_of_pos_right _ hpos).trans_eq hlen, nofun, fun _ => hlen⟩

/-- The samples of levels are words of OUT (R53). -/
theorem all_isOutByte_samples (ls : List Level) : (ls.map levelByte).all isOutByte = true := by
  simp

/-- The words of bits are words of OUT (R54). -/
theorem all_isOutByte_bits (bs : List Bit) : (bitElements bs).all isOutByte = true := by
  simp [bitElements_eq_map]

/-- Every command leaves buffers of the right form (R53 to R56). -/
theorem processInput_buffersWf {i : Instr} {p : Params} {inp : List Byte} {w : Work} (hpos : 0 < p.samples)
    (heven : twoCell i.scheme = true → p.samples % 2 = 0) (h : processInput i p inp = .ok w) :
    buffersWf w.out w.ann = true := by
  unfold buffersWf
  rw [Bool.and_eq_true]
  cases hd : i.dir with
  | encode =>
    obtain ⟨bits, -, rfl⟩ := processInput_encode_eq_ok hd h
    obtain ⟨cells, hout, -⟩ := loopsInvert i.scheme p bits
    rw [hout]
    exact ⟨all_isOutByte_samples _, (loopFrames i.scheme p bits hpos).2⟩
  | decode =>
    obtain ⟨bits, -, -, hout, -, hann⟩ := processInput_decode_eq_ok hd hpos heven h
    rw [hout, hann]
    exact ⟨all_isOutByte_bits bits, rfl⟩

/-- An abort tells one result, with no data (R259). -/
theorem abort_machineInv (e : ErrorKind) (s : State) : MachineInv (abort e s) :=
  ⟨abort_keeps_memory e s, by simp [allOrNothing]⟩

/-- A command establishes the invariant, whatever it starts from (R28, R61). -/
theorem exec_machineInv {i : Instr} {s t : State} (ht : exec i s = .next t) : MachineInv t := by
  obtain ⟨e, rfl⟩ | ⟨p, w, hp, hw, rfl⟩ := exec_cases ht
  · exact abort_machineInv e s
  · obtain ⟨hcfg, -, rfl⟩ := checkOperands_eq_ok hp
    obtain ⟨hpos, heven⟩ := wfCfg_samples hcfg
    exact ⟨commit_keeps_memory i _ s (processInput_buffersWf hpos heven hw), rfl⟩

/-- Settles O4: an idle step keeps the state, and any other ends in an abort or a command. -/
theorem stepKeepsInvariant : Obligations.StepKeepsInvariant := by
  unfold Obligations.StepKeepsInvariant
  intro s t hinv ht
  obtain ⟨-, hidle⟩ | ⟨r, rest, -, ⟨why, -, hrefused⟩ | ⟨-, ⟨e, -, habort⟩ | ⟨i, -, hexec⟩⟩⟩ := step_cases s
  · rw [hidle] at ht
    cases ht
    exact hinv
  · rw [hrefused] at ht
    cases ht
  · rw [habort] at ht
    cases ht
    exact abort_machineInv _ _
  · exact exec_machineInv (hexec.symm.trans ht)

/-- Settles O3: the working buffers are empty at power-on, and there is no response. -/
theorem powerOnMeetsInvariant : Obligations.PowerOnMeetsInvariant := by
  unfold Obligations.PowerOnMeetsInvariant
  exact ⟨reset_memory_wf, rfl⟩

/-- Settles O25: phases F and G do nothing without a bit. -/
theorem commandStartsFromWorkingReset : Obligations.CommandStartsFromWorkingReset := by
  unfold Obligations.CommandStartsFromWorkingReset
  intro i s hcfg hinp
  obtain ⟨hpos, heven⟩ := wfCfg_samples hcfg
  have hp := checkOperands_ok hcfg (by rw [hinp]; exact withinCap_zero s)
  have hw := processInput_nil hpos heven (cfgPolarity s.cfg) (cfgAnnot s.cfg)
  have hnext := exec_succeeds hp (hinp ▸ hw)
  rwa [returnedAnn, resetWork_ann, ite_self] at hnext

end Sys2Proof.Machine
end

section
/-! The result of a decode command (spec/60_exceptions.md R250, R253, R254, R258). -/

namespace Sys2Proof.Machine

/-! Phase D passes exactly what the statements call so. -/

/-- An element of the decode alphabet is the word of one of its levels (R53, R103). -/
theorem inAlphabet_iff (sch : Scheme) (e : Byte) : inAlphabet sch e ↔ ∃ l ∈ alphabet sch, e = levelByte l := by
  cases sch <;> simp [inAlphabet, alphabet, levelByte]

/-- Elements of the decode alphabet are the words of levels of it. -/
theorem exists_levels {sch : Scheme} {inp : List Byte} (h : ∀ e ∈ inp, inAlphabet sch e) :
    ∃ v : List Level, inp = v.map levelByte ∧ ∀ l ∈ v, l ∈ alphabet sch := by
  induction inp with
  | nil => exact ⟨[], rfl, by simp⟩
  | cons e es ih =>
    obtain ⟨he, hes⟩ := List.forall_mem_cons.mp h
    obtain ⟨l, hl, rfl⟩ := (inAlphabet_iff sch e).mp he
    obtain ⟨v, rfl, hv⟩ := ih hes
    exact ⟨l :: v, rfl, List.forall_mem_cons.mpr ⟨hl, hv⟩⟩

/-- Words are constant over the cells exactly when their levels are. -/
theorem constantCells_map {α β : Type} {f : α → β} (hf : Function.Injective f) {sch : Scheme} {S : Nat} {v : List α} :
    constantCells sch S (v.map f) ↔ constantCells sch S v := by
  simp only [constantCells_iff, List.length_map, List.getElem?_map, (Option.map_injective hf).eq_iff]

theorem levelByte_injective : Function.Injective levelByte := fun _ _ => levelByte_inj.mp

/-- Phase D for decode passes exactly the inputs without causes 1 to 3 of R253 (R106, R108). -/
theorem passesPhaseD_iff {sch : Scheme} {S : Nat} (hpos : 0 < S) (heven : twoCell sch = true → S % 2 = 0)
    {inp : List Byte} : PassesPhaseD sch S inp ↔ ∃ cells, validateSamples sch S inp = .ok cells := by
  constructor
  · rintro ⟨hmod, halph, hconst⟩
    obtain ⟨v, rfl, hv⟩ := exists_levels halph
    rw [List.length_map] at hmod
    have hconst := (constantCells_map levelByte_injective).mp hconst
    obtain ⟨cells, hcells, -⟩ := (mapperCollapses sch S v hpos (twoCell_eq_wf sch ▸ heven) hmod).1 hconst
    refine ⟨cells, ?_⟩
    rw [validateSamples, if_neg (by simpa using hmod), readSamples_eq_ok.mpr ⟨rfl, hv⟩]
    exact hcells
  · rintro ⟨cells, hcells⟩
    obtain ⟨hinp, hfit, halph, hlen⟩ := validateSamples_eq_ok hpos heven hcells
    refine ⟨by rw [← hlen, Nat.mul_mod_left], fun e he => ?_, ?_⟩
    · rw [hinp] at he
      obtain ⟨l, hl, rfl⟩ := List.mem_map.mp he
      exact (inAlphabet_iff sch _).mpr ⟨l, halph l hl, rfl⟩
    · rw [hinp]
      exact (constantCells_map levelByte_injective).mpr (constantCells_expand hpos heven hfit)

/-! DEC.NRZ after phase D. -/

/-- DEC.NRZ accepts every cell of its alphabet (R131). -/
theorem processDecode_nrz {cells : List Cell} (h : ∀ c ∈ cells, c = ⟨.zero, .zero⟩ ∨ c = ⟨.plus, .plus⟩) (w : Work) :
    ∃ w', processDecode decStepNrz cells w = .ok w' := by
  induction cells generalizing w with
  | nil => exact ⟨w, rfl⟩
  | cons c cells ih =>
    obtain ⟨hc, hcells⟩ := List.forall_mem_cons.mp h
    rcases hc with rfl | rfl
    · exact ih hcells _
    · exact ih hcells _

/-- DEC.NRZ cannot fail after phase D (R253). -/
theorem decProc_nrz {S : Nat} (hpos : 0 < S) {inp : List Byte} {cells : List Cell}
    (h : validateSamples .nrz S inp = .ok cells) (w : Work) : ∃ w', decProc .nrz cells w = .ok w' := by
  obtain ⟨-, hfit, halph, -⟩ := validateSamples_eq_ok hpos (by simp [twoCell]) h
  refine processDecode_nrz (fun c hc => ?_) w
  obtain ⟨l, rfl⟩ := cellFits_full rfl (hfit c hc)
  have hl : l ∈ alphabet .nrz := halph l (List.mem_flatMap.mpr ⟨_, hc, by
    rw [expand_full]
    exact List.mem_replicate.mpr ⟨hpos.ne', rfl⟩⟩)
  rcases List.mem_pair.mp hl with rfl | rfl
  · exact .inl rfl
  · exact .inr rfl

theorem decStepError_cases (sch : Scheme) :
    (decStepError sch = .malformedSymbolSequence ∧ sch ≠ .db3) ∨
      (decStepError sch = .invalidSubstitutionPattern ∧ sch = .db3) := by
  cases sch <;> simp [decStepError]

/-- Settles O20: the checks of a decode command in phase order; after them its loop has one error, which DEC.NRZ cannot
raise. -/
theorem decodeOutcome : Obligations.DecodeOutcome := by
  unfold Obligations.DecodeOutcome
  intro i s hd
  refine ⟨_, exec_eq_finish i s, fun hcfg => ?_, fun hcfg hcap => ?_, fun hcfg hcap hphase => ?_,
    fun hcfg hcap hphase => ?_⟩
  · rw [commandResult_of_error (checkOperands_badConfig (by simp [hcfg]))]
    rfl
  · rw [commandResult_of_error (checkOperands_tooLong hcfg hcap)]
    rfl
  all_goals
    obtain ⟨hpos, heven⟩ := wfCfg_samples hcfg
    rw [commandResult_of_ok (checkOperands_ok hcfg hcap), processInput_decode hd]
  · cases hcells : validateSamples i.scheme (cfgSamples s.cfg) s.inp with
    | error e =>
      rw [validateSamples_eq_error hcells]
      rfl
    | ok cells => exact absurd ((passesPhaseD_iff hpos heven).mpr ⟨cells, hcells⟩) hphase
  · obtain ⟨cells, hcells⟩ := (passesPhaseD_iff hpos heven).mp hphase
    rw [hcells]
    cases hw : decProc i.scheme cells (resetWork (cfgPolarity s.cfg)) with
    | ok w => simp [Except.bind, hw, Except.map, finish]
    | error e =>
      have hnrz : i.scheme ≠ .nrz := fun hsch => by
        rw [hsch] at hcells hw
        obtain ⟨w, hok⟩ := decProc_nrz hpos hcells (resetWork (cfgPolarity s.cfg))
        cases hw.symm.trans hok
      simp only [Except.bind, hw, Except.map, finish, abort_lastStatus, decProc_eq_error hw]
      rcases decStepError_cases i.scheme with ⟨he, hsch⟩ | ⟨he, hsch⟩
      · exact .inr (.inl ⟨by rw [he]; rfl, hnrz, hsch⟩)
      · exact .inr (.inr ⟨by rw [he]; rfl, hsch⟩)

end Sys2Proof.Machine
end

section
/-! What the commands of the seven schemes that work bit by bit complete with (spec/41_simple_codecs.md R132 to R159). -/

namespace Sys2Proof.Machine

/-! The encode loops that follow a closed form, beside those of AMI, DIFF_MANCHESTER and MLT3. -/

/-- The loop of a scheme without registers: each bit has a cell of its own (R110). -/
theorem processEncode_stateless (step : EncStep) (S : Nat) (sp : Sign) (cell : List Bit → Nat → Cell)
    (hstep : ∀ bs k w, step (isOne bs k) w = (cell bs k, w)) (bs : List Bit) :
    processEncode step S bs (resetWork sp) = plainWork sp bs.length
      ((((List.range bs.length).map (cell bs)).flatMap (expand S)).map levelByte) := by
  have hlast : ∀ bs b w, step b w = (cell (bs ++ [b]) bs.length, w) := fun bs b w => by
    rw [← hstep, isOne_append_last]
  refine processEncode_follows step S sp cell (fun _ w => w) ?_ rfl ?_ ?_ bs
  · intro bs b k hk
    have hbit := hstep (bs ++ [b]) k (resetWork sp)
    rw [isOne_append bs b hk, hstep] at hbit
    exact (congrArg Prod.fst hbit).symm
  · intro bs b L out
    rw [hlast]
  · intro bs b L out ls
    rw [hlast bs b]
    rfl

/-- The loop of ENC.NRZ (R130). -/
theorem processEncode_nrz (S : Nat) (sp : Sign) (bs : List Bit) : processEncode encStepNrz S bs (resetWork sp) =
    plainWork sp bs.length (heldSamples S bs.length (nrzLevel bs)) := by
  rw [heldSamples_eq_expand]
  refine processEncode_stateless encStepNrz S sp (fun bs k => ⟨nrzLevel bs k, nrzLevel bs k⟩) (fun bs k w => ?_) bs
  unfold nrzLevel
  cases isOne bs k <;> rfl

/-- The loop of ENC.RZ, for an even S (R134). -/
theorem processEncode_rz {S : Nat} (heven : S % 2 = 0) (sp : Sign) (bs : List Bit) :
    processEncode encStepRz S bs (resetWork sp) =
      plainWork sp bs.length (halfSamples S bs.length (rzHalves bs)) := by
  rw [halfSamples_eq_expand heven]
  refine processEncode_stateless encStepRz S sp (fun bs k => ⟨(rzHalves bs k).1, (rzHalves bs k).2⟩)
    (fun bs k w => ?_) bs
  unfold rzHalves
  cases isOne bs k <;> rfl

/-- The loop of ENC.MANCHESTER, for an even S (R147). -/
theorem processEncode_manchester {S : Nat} (heven : S % 2 = 0) (sp : Sign) (bs : List Bit) :
    processEncode encStepManchester S bs (resetWork sp) =
      plainWork sp bs.length (halfSamples S bs.length (manchesterHalves bs)) := by
  rw [halfSamples_eq_expand heven]
  refine processEncode_stateless encStepManchester S sp
    (fun bs k => ⟨(manchesterHalves bs k).1, (manchesterHalves bs k).2⟩) (fun bs k w => ?_) bs
  unfold manchesterHalves
  cases isOne bs k <;> rfl

/-- The loop of ENC.CMI, for an even S: the marks alternate, and POL ends as the last one's polarity (R143). -/
theorem processEncode_cmi {S : Nat} (heven : S % 2 = 0) (sp : Sign) (bs : List Bit) :
    processEncode encStepCmi S bs (resetWork sp) =
      { plainWork sp bs.length (halfSamples S bs.length (cmiHalves sp bs)) with
        pol := flipped sp (bs.count true) } := by
  rw [halfSamples_eq_expand heven]
  refine processEncode_follows encStepCmi S sp (fun bs k => ⟨(cmiHalves sp bs k).1, (cmiHalves sp bs k).2⟩)
    (fun bs w => { w with pol := flipped sp (bs.count true) }) ?_ rfl ?_ ?_ bs
  · intro bs b k hk
    simp [cmiHalves, isOne_append bs b hk, onesBefore_append bs b hk.le]
  · intro bs b L out
    cases b <;> simp [encStepCmi, cmiHalves, onesBefore_append, flipped_succ]
  · intro bs b L out ls
    cases b <;> simp [encStepCmi, flipped_succ] <;> rfl

/-! The encode commands. -/

/-- Settles O32: the three loops give each bit its own levels. -/
theorem statelessEncodersComplete : Obligations.StatelessEncodersComplete := by
  unfold Obligations.StatelessEncodersComplete
  intro s bs hcap hinp S sp
  refine ⟨fun hcfg => ?_, fun hcfg => ?_, fun hcfg => ?_⟩
  · exact runEncode_succeeds hcfg hcap hinp nofun (processEncode_nrz S sp bs)
  · exact runEncode_succeeds hcfg hcap hinp nofun (processEncode_rz ((wfCfg_samples hcfg).2 rfl) sp bs)
  · exact runEncode_succeeds hcfg hcap hinp nofun (processEncode_manchester ((wfCfg_samples hcfg).2 rfl) sp bs)

/-- Settles O33: the marks of both loops alternate. -/
theorem markEncodersComplete : Obligations.MarkEncodersComplete := by
  unfold Obligations.MarkEncodersComplete
  intro s bs hcap hinp S sp
  refine ⟨fun hcfg => ?_, fun hcfg => ?_⟩
  · exact runEncode_succeeds hcfg hcap hinp nofun (processEncode_ami S sp bs)
  · exact runEncode_succeeds hcfg hcap hinp nofun (processEncode_cmi ((wfCfg_samples hcfg).2 rfl) sp bs)

/-- Settles O34: DMQ is sp inverted once for each 1. -/
theorem diffManchesterEncoderCompletes : Obligations.DiffManchesterEncoderCompletes := by
  unfold Obligations.DiffManchesterEncoderCompletes
  intro s bs hcfg hcap hinp S sp
  exact runEncode_succeeds hcfg hcap hinp nofun (processEncode_diffManchester ((wfCfg_samples hcfg).2 rfl) sp bs)

/-- Settles O35: MLV and MLT go along the cycle, one step for each 1. -/
theorem mlt3EncoderCompletes : Obligations.Mlt3EncoderCompletes := by
  unfold Obligations.Mlt3EncoderCompletes
  intro s bs hcfg hcap hinp S sp
  exact runEncode_succeeds hcfg hcap hinp nofun (processEncode_mlt3 S sp bs)

/-! The decode commands: each undoes its encode loop, and ends at the same registers. -/

/-- A decode command whose input is what the encode loop of its scheme writes for `bs` completes with `bs` and the registers
of that loop (R110, R116). -/
theorem StepsInvert.runDecode_of_encoded {sch : Scheme} {enc : EncStep} {dec : DecStep} (h : StepsInvert sch enc dec)
    {i : Instr} (hsch : i.scheme = sch) (hd : i.dir = .decode) {s : State} {bs : List Bit} {w : Work}
    (hcfg : i.wfCfg s.cfg = true) (hcap : WithinCap s s.inp.length)
    (henc : processEncode enc (cfgSamples s.cfg) bs (resetWork (cfgPolarity s.cfg)) = w) (hinp : s.inp = w.out) :
    runDecode i (processDecode dec) s = .next (succeeded s { w with out := bitElements bs } []) := by
  subst hsch henc
  have hcells := h.encodedCells_cellOf (cfgSamples s.cfg) bs (resetWork (cfgPolarity s.cfg))
  exact runDecode_succeeds hcfg hcap (hinp.trans (h.processEncode_out _ _ _)) (fun c hc => (hcells c hc).1)
    (fun c hc => (hcells c hc).2) hd (h.processDecode_encodedCells _ bs (resetWork _) [])

/-- Settles O37: the three loops undo the encode loops, which leave every register as phase E does. -/
theorem statelessDecodersComplete : Obligations.StatelessDecodersComplete := by
  unfold Obligations.StatelessDecodersComplete
  intro s bs hcap S done
  refine ⟨fun hcfg hinp => ?_, fun hcfg hinp => ?_, fun hcfg hinp => ?_⟩
  · exact nrz_stepsInvert.runDecode_of_encoded rfl rfl hcfg hcap (processEncode_nrz S _ bs) hinp
  · exact rz_stepsInvert.runDecode_of_encoded rfl rfl hcfg hcap
      (processEncode_rz ((wfCfg_samples hcfg).2 rfl) _ bs) hinp
  · exact manchester_stepsInvert.runDecode_of_encoded rfl rfl hcfg hcap
      (processEncode_manchester ((wfCfg_samples hcfg).2 rfl) _ bs) hinp

/-- Settles O38: POL ends as in the encode loop. -/
theorem markDecodersComplete : Obligations.MarkDecodersComplete := by
  unfold Obligations.MarkDecodersComplete
  intro s bs hcap S sp done
  refine ⟨fun hcfg hinp => ?_, fun hcfg hinp => ?_⟩
  · exact ami_stepsInvert.runDecode_of_encoded rfl rfl hcfg hcap (processEncode_ami S sp bs) hinp
  · exact cmi_stepsInvert.runDecode_of_encoded rfl rfl hcfg hcap
      (processEncode_cmi ((wfCfg_samples hcfg).2 rfl) sp bs) hinp

/-- Settles O39: DMQ ends as in the encode loop. -/
theorem diffManchesterDecoderCompletes : Obligations.DiffManchesterDecoderCompletes := by
  unfold Obligations.DiffManchesterDecoderCompletes
  intro s bs hcfg hcap S sp hinp
  exact diffManchester_stepsInvert.runDecode_of_encoded rfl rfl hcfg hcap
    (processEncode_diffManchester ((wfCfg_samples hcfg).2 rfl) sp bs) hinp

/-- Settles O40: MLV and MLT end as in the encode loop. -/
theorem mlt3DecoderCompletes : Obligations.Mlt3DecoderCompletes := by
  unfold Obligations.Mlt3DecoderCompletes
  intro s bs hcfg hcap S sp hinp
  exact mlt3_stepsInvert.runDecode_of_encoded rfl rfl hcfg hcap (processEncode_mlt3 S sp bs) hinp

end Sys2Proof.Machine
end

section
/-! Encodings: command words, configuration words, packed annotations and byte frames, each read back field by field
(spec/30_encoding.md R70 to R80; spec/20_memory.md R55, R57). -/

namespace Sys2Proof

/-! Fields of a word. -/

/-- A word is its upper bits and its lower bits. -/
theorem extractLsb'_append_self (m n : Nat) (w : BitVec (m + n)) : w.extractLsb' n m ++ w.extractLsb' 0 n = w := by
  rw [BitVec.extractLsb'_append_extractLsb'_eq_extractLsb' (Nat.zero_add n).symm, BitVec.extractLsb'_eq_self]

/-- A bit of a word, as a field of one bit. -/
theorem ofBool_getLsbD {n : Nat} (w : BitVec n) (k : Nat) : BitVec.ofBool (w.getLsbD k) = w.extractLsb' k 1 := by
  ext j hj
  obtain rfl : j = 0 := by omega
  simp

/-- A bit of the upper part of a word. -/
theorem getLsbD_append_add {m n : Nat} (x : BitVec m) (y : BitVec n) (k : Nat) :
    (x ++ y).getLsbD (n + k) = x.getLsbD k := by
  rw [BitVec.getLsbD_append, if_neg (by omega), Nat.add_sub_cancel_left]

/-- The lowest bit of a word that ends in it. -/
theorem getLsbD_append_ofBool {m : Nat} (x : BitVec m) (b : Bool) : (x ++ BitVec.ofBool b).getLsbD 0 = b := by
  rw [BitVec.getLsbD_append, if_pos Nat.one_pos, BitVec.getLsbD_ofBool]
  simp

/-! Command words. -/

/-- A command word is its three fields (R70). -/
theorem cmd_eq_fields (w : Byte) : (cmdReserved w ++ BitVec.ofBool (cmdDir w)) ++ cmdScheme w = w := by
  have hdir : BitVec.ofBool (cmdDir w) = w.extractLsb' 4 1 := ofBool_getLsbD w 4
  have hhigh : cmdReserved w ++ w.extractLsb' 4 1 = w.extractLsb' 4 4 :=
    BitVec.extractLsb'_append_extractLsb'_eq_extractLsb' rfl
  rw [hdir, hhigh]
  exact extractLsb'_append_self 4 4 w

/-- A SCHEME value that names a scheme is that scheme's (R71). -/
theorem schemeCode_of_schemeOf {n : BitVec 4} {sch : Scheme} (h : schemeOf n = some sch) : schemeCode sch = n := by
  revert n sch
  decide

theorem dirCode_dirOf (b : Bool) : dirCode (dirOf b) = BitVec.ofBool b := by cases b <;> rfl

/-- A word that decodes to a command is that command's word (R70, R76). -/
theorem encode_of_decode {w : Byte} {i : Instr} (h : decode w = .ok i) : encode i = w := by
  unfold decode at h
  split_ifs at h with hrsv
  split at h
  · next sch hsch =>
    cases h
    rw [encode, Machine.instrOf_dir, Machine.instrOf_scheme, dirCode_dirOf, schemeCode_of_schemeOf hsch]
    conv_rhs => rw [← cmd_eq_fields w, hrsv]
    rfl
  · cases h

/-- A command's own word decodes to it (R76). -/
theorem decode_encode (i : Instr) : decode (encode i) = .ok i := by cases i <;> rfl

/-! Byte frames. -/

/-- The four bytes of a word carry it (R57). -/
theorem bytesToWord_extract (w : Word32) :
    bytesToWord (w.extractLsb' 0 8) (w.extractLsb' 8 8) (w.extractLsb' 16 8) (w.extractLsb' 24 8) = w := by
  have hhigh : w.extractLsb' 24 8 ++ w.extractLsb' 16 8 = w.extractLsb' 16 16 :=
    BitVec.extractLsb'_append_extractLsb'_eq_extractLsb' rfl
  have hthree : w.extractLsb' 16 16 ++ w.extractLsb' 8 8 = w.extractLsb' 8 24 :=
    BitVec.extractLsb'_append_extractLsb'_eq_extractLsb' rfl
  rw [bytesToWord, hhigh, hthree]
  exact extractLsb'_append_self 24 8 w

/-- A word of four bytes has those bytes (R57). -/
theorem wordToBytes_bytesToWord (b0 b1 b2 b3 : Byte) : wordToBytes (bytesToWord b0 b1 b2 b3) = [b0, b1, b2, b3] := by
  have h0 : (bytesToWord b0 b1 b2 b3).extractLsb' 0 8 = b0 := BitVec.extractLsb'_append_eq_right
  have h1 : (bytesToWord b0 b1 b2 b3).extractLsb' 8 8 = b1 :=
    (BitVec.extractLsb'_append_eq_of_le (by decide)).trans BitVec.extractLsb'_append_eq_right
  have h2 : (bytesToWord b0 b1 b2 b3).extractLsb' 16 8 = b2 :=
    (BitVec.extractLsb'_append_eq_of_le (by decide)).trans
      ((BitVec.extractLsb'_append_eq_of_le (by decide)).trans BitVec.extractLsb'_append_eq_right)
  have h3 : (bytesToWord b0 b1 b2 b3).extractLsb' 24 8 = b3 :=
    (BitVec.extractLsb'_append_eq_of_le (by decide)).trans
      ((BitVec.extractLsb'_append_eq_of_le (by decide)).trans BitVec.extractLsb'_append_eq_left)
  rw [wordToBytes, h0, h1, h2, h3]

/-! Packed annotations. -/

/-- The packed form of a record whose position fits (R55). -/
theorem packAnnotation_eq {a : Annotation} (h : a.position < 2 ^ 30) : packAnnotation a =
    some ((BitVec.ofBool (a.kind == .balancing) ++ BitVec.ofBool (a.polarity == .plus)) ++
      BitVec.ofNat 30 a.position) := by
  obtain ⟨position, kind, polarity⟩ := a
  rw [packAnnotation, if_pos h]
  cases kind <;> cases polarity <;> rfl

/-- The fields of a packed word (R55). -/
theorem packed_fields (kind pol : Bool) (n : BitVec 30) :
    let w : Word32 := (BitVec.ofBool kind ++ BitVec.ofBool pol) ++ n
    w.getLsbD 31 = kind ∧ w.getLsbD 30 = pol ∧ w.extractLsb' 0 30 = n := by
  exact ⟨(getLsbD_append_add _ n 1).trans ((getLsbD_append_add (BitVec.ofBool kind) _ 0).trans (by simp)),
    (getLsbD_append_add _ n 0).trans (getLsbD_append_ofBool _ pol), BitVec.extractLsb'_append_eq_right⟩

/-- A word is its three fields (R55). -/
theorem packed_eq_fields (w : Word32) :
    (BitVec.ofBool (w.getLsbD 31) ++ BitVec.ofBool (w.getLsbD 30)) ++ w.extractLsb' 0 30 = w := by
  have hhigh : w.extractLsb' 31 1 ++ w.extractLsb' 30 1 = w.extractLsb' 30 2 :=
    BitVec.extractLsb'_append_extractLsb'_eq_extractLsb' rfl
  rw [ofBool_getLsbD, ofBool_getLsbD, hhigh]
  exact extractLsb'_append_self 2 30 w

/-- The record that a packed word carries, by its bits (R55). -/
theorem unpackAnnotation_kind (w : Word32) : ((unpackAnnotation w).kind == .balancing) = w.getLsbD 31 := by
  unfold unpackAnnotation
  cases w.getLsbD 31 <;> rfl

theorem unpackAnnotation_polarity (w : Word32) : ((unpackAnnotation w).polarity == .plus) = w.getLsbD 30 := by
  unfold unpackAnnotation
  cases w.getLsbD 30 <;> rfl

/-! Configuration words. -/

/-- The fields of a configuration word (R22 to R26). -/
theorem cfg_fields (reserved : BitVec 22) (annot pol : Bool) (spb : BitVec 8) :
    let w : Word32 := ((reserved ++ BitVec.ofBool annot) ++ BitVec.ofBool pol) ++ spb
    w.extractLsb' 0 8 = spb ∧ w.getLsbD 8 = pol ∧ w.getLsbD 9 = annot ∧ w.extractLsb' 10 22 = reserved := by
  refine ⟨BitVec.extractLsb'_append_eq_right, (getLsbD_append_add _ spb 0).trans (getLsbD_append_ofBool _ pol),
    (getLsbD_append_add _ spb 1).trans ((getLsbD_append_add _ (BitVec.ofBool pol) 0).trans
      (getLsbD_append_ofBool _ annot)), ?_⟩
  exact (BitVec.extractLsb'_append_eq_of_le (by decide)).trans
    ((BitVec.extractLsb'_append_eq_of_le (by decide)).trans BitVec.extractLsb'_append_eq_left)

/-- The word of the pseudo-form: the fields of 0x00000002, with the named options in their place (R80). -/
theorem Machine.optionWord_eq (spb : Option (BitVec 8)) (pol : Option Sign) (annot : Option Bool) :
    optionWord spb pol annot =
      ((0#22 ++ BitVec.ofBool (annot.getD false)) ++ BitVec.ofBool (pol == some .plus)) ++ spb.getD 2 := by
  cases pol with
  | none => rfl
  | some a => cases a <;> rfl

end Sys2Proof

namespace Sys2Proof.Machine

/-- Settles O12: a word that decodes is rebuilt from its fields. -/
theorem decodeInvertsEncode : Obligations.DecodeInvertsEncode := by
  unfold Obligations.DecodeInvertsEncode
  rintro i w
  refine ⟨fun h => (encode_of_decode h).symm, ?_⟩
  rintro rfl
  exact decode_encode i

/-- Settles O13: five bytes or more are a word's own bytes between CMD and IN. -/
theorem commandBytesRoundTrip : Obligations.CommandBytesRoundTrip := by
  unfold Obligations.CommandBytesRoundTrip
  refine ⟨fun o => rfl, fun bytes o => ⟨fun h => ?_, ?_⟩⟩
  · unfold decodeFrame at h
    split at h
    · next c b0 b1 b2 b3 inp =>
      cases h
      rw [encodeFrame, wordToBytes_bytesToWord]
      rfl
    · cases h
  · rintro rfl
    exact congrArg (fun cfg => some (Operands.mk o.cmd cfg o.inp)) (bytesToWord_extract o.cfg)

/-- Settles O14: the three fields make the word, and the word has the three fields. -/
theorem packedAnnotationRoundTrip : Obligations.PackedAnnotationRoundTrip := by
  unfold Obligations.PackedAnnotationRoundTrip
  refine ⟨fun a ha => ?_, fun a ha => if_neg (by omega), fun w => ?_⟩
  · obtain ⟨hkind, hpol, hpos⟩ :=
      packed_fields (a.kind == .balancing) (a.polarity == .plus) (BitVec.ofNat 30 a.position)
    have hposition : (BitVec.ofNat 30 a.position).toNat = a.position := Nat.mod_eq_of_lt ha
    refine ⟨_, packAnnotation_eq ha, ?_, hkind, hpol, by rw [hpos, hposition]⟩
    rw [unpackAnnotation, hkind, hpol, hpos, hposition]
    obtain ⟨position, kind, polarity⟩ := a
    cases kind <;> cases polarity <;> rfl
  · have hlt : (unpackAnnotation w).position < 2 ^ 30 := (w.extractLsb' 0 30).isLt
    rw [packAnnotation_eq hlt, unpackAnnotation_kind, unpackAnnotation_polarity]
    refine congrArg some (Eq.trans ?_ (packed_eq_fields w))
    rw [unpackAnnotation, BitVec.ofNat_toNat, BitVec.setWidth_eq]

/-- Settles O15: the four fields of the word are its parts. -/
theorem omittedOptionsKeepDefaults : Obligations.OmittedOptionsKeepDefaults := by
  unfold Obligations.OmittedOptionsKeepDefaults
  refine ⟨rfl, fun spb pol annot => ?_⟩
  dsimp only
  rw [asmCfgWord, optionWord_eq]
  exact cfg_fields 0 _ _ _

end Sys2Proof.Machine
end

section
/-! The host and the step (spec/20_memory.md R63; spec/70_reset_and_hazards.md R280 to R289). -/

namespace Sys2Proof.Machine

/-- Settles O1: LAST_STATUS holds OK, and no command is pending. -/
theorem powerOnReadsZeroAndIsIdle : Obligations.PowerOnReadsZeroAndIsIdle := by
  unfold Obligations.PowerOnReadsZeroAndIsIdle
  exact ⟨rfl, rfl⟩

/-- Settles O2: one case per result. -/
theorem statusCodes : Obligations.StatusCodes := by
  unfold Obligations.StatusCodes
  intro s
  unfold hostReadStatus
  cases s.lastStatus <;> rfl

/-- Settles O5: taking the operands is `accept`. -/
theorem stepRunsDecodedCommand : Obligations.StepRunsDecodedCommand := by
  unfold Obligations.StepRunsDecodedCommand
  intro s o rest i hs hd
  exact step_of_decoded hs hd

/-- A step whose command the host disturbs is refused (R284, R285). -/
theorem step_of_refused {s : State} {r : Request} {rest : List Request} {why : Refusal} (hs : s.pending = r :: rest)
    (hr : conductRefusal r.conduct = some why) : step s = .refused why := by
  simp [step, nextRequest, hs, hr]

/-- Settles O7: each breach has its own refusal. -/
theorem undisciplinedHostIsRefused : Obligations.UndisciplinedHostIsRefused := by
  unfold Obligations.UndisciplinedHostIsRefused
  intro s o rest
  exact ⟨fun hs => step_of_refused hs rfl, fun hs => step_of_refused hs rfl, fun hs => step_of_refused hs rfl⟩

/-- No command touches the commands to come (R112, R259). -/
theorem finish_pending (i : Instr) (s : State) (r : Except ErrorKind (Params × Work)) :
    (finish i s r).pending = s.pending := by
  cases r <;> rfl

/-- A step of a command that the host does not disturb takes it and no other (R74, R259, R289). -/
theorem step_of_waits {s : State} {o : Operands} {rest : List Request} (hs : s.pending = ⟨o, .waits⟩ :: rest) :
    ∃ t, step s = .next t ∧ t.pending = rest := by
  cases hd : decode o.cmd with
  | error e => exact ⟨_, step_of_rejected hs hd, rfl⟩
  | ok i => exact ⟨_, (step_of_decoded hs hd).trans (exec_eq_finish _ _), finish_pending _ _ _⟩

/-- With no command issued a step changes nothing (R282, R289). -/
theorem step_of_idle {s : State} (hs : s.pending = []) : step s = .next s := by
  simp [step, nextRequest, hs]

/-- Settles O8: the core is idle, or the next command is one that the host does not disturb. -/
theorem disciplinedHostNeverStops : Obligations.DisciplinedHostNeverStops := by
  unfold Obligations.DisciplinedHostNeverStops
  intro s hs
  cases hp : s.pending with
  | nil => exact ⟨s, step_of_idle hp, hs, hp⟩
  | cons r rest =>
    obtain ⟨o, conduct⟩ := r
    rw [HostDisciplined, hp] at hs
    obtain ⟨hwaits, hrest⟩ := List.forall_mem_cons.mp hs
    obtain rfl : conduct = .waits := hwaits
    obtain ⟨t, ht, hpending⟩ := step_of_waits hp
    exact ⟨t, ht, fun r hr => hrest r (hpending ▸ hr), hpending⟩

end Sys2Proof.Machine
end
